-- ==== Sys2Proof/Word.lean ====
section
/-! DEFINITION. The value types of the engine (spec/00_scope.md R12): bytes, 32-bit words, 64-bit words, byte
strings, and the eight-word group that holds a chaining state or a digest. -/

namespace Sys2Proof

/-- `u8` (R12). -/
abbrev Byte := BitVec 8

/-- `u32`, called Word by the spec (R12). -/
abbrev Word := BitVec 32

/-- `u64` (R12). -/
abbrev U64 := BitVec 64

/-- `Bytes`: a finite sequence of `u8` (R12). -/
abbrev Bytes := List Byte

/-- `Digest`: a byte string of length 32 (R12). The length is a fact about the functions that make one. -/
abbrev Digest := Bytes

/-- Eight words: a `State` (V0, ..., V7) of the spec (R12), the working registers A..H of a round (R91), and what
each of the register arrays STATE_IN, V, DIGEST and ROOT holds (R24). -/
structure Words8 where
  w0 : Word
  w1 : Word
  w2 : Word
  w3 : Word
  w4 : Word
  w5 : Word
  w6 : Word
  w7 : Word
  deriving DecidableEq, Repr, Inhabited

/-- (0, ..., 0). -/
def Words8.zero : Words8 := ⟨0, 0, 0, 0, 0, 0, 0, 0⟩

end Sys2Proof
end

