-- ==== Sys2Proof/Syntax.lean ====
section
/-! DEFINITION. The commands of the engine, which are its instructions (spec/30_encoding.md R69 to R71): one
constructor per row of spec/opcode_table.json. A command word holds no register, immediate or mode field (R69), so no
constructor has an argument. -/

namespace Sys2Proof

/-- The sixteen commands of the opcode map (R71). -/
inductive Instr where
  /-- NOP, 0x00000000 (R101). -/
  | nop
  /-- SM3_INIT, 0x00000001 (R102). -/
  | sm3Init
  /-- SM3_INJECT, 0x00000002 (R103). -/
  | sm3Inject
  /-- SM3_UPDATE, 0x00000003 (R104). -/
  | sm3Update
  /-- SM3_COMPRESS, 0x00000004 (R105). -/
  | sm3Compress
  /-- SM3_FINAL, 0x00000005 (R106). -/
  | sm3Final
  /-- SM3_HASH, 0x00000006 (R107). -/
  | sm3Hash
  /-- SM3_PAD, 0x00000007 (R108). -/
  | sm3Pad
  /-- LE_EXTEND, 0x00000010 (R111). -/
  | leExtend
  /-- MT_LEAF, 0x00000020 (R131). -/
  | mtLeaf
  /-- MT_NODE, 0x00000021 (R132). -/
  | mtNode
  /-- MT_BUILD, 0x00000022 (R133). -/
  | mtBuild
  /-- MT_INCL_PROOF, 0x00000023 (R134). -/
  | mtInclProof
  /-- MT_VERIFY_INCL, 0x00000024 (R135). -/
  | mtVerifyIncl
  /-- MT_NONINCL_PROOF, 0x00000025 (R136). -/
  | mtNoninclProof
  /-- MT_VERIFY_NONINCL, 0x00000026 (R137). -/
  | mtVerifyNonincl
  deriving DecidableEq, Repr

end Sys2Proof
end

