-- ==== Sys2Proof/Decode.lean ====
section
/-! DEFINITION. The decoder of the 32-bit command word and the encoder (spec/30_encoding.md R69 to R72). The decoder
is total: a reserved word is rejected by name, and the engine completes it with BAD_OPCODE (R144). -/

namespace Sys2Proof

/-- Why a command word is reserved (R72). -/
inductive Reserved where
  /-- MBZ, bits [31:8], is not zero. -/
  | mbzNonzero
  /-- MBZ is zero and OPCODE is one of 0x08-0x0F, 0x11-0x1F, 0x27-0xFF. -/
  | unassignedOpcode
  deriving DecidableEq, Repr

/-- The OPCODE field, bits [7:0] (R69). -/
def opcodeField (w : Word) : BitVec 8 := w.extractLsb' 0 8

/-- The MBZ field, bits [31:8] (R69). -/
def mbzField (w : Word) : BitVec 24 := w.extractLsb' 8 24

/-- The opcode map (R71), on the OPCODE field. -/
def decodeOpcode (op : BitVec 8) : Option Instr :=
  match op.toNat with
  | 0x00 => some .nop
  | 0x01 => some .sm3Init
  | 0x02 => some .sm3Inject
  | 0x03 => some .sm3Update
  | 0x04 => some .sm3Compress
  | 0x05 => some .sm3Final
  | 0x06 => some .sm3Hash
  | 0x07 => some .sm3Pad
  | 0x10 => some .leExtend
  | 0x20 => some .mtLeaf
  | 0x21 => some .mtNode
  | 0x22 => some .mtBuild
  | 0x23 => some .mtInclProof
  | 0x24 => some .mtVerifyIncl
  | 0x25 => some .mtNoninclProof
  | 0x26 => some .mtVerifyNonincl
  | _ => none

/-- Decodes one command word (R71, R72): the word must equal a match value exactly. -/
def decode (w : Word) : Except Reserved Instr :=
  if mbzField w = 0 then
    match decodeOpcode (opcodeField w) with
    | some i => .ok i
    | none => .error .unassignedOpcode
  else .error .mbzNonzero

/-- The opcode of a command (R71). -/
def Instr.opcode : Instr → BitVec 8
  | .nop => 0x00
  | .sm3Init => 0x01
  | .sm3Inject => 0x02
  | .sm3Update => 0x03
  | .sm3Compress => 0x04
  | .sm3Final => 0x05
  | .sm3Hash => 0x06
  | .sm3Pad => 0x07
  | .leExtend => 0x10
  | .mtLeaf => 0x20
  | .mtNode => 0x21
  | .mtBuild => 0x22
  | .mtInclProof => 0x23
  | .mtVerifyIncl => 0x24
  | .mtNoninclProof => 0x25
  | .mtVerifyNonincl => 0x26

/-- The command word of a command: its match value, MBZ zero (R69, R71). -/
def encode (i : Instr) : Word := (0 : BitVec 24) ++ i.opcode

/-- The decoder on a word given as a number of `nbits` bits, numbered as the opcode table numbers them. A command word
is always 32 bits (R70); the bits above `nbits` are zero, and a number that does not fit 32 bits is no command word. -/
def decodeTableWord (nbits w : Nat) : Option Instr :=
  let n := w % 2 ^ nbits
  if n < 2 ^ 32 then
    match decode (BitVec.ofNat 32 n) with
    | .ok i => some i
    | .error _ => none
  else none

end Sys2Proof
end

