-- ==== Sys2Proof/Config.lean ====
section
/-! DEFINITION. What an implementation fixes (spec/00_scope.md R8) and the one source of free values: the draws of
the spec (R20). -/

namespace Sys2Proof.Config

/-- The implementation parameters of R8. State carries them (log 4), so a statement about every state is a statement
about every parameter value. -/
structure Params where
  /-- MEM_BYTES: valid DMA addresses are 0 .. MEM_BYTES-1. -/
  memBytes : Nat
  /-- MAX_LEAVES: the largest leaf count MT_BUILD accepts. -/
  maxLeaves : Nat
  /-- REG_BASE: the platform address of the register block; the engine sees only offsets. -/
  regBase : Nat
  deriving DecidableEq, Repr

/-- The parameters the spec's vectors use (R8, column "default in this spec's vectors"). -/
def Params.vectors : Params := { memBytes := 2 ^ 20, maxLeaves := 2 ^ 20, regBase := 0 }

/-- The platform address of a register offset (R8, R24). -/
def Params.regAddress (p : Params) (off : BitVec 12) : Nat := p.regBase + off.toNat

/-- The draws of the spec (R20: "a value the spec leaves free; a model takes it as an unconstrained input").
`free d k` is component `k` of draw number `d`; nothing is known of its value (log 6). -/
opaque free : Nat → Nat → Nat

/-- A free 32-bit word. -/
def freeWord (d k : Nat) : Word := BitVec.ofNat 32 (free d k)

/-- A free 64-bit word. -/
def freeU64 (d k : Nat) : U64 := BitVec.ofNat 64 (free d k)

/-- A free byte. -/
def freeByte (d k : Nat) : Byte := BitVec.ofNat 8 (free d k)

/-- A free bit. -/
def freeBit (d k : Nat) : Bool := decide (free d k % 2 = 1)

/-- `n` free bytes, components `k`, `k + 1`, ... of draw `d`. -/
def freeBytes (d k n : Nat) : Bytes := (List.range n).map fun i => freeByte d (k + i)

/-- Eight free words, components `k` to `k + 7` of draw `d`. -/
def freeWords8 (d k : Nat) : Words8 :=
  ⟨freeWord d k, freeWord d (k + 1), freeWord d (k + 2), freeWord d (k + 3),
   freeWord d (k + 4), freeWord d (k + 5), freeWord d (k + 6), freeWord d (k + 7)⟩

/-- What SM3_FINAL leaves in V and DIGEST from V, the buffered bytes and BITCNT where BITCNT mod 512 is not 8 × BUF_FILL.
R97 gives Chain, and R94 and R95 give Pad, no value there; nothing is known of this one (log 16). -/
opaque unalignedFinal : Words8 → Bytes → U64 → Words8

end Sys2Proof.Config
end

