-- ==== Sys2Proof/Machine/State.lean ====
section
/-! DEFINITION. The state of the machine (spec/10_state.md R22): the register block, the hidden state, the DMA memory,
and the model's own bookkeeping, as plain data; the reasons a step can stop; the state after reset (R45). -/

namespace Sys2Proof.Machine

/-- Why a step stops. No command stops the machine: an error is an error completion, a next state (R142). -/
inductive Fault where
  /-- Raised by a host memory access to a byte outside [0, MEM_BYTES), an address that does not exist (R46).
  Safe: the model stops where the platform decides (log 12). -/
  | hostMemoryRange
  deriving DecidableEq, Repr

/-- Why a command has no meaning. -/
inductive Refusal where
  /-- Raised by an arm of `exec` whose command has no meaning yet; no arm is left so. Safe. -/
  | notModelled (mnemonic : String)
  deriving DecidableEq, Repr

/-- The errors a command can raise (R139). -/
inductive Err where
  | invalidIndex
  | malformedProof
  | emptyTree
  | lengthOverflow
  | badOpcode
  | badState
  | badArg
  | busError
  | dstTooSmall
  | capacity
  | notSorted
  | keyPresent
  deriving DecidableEq, Repr

/-- CTX_STATUS.CTX_STATE (R34). The value 3 never occurs, so it has no constructor. -/
inductive CtxState where
  /-- 0: no context since reset. -/
  | idle
  /-- 1: SM3_INIT or SM3_INJECT has run, and SM3_FINAL has not run since. -/
  | active
  /-- 2: SM3_FINAL has run. -/
  | finalized
  deriving DecidableEq, Repr

/-- The `len` bytes of DMA memory at `addr` (R47). -/
structure Range where
  addr : Nat
  len : Nat
  deriving DecidableEq, Repr

/-- One turn of an agent (R21, R151). The order of the turns is a draw of the model, given as data (log 1). -/
inductive Input where
  /-- The host writes `value` to register offset `off`, with an access of `width` bytes (R24, R29). -/
  | regWrite (off : BitVec 12) (width : Nat) (value : Word)
  /-- The host reads register offset `off` with an access of `width` bytes (R24, R29). -/
  | regRead (off : BitVec 12) (width : Nat)
  /-- The host writes bytes to DMA memory (R46). -/
  | memWrite (addr : Nat) (bytes : Bytes)
  /-- The host reads bytes of DMA memory (R46). -/
  | memRead (addr : Nat) (len : Nat)
  /-- The engine takes its one enabled step, the completion; an idle engine has none (R41). -/
  | engine
  /-- The platform asserts the reset input (R159). -/
  | hardReset
  /-- The host's WAIT loop: read STATUS until BUSY = 0 (R83). -/
  | wait
  deriving DecidableEq, Repr

/-- The machine state (R22), flat. A 64-bit register pair is held once, as 64 bits (R26). STATUS.BUSY is
`inflight.isSome` (R41). -/
structure State where
  /-- MEM_BYTES, MAX_LEAVES, REG_BASE (R8); no step changes them (log 4). -/
  params : Config.Params
  /-- The command word in flight, if any (R43, R140). -/
  inflight : Option Word
  /-- STATUS.ERR (R40). -/
  errFlag : Bool
  /-- STATUS.VERDICT (R40). -/
  verdict : Bool
  /-- STATUS.ERRCODE (R40, R139). -/
  errcode : BitVec 8
  /-- STATUS.LAST_OP (R40). -/
  lastOp : BitVec 8
  /-- IRQ_STATUS bits DONE (0), ERR (1), OVR (2) (R148). -/
  irqStatus : BitVec 3
  /-- IRQ_ENABLE bits DONE_EN (0), ERR_EN (1), OVR_EN (2) (R148). -/
  irqEnable : BitVec 3
  /-- CTX_STATUS.CTX_STATE (R34). -/
  ctxState : CtxState
  /-- CTX_STATUS.BUF_FILL (R34). -/
  bufFill : BitVec 6
  /-- BUF, the hidden buffer (R42). -/
  buf : Vector Byte 64
  srcAddr : U64
  srcLen : U64
  auxAddr : U64
  auxLen : U64
  dstAddr : U64
  dstLen : U64
  arg0 : U64
  arg1 : U64
  /-- BITCNT_IN (R24). -/
  bitcntIn : U64
  /-- STATE_IN[0..7] (R37). -/
  stateIn : Words8
  /-- BLK[0..15] (R24). -/
  blk : Vector Word 16
  result0 : U64
  result1 : U64
  /-- BITCNT, the bits absorbed (R33). -/
  bitcnt : U64
  /-- V[0..7], the chaining state (R32). -/
  v : Words8
  /-- DIGEST[0..7] (R36). -/
  digest : Words8
  /-- ROOT[0..7] (R38). -/
  root : Words8
  /-- TREE_STATUS.SEALED (R38). -/
  treeSealed : Bool
  /-- TREE_STATUS.SORTED (R38). -/
  treeSorted : Bool
  treeN : U64
  treeDesc : U64
  treeLda : U64
  /-- The DMA memory (R46), in canonical form: addresses strictly rising, no entry equal to 0x00, what an unlisted
  byte reads as (log 5). -/
  mem : List Host.Cell
  /-- The model's own: a byte of the sealed tree's tree memory was written since the build (R64, log 10). -/
  treeTouched : Bool
  /-- The model's own: the ranges the host read since the accept (R62, log 7). -/
  hostReads : List Range
  /-- The model's own: the ranges the host wrote since the accept (R62, log 7). -/
  hostWrites : List Range
  /-- The model's own: how many draws were taken (R20, log 6). -/
  draws : Nat
  /-- The model's own: what the host's last register read returned (R27, log 14). -/
  rdata : Option Word
  /-- The model's own: what the host's last memory read returned (log 14). -/
  mdata : Bytes
  /-- The model's own: the turns still to come (R151, log 1). -/
  inputs : List Input
  deriving DecidableEq, Repr

/-- The state after a hardware reset (R45, R159): every register 0, V too (the IV is loaded by SM3_INIT only), BUF all
zero, no command in flight, no tree; no memory byte listed (log 5), no turn given (log 3). -/
def State.reset : State where
  params := Config.Params.vectors
  inflight := none
  errFlag := false
  verdict := false
  errcode := 0
  lastOp := 0
  irqStatus := 0
  irqEnable := 0
  ctxState := .idle
  bufFill := 0
  buf := Vector.replicate 64 0
  srcAddr := 0
  srcLen := 0
  auxAddr := 0
  auxLen := 0
  dstAddr := 0
  dstLen := 0
  arg0 := 0
  arg1 := 0
  bitcntIn := 0
  stateIn := Words8.zero
  blk := Vector.replicate 16 0
  result0 := 0
  result1 := 0
  bitcnt := 0
  v := Words8.zero
  digest := Words8.zero
  root := Words8.zero
  treeSealed := false
  treeSorted := false
  treeN := 0
  treeDesc := 0
  treeLda := 0
  mem := []
  treeTouched := false
  hostReads := []
  hostWrites := []
  draws := 0
  rdata := none
  mdata := []
  inputs := []

/-- STATUS.BUSY (R40): 1 exactly when a command is in flight (R41, log 20). -/
def State.busy (s : State) : Bool := s.inflight.isSome

end Sys2Proof.Machine
end

