-- ==== Sys2Proof/Machine/Flags.lean ====
section
/-! DEFINITION. The error codes (spec/60_exceptions.md R139), the interrupt bits and the interrupt line (R148, R149),
and the packing of the status registers (spec/10_state.md R24, R27, R34, R38, R40). -/

namespace Sys2Proof.Machine

/-- The 8-bit code of an error, as recorded in STATUS.ERRCODE (R139). -/
def Err.code : Err → BitVec 8
  | .invalidIndex => 0x01
  | .malformedProof => 0x02
  | .emptyTree => 0x03
  | .lengthOverflow => 0x04
  | .badOpcode => 0x10
  | .badState => 0x11
  | .badArg => 0x12
  | .busError => 0x13
  | .dstTooSmall => 0x14
  | .capacity => 0x15
  | .notSorted => 0x16
  | .keyPresent => 0x17

/-- IRQ_STATUS.DONE, bit 0 (R148). -/
def irqDone : BitVec 3 := 0b001

/-- IRQ_STATUS.ERR, bit 1 (R148). -/
def irqErr : BitVec 3 := 0b010

/-- IRQ_STATUS.OVR, bit 2 (R148). -/
def irqOvr : BitVec 3 := 0b100

/-- Sets bits of IRQ_STATUS; bits already set stay set (R147). -/
def raiseIrq (s : State) (bits : BitVec 3) : State := { s with irqStatus := s.irqStatus ||| bits }

/-- A host write of IRQ_STATUS: a 1 clears its bit, a 0 leaves it (R25, RW1C). -/
def clearIrq (s : State) (w : Word) : State := { s with irqStatus := s.irqStatus &&& ~~~ (w.extractLsb' 0 3) }

/-- The interrupt output (R149): a function of IRQ_STATUS and IRQ_ENABLE. -/
def irq (s : State) : Bool := (s.irqStatus &&& s.irqEnable) != 0

/-- One bit. -/
def bit (b : Bool) : BitVec 1 := BitVec.ofBool b

/-- STATUS as a host reads it (R24, R40). While busy it returns BUSY = 1, ERR = 0, VERDICT = 0, ERRCODE = 0 and
LAST_OP (R27). -/
def statusWord (s : State) : Word :=
  if s.busy then (0 : BitVec 8) ++ s.lastOp ++ (0 : BitVec 8) ++ (0 : BitVec 7) ++ (1 : BitVec 1)
  else (0 : BitVec 8) ++ s.lastOp ++ s.errcode ++ (0 : BitVec 5) ++ bit s.verdict ++ bit s.errFlag ++ (0 : BitVec 1)

/-- The value of CTX_STATUS.CTX_STATE (R34). -/
def CtxState.code : CtxState → BitVec 2
  | .idle => 0
  | .active => 1
  | .finalized => 2

/-- CTX_STATUS as a host reads it: CTX_STATE in [1:0], BUF_FILL in [13:8] (R24, R34). -/
def ctxStatusWord (s : State) : Word :=
  (0 : BitVec 18) ++ s.bufFill ++ (0 : BitVec 6) ++ s.ctxState.code

/-- TREE_STATUS as a host reads it: SEALED in [0], SORTED in [1] (R24, R38). -/
def treeStatusWord (s : State) : Word := (0 : BitVec 30) ++ bit s.treeSorted ++ bit s.treeSealed

/-- IRQ_STATUS as a host reads it (R24). -/
def irqStatusWord (s : State) : Word := (0 : BitVec 29) ++ s.irqStatus

/-- IRQ_ENABLE as a host reads it (R24). -/
def irqEnableWord (s : State) : Word := (0 : BitVec 29) ++ s.irqEnable

end Sys2Proof.Machine
end

