-- ==== Sys2Proof/Machine/Bytes.lean ====
section
/-! DEFINITION. The byte-order helpers (spec/00_scope.md R14), the serialisation of eight words (R14), and the
lexicographic order on byte strings (R19). -/

namespace Sys2Proof.Machine

/-- `BE32(w)`: the 4 bytes of `w`, most significant first (R14). -/
def be32 (w : Word) : Bytes :=
  [w.extractLsb' 24 8, w.extractLsb' 16 8, w.extractLsb' 8 8, w.extractLsb' 0 8]

/-- `BE64(v)`: the 8 bytes of `v`, most significant first (R14). -/
def be64 (v : U64) : Bytes :=
  [v.extractLsb' 56 8, v.extractLsb' 48 8, v.extractLsb' 40 8, v.extractLsb' 32 8,
   v.extractLsb' 24 8, v.extractLsb' 16 8, v.extractLsb' 8 8, v.extractLsb' 0 8]

/-- The word of four bytes, the first the most significant. -/
def wordOfBytes (b0 b1 b2 b3 : Byte) : Word := b0 ++ b1 ++ b2 ++ b3

/-- `W32(b, i)`: the word whose BE32 is `b[i:i+4]` (R14). -/
def w32 (b : Bytes) (i : Nat) : Word :=
  wordOfBytes (b.getD i 0) (b.getD (i + 1) 0) (b.getD (i + 2) 0) (b.getD (i + 3) 0)

/-- `U64(b, i)`: the u64 whose BE64 is `b[i:i+8]` (R14). -/
def u64At (b : Bytes) (i : Nat) : U64 := w32 b i ++ w32 b (i + 4)

/-- `b[i:j]` with `n = j - i` bytes (R12). -/
def slice (b : Bytes) (i n : Nat) : Bytes := (b.drop i).take n

/-- `0x00^k` (R12). -/
def zeros (k : Nat) : Bytes := List.replicate k 0

/-- `Ser(S)`: the words of a State in order, each big-endian (R14). -/
def ser (s : Words8) : Digest :=
  be32 s.w0 ++ be32 s.w1 ++ be32 s.w2 ++ be32 s.w3 ++ be32 s.w4 ++ be32 s.w5 ++ be32 s.w6 ++ be32 s.w7

/-- `Deser(d)`: the inverse of `Ser` (R14). -/
def deser (d : Digest) : Words8 :=
  ⟨w32 d 0, w32 d 4, w32 d 8, w32 d 12, w32 d 16, w32 d 20, w32 d 24, w32 d 28⟩

/-- `a <lex b` (R19): `a` is a proper prefix of `b`, or at the first differing index the unsigned byte of `a` is the
smaller. -/
def lexLt : Bytes → Bytes → Bool
  | _, [] => false
  | [], _ :: _ => true
  | a :: as, b :: bs => if a = b then lexLt as bs else decide (a.toNat < b.toNat)

/-- Word `i` of eight (R24: V[i], DIGEST[i], ROOT[i], STATE_IN[i]). -/
def getWord (s : Words8) (i : Fin 8) : Word :=
  match i with
  | 0 => s.w0
  | 1 => s.w1
  | 2 => s.w2
  | 3 => s.w3
  | 4 => s.w4
  | 5 => s.w5
  | 6 => s.w6
  | 7 => s.w7

/-- Replaces word `i` of eight. -/
def setWord (s : Words8) (i : Fin 8) (x : Word) : Words8 :=
  match i with
  | 0 => { s with w0 := x }
  | 1 => { s with w1 := x }
  | 2 => { s with w2 := x }
  | 3 => { s with w3 := x }
  | 4 => { s with w4 := x }
  | 5 => { s with w5 := x }
  | 6 => { s with w6 := x }
  | 7 => { s with w7 := x }

/-- Bits [31:0] of a 64-bit pair, its `_LO` register (R26). -/
def loHalf (x : U64) : Word := x.extractLsb' 0 32

/-- Bits [63:32] of a 64-bit pair, its `_HI` register (R26). -/
def hiHalf (x : U64) : Word := x.extractLsb' 32 32

/-- Writes the `_LO` register of a pair (R26). -/
def setLo (x : U64) (w : Word) : U64 := hiHalf x ++ w

/-- Writes the `_HI` register of a pair (R26). -/
def setHi (x : U64) (w : Word) : U64 := w ++ loHalf x

end Sys2Proof.Machine
end

