-- ==== Sys2Proof/Machine/Sm3Functions.lean ====
section
/-! DEFINITION. The pure functions of the SM3 unit (spec/40_sm3_functions.md R84 to R98): constants, boolean and
permutation functions, message expansion, the round, the compression function, padding, chaining and the hash. -/

namespace Sys2Proof.Machine

/-- The largest value a 64-bit bit count can hold, 2^64 - 1 (R96). -/
def maxBits : Nat := 2 ^ 64 - 1

/-- `x <<< n` of the spec: left rotation by n mod 32 (R13). -/
def rotl (x : Word) (n : Nat) : Word :=
  if n % 32 = 0 then x else (x <<< (n % 32)) ||| (x >>> (32 - n % 32))

/-- IV (R84). -/
def iv : Words8 :=
  ⟨0x7380166F, 0x4914B2B9, 0x172442D7, 0xDA8A0600, 0xA96F30BC, 0x163138AA, 0xE38DEE4D, 0xB0FB0E4E⟩

/-- T(j), the round constant (R85). It depends on j alone (90 C1). -/
def tConst (j : Nat) : Word := if j ≤ 15 then 0x79CC4519 else 0x7A879D8A

/-- FF(j, X, Y, Z) (R86). -/
def ff (j : Nat) (x y z : Word) : Word :=
  if j ≤ 15 then x ^^^ y ^^^ z else (x &&& y) ||| (x &&& z) ||| (y &&& z)

/-- GG(j, X, Y, Z) (R87). -/
def gg (j : Nat) (x y z : Word) : Word :=
  if j ≤ 15 then x ^^^ y ^^^ z else (x &&& y) ||| (~~~ x &&& z)

/-- P0 (R88). -/
def p0 (x : Word) : Word := x ^^^ rotl x 9 ^^^ rotl x 17

/-- P1 (R89). -/
def p1 (x : Word) : Word := x ^^^ rotl x 15 ^^^ rotl x 23

/-- W[j] for 16 <= j <= 67, from the words before it (R90). -/
def expandNext (w : List Word) (j : Nat) : Word :=
  p1 (w.getD (j - 16) 0 ^^^ w.getD (j - 9) 0 ^^^ rotl (w.getD (j - 3) 0) 15)
    ^^^ rotl (w.getD (j - 13) 0) 7 ^^^ w.getD (j - 6) 0

/-- W[0..15]: the 16 big-endian words of the block (R90). -/
def blockWords (b : Bytes) : List Word := (List.range 16).map fun j => w32 b (4 * j)

/-- W[0..67] (R90). -/
def expandW (b : Bytes) : List Word :=
  (List.range' 16 52).foldl (fun w j => w ++ [expandNext w j]) (blockWords b)

/-- W'[0..63]: W'[j] = W[j] ^ W[j+4] (R90). -/
def expandW' (w : List Word) : List Word :=
  (List.range 64).map fun j => w.getD j 0 ^^^ w.getD (j + 4) 0

/-- Round j of compression on (A, ..., H), with W[j] and W'[j] (R91). -/
def round (j : Nat) (s : Words8) (wj wj' : Word) : Words8 :=
  let ss1 := rotl (rotl s.w0 12 + s.w4 + rotl (tConst j) (j % 32)) 7
  let ss2 := ss1 ^^^ rotl s.w0 12
  let tt1 := ff j s.w0 s.w1 s.w2 + s.w3 + ss2 + wj'
  let tt2 := gg j s.w4 s.w5 s.w6 + s.w7 + ss1 + wj
  { w0 := tt1, w1 := s.w0, w2 := rotl s.w1 9, w3 := s.w2,
    w4 := p0 tt2, w5 := s.w4, w6 := rotl s.w5 19, w7 := s.w6 }

/-- The working state after the first `k` rounds on block `b`, starting from `v` (R91, R92). -/
def rounds (v : Words8) (b : Bytes) (k : Nat) : Words8 :=
  let w := expandW b
  let w' := expandW' w
  (List.range k).foldl (fun s j => round j s (w.getD j 0) (w'.getD j 0)) v

/-- Word-by-word exclusive-or: the feed-forward (R92). -/
def xorWords (a b : Words8) : Words8 :=
  ⟨a.w0 ^^^ b.w0, a.w1 ^^^ b.w1, a.w2 ^^^ b.w2, a.w3 ^^^ b.w3,
   a.w4 ^^^ b.w4, a.w5 ^^^ b.w5, a.w6 ^^^ b.w6, a.w7 ^^^ b.w7⟩

/-- CF(V, B): 64 rounds, then the feed-forward (R92). -/
def cf (v : Words8) (b : Bytes) : Words8 := xorWords (rounds v b 64) v

/-- z of R94, the number of zero bytes of the padding. -/
def padZeros (l : Nat) : Nat := (55 + 64 - l / 8 % 64) % 64

/-- PadLen(L), in bytes (R94), for L mod 8 = 0 (another L: log 23). -/
def padLen (l : Nat) : Nat := padZeros l + 9

/-- Pad(L): 0x80, zero bytes, then BE64(L) (R95), for L mod 8 = 0 and L <= 2^64 - 1 (R96). A larger L, which no command
pads, is encoded mod 2^64: the model's choice (log 23). -/
def pad (l : Nat) : Bytes := 0x80 :: (zeros (padZeros l) ++ be64 (BitVec.ofNat 64 l))

/-- Chaining over the first `q` blocks of `x` (R97). -/
def chainBlocks : Nat → Words8 → Bytes → Words8
  | 0, v, _ => v
  | q + 1, v, x => chainBlocks q (cf v (x.take 64)) (x.drop 64)

/-- Chain(V, X) (R97), for X a whole number of blocks. No command chains
another X; the function leaves a remainder of fewer than 64 bytes out (log 16). -/
def chain (v : Words8) (x : Bytes) : Words8 := chainBlocks (x.length / 64) v x

/-- SM3(m) (R98), for 8 × len(m) <= 2^64 - 1. Of a longer m, which no command hashes, it is what `pad` makes of it: the
model's choice (log 23). -/
def sm3 (m : Bytes) : Digest := ser (chain iv (m ++ pad (8 * m.length)))

end Sys2Proof.Machine
end

