-- ==== Sys2Proof/Machine/MerkleFunctions.lean ====
section
/-! DEFINITION. The pure functions of the Merkle unit (spec/43_merkle_functions.md R117 to R130): leaf and node hashes,
the tree shape, the root, inclusion paths, expected flags, folding, sortedness and the key position. -/

namespace Sys2Proof.Machine

/-- LH(x) = SM3(0x00 ‖ x) (R117). -/
def leafHash (x : Bytes) : Digest := sm3 (0x00 :: x)

/-- NH(l, r) = SM3(0x01 ‖ l ‖ r) (R118). -/
def nodeHash (l r : Digest) : Digest := sm3 (0x01 :: (l ++ r))

/-- k(n): the largest power of two strictly less than n, for n >= 2 (R120; smaller n: log 23). -/
def splitPoint (n : Nat) : Nat := 2 ^ Nat.log2 (n - 1)

/-- EMPTY_ROOT = SM3("") (R121). -/
def emptyRoot : Digest := sm3 []

/-- The side of the node hash a sibling stands on (R124). -/
inductive Side where
  /-- Flag byte 0x00. -/
  | left
  /-- Flag byte 0x01. -/
  | right
  deriving DecidableEq, Repr

/-- The flag byte of a proof entry (R77). -/
def Side.byte : Side → Byte
  | .left => 0x00
  | .right => 0x01

/-- A flag byte read back; only 0x00 and 0x01 are flags (R77), and a verify command has checked that first. -/
def Side.ofByte (b : Byte) : Side := if b = 0x00 then .left else .right

/-- A depth that the recursion over `n` leaves never exceeds: a tree of at most 2^d leaves has depth at most d (R126). -/
def treeFuel (n : Nat) : Nat := Nat.log2 n + 1

/-- MTH (R122) to a recursion depth of at most `d`. A sequence of no digest has the root EMPTY_ROOT, a sequence of one
digest has that digest. -/
def mthTo : Nat → List Digest → Digest
  | 0, hs => hs.headD emptyRoot
  | d + 1, hs =>
    if hs.length ≤ 1 then hs.headD emptyRoot
    else
      let k := splitPoint hs.length
      nodeHash (mthTo d (hs.take k)) (mthTo d (hs.drop k))

/-- MTH(D), the Merkle tree hash of a sequence of leaf digests (R122). -/
def mth (hs : List Digest) : Digest := mthTo (treeFuel hs.length) hs

/-- PATH (R124) to a recursion depth of at most `d`. -/
def pathTo : Nat → Nat → List Digest → List (Digest × Side)
  | 0, _, _ => []
  | d + 1, m, hs =>
    if hs.length ≤ 1 then []
    else
      let k := splitPoint hs.length
      if m < k then pathTo d m (hs.take k) ++ [(mth (hs.drop k), .right)]
      else pathTo d (m - k) (hs.drop k) ++ [(mth (hs.take k), .left)]

/-- PATH(m, D), the inclusion path of leaf m, leaf to root (R124), for m < len(D) (another m: log 23). -/
def path (m : Nat) (hs : List Digest) : List (Digest × Side) := pathTo (treeFuel hs.length) m hs

/-- EXPFLAGS (R125) to a recursion depth of at most `d`. -/
def expFlagsTo : Nat → Nat → Nat → List Side
  | 0, _, _ => []
  | d + 1, m, n =>
    if n ≤ 1 then []
    else
      let k := splitPoint n
      if m < k then expFlagsTo d m k ++ [.right]
      else expFlagsTo d (m - k) (n - k) ++ [.left]

/-- EXPFLAGS(m, n), the flags of the path of leaf m of n (R125), for m < n (another m: log 23). -/
def expFlags (m n : Nat) : List Side := expFlagsTo (treeFuel n) m n

/-- depth(m, n) (R126), for m < n (another m: log 23). -/
def depth (m n : Nat) : Nat := (expFlags m n).length

/-- One step of folding: the node hash with the sibling on its side (R127). -/
def foldStep (h : Digest) (e : Digest × Side) : Digest :=
  match e.2 with
  | .left => nodeHash e.1 h
  | .right => nodeHash h e.1

/-- FOLD from a leaf digest (R127). -/
def foldFrom (h : Digest) (es : List (Digest × Side)) : Digest := es.foldl foldStep h

/-- FOLD(x, E) (R127). -/
def fold (x : Bytes) (es : List (Digest × Side)) : Digest := foldFrom (leafHash x) es

/-- Sortedness: strictly increasing leaves (R129). -/
def sortedLeaves : List Bytes → Bool
  | a :: b :: rest => lexLt a b && sortedLeaves (b :: rest)
  | _ => true

/-- pos(y): the number of leaves below the key (R130). R130 says so of a sorted sequence; the count is taken of every
other one too, which MT_NONINCL_PROOF meets only where SORTED was drawn: the model's choice (log 22). -/
def keyPos (leaves : List Bytes) (y : Bytes) : Nat := leaves.countP fun leaf => lexLt leaf y

end Sys2Proof.Machine
end

