-- ==== Sys2Proof/Machine/Operands.lean ====
section
/-! DEFINITION. Operand assembly (spec/30_encoding.md R74) and the memory record formats a command reads and writes:
proof entries and inclusion proofs (R77, R78), non-inclusion records and their parsing (R79, R80). -/

namespace Sys2Proof.Machine

/-- The block operand of SM3_COMPRESS: BE32(BLK[0]) ‖ ... ‖ BE32(BLK[15]) (R74). -/
def blkBlock (s : State) : Bytes := s.blk.toList.flatMap be32

/-- A Digest operand taken from STATE_IN: Ser(STATE_IN) (R74). -/
def stateInDigest (s : State) : Digest := ser s.stateIn

/-- BUF[0 : BUF_FILL], the message bytes absorbed and not yet compressed (R42). -/
def buffered (s : State) : Bytes := s.buf.toList.take s.bufFill.toNat

/-- R35 (a): BITCNT mod 512 = 8 × BUF_FILL. Every active context of a reached state has it (log 8). -/
abbrev contextAligned (s : State) : Prop := s.bitcnt.toNat % 512 = 8 * s.bufFill.toNat

/-- BUF with `BUF[0 : len(bytes)] <- bytes`, the other bytes kept (R104). -/
def bufStore (b : Vector Byte 64) (bytes : Bytes) : Vector Byte 64 :=
  ⟨((bytes ++ b.toList.drop bytes.length).take 64).toArray, by simp; omega⟩

/-- LEAF_ADDR of a leaf descriptor (R75). -/
def descAddr (d : Bytes) : Nat := (u64At d 0).toNat

/-- LEAF_LEN of a leaf descriptor (R75). -/
def descLen (d : Bytes) : Nat := (u64At d 8).toNat

/-- The `n` digests of a leaf-digest array (R76). -/
def digestArray (a : Bytes) (n : Nat) : List Digest := (List.range n).map fun j => slice a (32 * j) 32

/-- Entries 0 .. c-1 of a proof given as bytes: the sibling and the flag byte (R77, R78). -/
def proofEntries (b : Bytes) (c : Nat) : List (Digest × Byte) :=
  (List.range c).map fun k => (slice b (33 * k) 32, b.getD (33 * k + 32) 0)

/-- The flag bytes of proof entries are exactly the expected flags (R128 item 4). A flag other than 0x00 and 0x01 is
never an expected one, so this also covers R73. -/
def flagsOk (es : List (Digest × Byte)) (flags : List Side) : Bool :=
  decide (es.map Prod.snd = flags.map Side.byte)

/-- Proof entries with their flag bytes read as sides, for folding (R127). -/
def sidedEntries (es : List (Digest × Byte)) : List (Digest × Side) :=
  es.map fun e => (e.1, Side.ofByte e.2)

/-- `enc(E)`: sibling then flag byte, per entry (R78). -/
def encPath (es : List (Digest × Side)) : Bytes := es.flatMap fun e => e.1 ++ [e.2.byte]

/-- KIND of a non-inclusion record (R79). -/
inductive NirKind where
  | bracket
  | beforeFirst
  | afterLast
  deriving DecidableEq, Repr

/-- The KIND byte (R79). -/
def NirKind.byte : NirKind → Byte
  | .bracket => 0x00
  | .beforeFirst => 0x01
  | .afterLast => 0x02

/-- A KIND byte read back; 0x03 to 0xFF are malformed (R79). -/
def NirKind.ofByte? (b : Byte) : Option NirKind :=
  if b = 0x00 then some .bracket
  else if b = 0x01 then some .beforeFirst
  else if b = 0x02 then some .afterLast
  else none

/-- One parsed neighbour block (R80): (idx, leaf, c, ent). -/
structure Neighbour where
  index : Nat
  leaf : Bytes
  count : Nat
  entries : Bytes
  deriving DecidableEq, Repr

/-- `take(k)` of R80: the next k bytes and the rest; MalformedProof if fewer remain. -/
def takeBytes (k : Nat) (r : Bytes) : Except Err (Bytes × Bytes) :=
  if k ≤ r.length then .ok (r.take k, r.drop k) else .error .malformedProof

/-- One neighbour block of a record, and the bytes after it (R80). -/
def parseNeighbour (r : Bytes) : Except Err (Neighbour × Bytes) := do
  let (idx, r) ← takeBytes 8 r
  let (len, r) ← takeBytes 8 r
  let (leaf, r) ← takeBytes (u64At len 0).toNat r
  let (c, r) ← takeBytes 1 r
  let count := (c.getD 0 0).toNat
  let (ent, r) ← takeBytes (33 * count) r
  return ({ index := (u64At idx 0).toNat, leaf := leaf, count := count, entries := ent }, r)

/-- The `nb` neighbour blocks of a record, and the bytes after them (R80). -/
def parseNeighbours : Nat → Bytes → Except Err (List Neighbour × Bytes)
  | 0, r => .ok ([], r)
  | nb + 1, r => do
    let (b, r) ← parseNeighbour r
    let (bs, r) ← parseNeighbours nb r
    return (b :: bs, r)

/-- The number of neighbour blocks of a kind (R79). -/
def NirKind.blocks : NirKind → Nat
  | .bracket => 2
  | .beforeFirst => 1
  | .afterLast => 1

/-- ParseNIR(r): the layout of a non-inclusion record (R80). Trailing bytes are malformed. -/
def parseNir (r : Bytes) : Except Err (NirKind × List Neighbour) := do
  let (k, r) ← takeBytes 1 r
  match NirKind.ofByte? (k.getD 0 0) with
  | none => .error .malformedProof
  | some kind =>
    let (bs, r) ← parseNeighbours kind.blocks r
    if r.length ≠ 0 then .error .malformedProof else return (kind, bs)

/-- The bytes of a neighbour block: INDEX, LEAF_LEN, LEAF, COUNT, PROOF (R79). -/
def encNeighbour (j : Nat) (leaf : Bytes) (es : List (Digest × Side)) : Bytes :=
  be64 (BitVec.ofNat 64 j) ++ be64 (BitVec.ofNat 64 leaf.length) ++ leaf
    ++ [BitVec.ofNat 8 es.length] ++ encPath es

end Sys2Proof.Machine
end

