-- ==== Sys2Proof/Machine/Ops.lean ====
section
/-! DEFINITION. The named operations every command is written over: the DMA memory (spec/00_scope.md R16,
spec/20_memory.md R47), the accept, the completion and the error completion (spec/60_exceptions.md R140 to R143), the
check phase and the write phase (R143), and the draws of a command whose memory duties were broken (spec/20_memory.md
R62 to R64). -/

namespace Sys2Proof.Machine

/-! ### Memory -/

/-- What an unlisted byte of memory reads as. The power-up contents are the platform's (R57): DESIGN CHOICE 0x00,
unsafe for a statement about the memory of `State.reset` and for no other (log 5). -/
def Memory.unlisted : Byte := 0x00

/-- The byte at an address. -/
def Memory.get : List Host.Cell → Nat → Byte
  | [], _ => Memory.unlisted
  | (k, b) :: m, a => if k = a then b else Memory.get m a

/-- Stores one byte, keeping the canonical form. -/
def Memory.set : List Host.Cell → Nat → Byte → List Host.Cell
  | [], a, b => if b = Memory.unlisted then [] else [(a, b)]
  | (k, c) :: m, a, b =>
    if a < k then if b = Memory.unlisted then (k, c) :: m else (a, b) :: (k, c) :: m
    else if a = k then if b = Memory.unlisted then m else (a, b) :: m
    else (k, c) :: Memory.set m a b

/-- The `n` bytes from address `a` up (R49). -/
def Memory.read (m : List Host.Cell) (a n : Nat) : Bytes := (List.range n).map fun k => Memory.get m (a + k)

/-- Stores bytes from address `a` up (R16). -/
def Memory.write : List Host.Cell → Nat → Bytes → List Host.Cell
  | m, _, [] => m
  | m, a, b :: bs => Memory.write (Memory.set m a b) (a + 1) bs

/-- The canonical form: addresses strictly rising, no entry equal to what an unlisted address reads as. -/
def Memory.wf : List Host.Cell → Bool
  | [] => true
  | [(_, b)] => decide (b ≠ Memory.unlisted)
  | (a, b) :: (a', b') :: m => decide (a < a') && decide (b ≠ Memory.unlisted) && Memory.wf ((a', b') :: m)

/-- RangeOK(addr, n): `n = 0 or addr + n <= MEM_BYTES`, in unbounded arithmetic (R16, R47, 90 C6). -/
def rangeOk (s : State) (a n : Nat) : Bool := decide (n = 0 ∨ a + n ≤ s.params.memBytes)

/-- Two ranges share a byte; a range of no byte shares none. -/
def Range.meets (r q : Range) : Bool :=
  decide (0 < r.len ∧ 0 < q.len ∧ r.addr < q.addr + q.len ∧ q.addr < r.addr + r.len)

/-- The address is one of the range's. -/
def Range.has (r : Range) (a : Nat) : Bool := decide (r.addr ≤ a ∧ a < r.addr + r.len)

/-- The tree memory of the sealed tree (R64): the descriptor table, the leaf-digest array, and every leaf range the
descriptors name. -/
def treeMemory (s : State) : List Range :=
  if s.treeSealed then
    ⟨s.treeDesc.toNat, 16 * s.treeN.toNat⟩ :: ⟨s.treeLda.toNat, 32 * s.treeN.toNat⟩ ::
      (List.range s.treeN.toNat).map fun i =>
        let d := Memory.read s.mem (s.treeDesc.toNat + 16 * i) 16
        ⟨descAddr d, descLen d⟩
  else []

/-- MemWrite(addr, n, v) (R16), which also notes a write to the sealed tree's tree memory (R64). -/
def memWrite (s : State) (a : Nat) (bytes : Bytes) : State :=
  { s with
    mem := Memory.write s.mem a bytes
    treeTouched := s.treeTouched || (treeMemory s).any fun r => r.meets ⟨a, bytes.length⟩ }

/-! ### The write phase -/

/-- One register write of a write phase (R143). Each constructor names the register it writes. -/
inductive RegWrite where
  | v (x : Words8)
  | bitcnt (x : U64)
  /-- BUF[0 : len] <- bytes (R104). -/
  | buf (bytes : Bytes)
  | bufFill (n : BitVec 6)
  | ctxState (c : CtxState)
  | digest (x : Words8)
  | root (x : Words8)
  | result0 (x : U64)
  | result1 (x : U64)
  /-- TREE_STATUS: SEALED and SORTED (R38). -/
  | treeStatus (isSealed isSorted : Bool)
  | treeN (x : U64)
  | treeDesc (x : U64)
  | treeLda (x : U64)
  /-- STATUS.VERDICT (R40). -/
  | verdict (b : Bool)
  deriving DecidableEq, Repr

/-- Performs one register write. Writing TREE_STATUS is what MT_BUILD alone does, and it starts a new tree whose tree
memory is untouched (R64). -/
def RegWrite.apply (s : State) : RegWrite → State
  | .v x => { s with v := x }
  | .bitcnt x => { s with bitcnt := x }
  | .buf bytes => { s with buf := bufStore s.buf bytes }
  | .bufFill n => { s with bufFill := n }
  | .ctxState c => { s with ctxState := c }
  | .digest x => { s with digest := x }
  | .root x => { s with root := x }
  | .result0 x => { s with result0 := x }
  | .result1 x => { s with result1 := x }
  | .treeStatus a b => { s with treeSealed := a, treeSorted := b, treeTouched := false }
  | .treeN x => { s with treeN := x }
  | .treeDesc x => { s with treeDesc := x }
  | .treeLda x => { s with treeLda := x }
  | .verdict b => { s with verdict := b }

/-- A write phase (R143): register writes, and the bytes of at most one MemWrite. -/
structure Effect where
  regs : List RegWrite
  addr : Nat
  bytes : Bytes
  deriving DecidableEq, Repr

/-- A write phase that writes no memory. -/
def Effect.ofRegs (regs : List RegWrite) : Effect := { regs := regs, addr := 0, bytes := [] }

/-- Performs the register writes in order. -/
def applyRegs (s : State) (ws : List RegWrite) : State := ws.foldl RegWrite.apply s

/-- Performs a write phase (R143): its memory write, then its register writes. -/
def applyEffect (s : State) (e : Effect) : State := applyRegs (memWrite s e.addr e.bytes) e.regs

/-- The memory range a write phase writes. -/
def Effect.range (e : Effect) : Range := ⟨e.addr, e.bytes.length⟩

/-! ### The check phase -/

/-- What a check phase gives (R18, R143): the memory ranges it read, in order, and either the error it raised or the
write phase that follows. -/
structure Check where
  reads : List Range
  res : Except Err Effect

/-- `raise e` (R17). -/
def Check.raise (e : Err) : Check := ⟨[], .error e⟩

/-- The end of a check phase that raised nothing. -/
def Check.done (e : Effect) : Check := ⟨[], .ok e⟩

/-- `if c: raise e`, then the rest, which is not evaluated when `c` holds (R17: "no later line runs"). -/
def Check.raiseIf (c : Prop) [Decidable c] (e : Err) (k : Unit → Check) : Check := if c then .raise e else k ()

/-- `MemRead(a, n)`, then the rest (R16): BusError if the range is not valid. -/
def Check.memRead (s : State) (a n : Nat) (k : Bytes → Check) : Check :=
  if rangeOk s a n then
    let r := k (Memory.read s.mem a n)
    ⟨⟨a, n⟩ :: r.reads, r.res⟩
  else .raise .busError

/-- A pure computation that may raise, then the rest. -/
def Check.except {α : Type} (x : Except Err α) (k : α → Check) : Check :=
  match x with
  | .error e => .raise e
  | .ok a => k a

/-- Reads leaves `i`, `i + 1`, ... (`count` of them) through the descriptor table at `table`, in ascending order (R133,
R136): the descriptor, the length check of the prefixed leaf, then the leaf. -/
def Check.leaves (s : State) (table : Nat) : (count i : Nat) → (List Bytes → Check) → Check
  | 0, _, k => k []
  | count + 1, i, k =>
    .memRead s (table + 16 * i) 16 fun d =>
      .raiseIf (8 * (descLen d + 1) > maxBits) .lengthOverflow fun _ =>
        .memRead s (descAddr d) (descLen d) fun leaf =>
          Check.leaves s table count (i + 1) fun rest => k (leaf :: rest)

/-- The memory range a check phase's write phase will write; none if it raised. -/
def Check.writeRange (c : Check) : Range :=
  match c.res with
  | .ok e => e.range
  | .error _ => ⟨0, 0⟩

/-! ### The command lifecycle -/

/-- The accept of command word `w` (R140): it decodes nothing and changes no other register and no memory byte. The
host's accesses are counted from here (R62). -/
def accept (w : Word) (s : State) : State :=
  { s with
    inflight := some w
    errFlag := false
    verdict := false
    errcode := 0x00
    lastOp := w.extractLsb' 0 8
    hostReads := []
    hostWrites := [] }

/-- The engine is left idle: BUSY <- 0, inflight <- none (R141). -/
def goIdle (s : State) : State := { s with inflight := none, hostReads := [], hostWrites := [] }

/-- ERRCOMP(e) (R142): ERR, ERRCODE, and the DONE and ERR interrupt bits; nothing else. -/
def errorCompletion (e : Err) (s : State) : State :=
  raiseIrq { s with errFlag := true, errcode := e.code } (irqDone ||| irqErr)

/-- The completion (R141): an error completion, or the whole write phase and the DONE bit; then BUSY is cleared. -/
def complete (s : State) : Except Err Effect → State
  | .error e => goIdle (errorCompletion e s)
  | .ok eff => goIdle (raiseIrq (applyEffect s eff) irqDone)

/-! ### Draws of a broken duty -/

/-- The errors each command can raise (R139, column "raised by"). -/
def raises : Instr → List Err
  | .nop => []
  | .sm3Init => []
  | .sm3Inject => [.badArg]
  | .sm3Update => [.lengthOverflow, .badState, .busError]
  | .sm3Compress => [.lengthOverflow, .badState]
  | .sm3Final => [.badState]
  | .sm3Hash => [.lengthOverflow, .busError]
  | .sm3Pad => [.lengthOverflow, .badArg, .busError, .dstTooSmall]
  | .leExtend => [.lengthOverflow, .badArg, .busError, .dstTooSmall]
  | .mtLeaf => [.lengthOverflow, .busError]
  | .mtNode => [.busError]
  | .mtBuild => [.lengthOverflow, .busError, .dstTooSmall, .capacity]
  | .mtInclProof => [.invalidIndex, .emptyTree, .badState, .busError, .dstTooSmall]
  | .mtVerifyIncl => [.invalidIndex, .malformedProof, .emptyTree, .lengthOverflow, .busError]
  | .mtNoninclProof =>
    [.emptyTree, .lengthOverflow, .badState, .busError, .dstTooSmall, .notSorted, .keyPresent]
  | .mtVerifyNonincl => [.invalidIndex, .malformedProof, .emptyTree, .lengthOverflow, .busError]

/-- The registers a successful command writes (R74, column "writes on success"), each with a value that
`RegWrite.drawn` replaces. -/
def resultRegs : Instr → List RegWrite
  | .nop => []
  | .sm3Init => [.v Words8.zero, .bitcnt 0, .buf [], .bufFill 0, .ctxState .active]
  | .sm3Inject => [.v Words8.zero, .bitcnt 0, .buf [], .bufFill 0, .ctxState .active]
  | .sm3Update => [.v Words8.zero, .bitcnt 0, .buf [], .bufFill 0]
  | .sm3Compress => [.v Words8.zero, .bitcnt 0]
  | .sm3Final => [.v Words8.zero, .digest Words8.zero, .buf [], .bufFill 0, .ctxState .finalized]
  | .sm3Hash => [.digest Words8.zero]
  | .sm3Pad => [.result0 0, .result1 0]
  | .leExtend => [.digest Words8.zero, .result0 0, .result1 0]
  | .mtLeaf => [.digest Words8.zero]
  | .mtNode => [.digest Words8.zero]
  | .mtBuild =>
    [.root Words8.zero, .treeN 0, .treeDesc 0, .treeLda 0, .treeStatus false false, .result0 0]
  | .mtInclProof => [.result0 0, .result1 0]
  | .mtVerifyIncl => [.verdict false, .result0 0]
  | .mtNoninclProof => [.result0 0, .result1 0]
  | .mtVerifyNonincl => [.verdict false, .result0 0]

/-- A drawn BUF_FILL: any of 0 to 63 (R62). -/
def drawnFill (d : Nat) : BitVec 6 := BitVec.ofNat 6 (Config.free d 35)

/-- A drawn BITCNT (R62): bits [63:9] are any, and bits [8:0] are what R35 (a), which holds in every reached state, leaves
them, 8 × BUF_FILL (log 8). -/
def drawnCount (d : Nat) : U64 := BitVec.ofNat 64 (512 * Config.free d 26 + 8 * (drawnFill d).toNat)

/-- Register write `w` with its value replaced by draw `d` (R62, R63, R64). Every value is a component of its own, so
each is unconstrained (R20) but for the bits of BITCNT that R35 (a) fixes (log 8). CTX_STATE is written only by commands
that touch no memory, so it is never drawn. -/
def RegWrite.drawn (d : Nat) : RegWrite → RegWrite
  | .v _ => .v (Config.freeWords8 d 0)
  | .digest _ => .digest (Config.freeWords8 d 8)
  | .root _ => .root (Config.freeWords8 d 16)
  | .result0 _ => .result0 (Config.freeU64 d 24)
  | .result1 _ => .result1 (Config.freeU64 d 25)
  | .bitcnt _ => .bitcnt (drawnCount d)
  | .bufFill _ => .bufFill (drawnFill d)
  | .buf _ => .buf (Config.freeBytes d 64 64)
  | .ctxState c => .ctxState c
  | .treeStatus _ _ => .treeStatus (Config.freeBit d 27) (Config.freeBit d 28)
  | .treeN _ => .treeN (Config.freeU64 d 29)
  | .treeDesc _ => .treeDesc (Config.freeU64 d 30)
  | .treeLda _ => .treeLda (Config.freeU64 d 31)
  | .verdict _ => .verdict (Config.freeBit d 32)

/-- A write phase with every register value and every byte replaced by draw `d` (R63); the registers written and the
range written stay (log 9). -/
def Effect.drawn (d : Nat) (e : Effect) : Effect :=
  { regs := e.regs.map (RegWrite.drawn d)
    addr := e.addr
    bytes := Config.freeBytes d 128 e.bytes.length }

/-- The command's rule gives the number of bytes it stores from its argument and tree registers alone (R74). It does not
for MT_NONINCL_PROOF, whose record depends on memory, nor for MT_INCL_PROOF of an index outside the tree, where R126
gives no depth (log 21). -/
def storesKnownLength (i : Instr) (s : State) : Bool :=
  match i with
  | .mtNoninclProof => false
  | .mtInclProof => decide (s.arg0.toNat < s.treeN.toNat)
  | .nop | .sm3Init | .sm3Inject | .sm3Update | .sm3Compress | .sm3Final | .sm3Hash | .sm3Pad | .leExtend | .mtLeaf
  | .mtNode | .mtBuild | .mtVerifyIncl | .mtVerifyNonincl => true

/-- The number of bytes a successful command stores at DST_ADDR, where its rule gives it (R74). -/
def ruleBytes (i : Instr) (s : State) : Nat :=
  match i with
  | .sm3Pad => padLen s.arg0.toNat
  | .leExtend => padLen s.arg0.toNat
  | .mtBuild => 32 * s.arg0.toNat
  | .mtInclProof => 33 * depth s.arg0.toNat s.treeN.toNat
  | .nop | .sm3Init | .sm3Inject | .sm3Update | .sm3Compress | .sm3Final | .sm3Hash | .mtLeaf | .mtNode
  | .mtVerifyIncl | .mtNoninclProof | .mtVerifyNonincl => 0

/-- The most bytes a command stores at DST_ADDR: as many as its rule gives, or DST_LEN. -/
def storeBound (i : Instr) (s : State) : Nat := if storesKnownLength i s then ruleBytes i s else s.dstLen.toNat

/-- The number of bytes of a drawn success, before memory and DST_LEN bound it: what the rule gives, or a draw (logs 10
and 21). -/
def dstBytes (i : Instr) (s : State) (d : Nat) : Nat :=
  if storesKnownLength i s then ruleBytes i s else Config.free d 33

/-- The bytes from DST_ADDR up that are in memory and inside DST_LEN (R47, R74). -/
def dstRoom (s : State) : Nat := min s.dstLen.toNat (s.params.memBytes - s.dstAddr.toNat)

/-- The write phase of command `i` with every value drawn. No byte outside DST's capacity or outside memory is written
(R47, R143). -/
def drawnEffect (i : Instr) (s : State) (d : Nat) : Effect :=
  let n := min (dstBytes i s d) (dstRoom s)
  { regs := (resultRegs i).map (RegWrite.drawn d)
    addr := s.dstAddr.toNat
    bytes := Config.freeBytes d 128 n }

/-- The outcome of a command whose outcome is a draw (R62 (a) to (c), R64): one of the errors it can raise, or a
success whose values are drawn. -/
def drawnOutcome (i : Instr) (s : State) (d : Nat) : Except Err Effect :=
  match (raises i)[Config.free d 34 % ((raises i).length + 1)]? with
  | some e => .error e
  | none => .ok (drawnEffect i s d)

/-- The host broke its duty while the command was in flight (R62): it wrote a byte the command reads, or it read or
wrote a byte the command writes (log 7). -/
def hostBreach (s : State) (c : Check) : Bool :=
  s.hostWrites.any (fun w => c.reads.any fun r => r.meets w) ||
    (s.hostWrites ++ s.hostReads).any fun h => h.meets c.writeRange

/-- Self-overlap (R63): a byte of the command's write range is also a byte it reads. -/
def selfOverlap (c : Check) : Bool := c.reads.any fun r => r.meets c.writeRange

/-- A proof command on a sealed tree whose tree memory was written since the build (R64). It is asked at the completion,
so a proof command in flight when the write comes counts as a later one: the model's choice (log 10). -/
def staleTree (i : Instr) (s : State) : Bool :=
  decide (i = .mtInclProof ∨ i = .mtNoninclProof) && s.treeSealed && s.treeTouched

/-- What the command in flight completes with, and how many draws that took: its check phase's answer, unless a broken
duty makes the outcome a draw (R62, R64) or the values written draws (R63). Where R62 or R64 applies and R63 as well,
the spec gives no precedence, and R62 and R64 win, so the error is a draw too: the model's choice (log 9). -/
def resolve (i : Instr) (s : State) (c : Check) : Except Err Effect × Nat :=
  if hostBreach s c || staleTree i s then (drawnOutcome i s s.draws, 1)
  else if selfOverlap c then (c.res.map (Effect.drawn s.draws), 1)
  else (c.res, 0)

/-- The completion of command `i` with check phase `c` (R141). -/
def finish (i : Instr) (s : State) (c : Check) : State :=
  let r := resolve i s c
  complete { s with draws := s.draws + r.2 } r.1

end Sys2Proof.Machine
end

