-- ==== Sys2Proof/Machine/Control.lean ====
section
/-! DEFINITION. The control command (spec/41_sm3_commands.md R101): NOP. -/

namespace Sys2Proof.Machine

/-- NOP (R101): nothing beyond the common completion. -/
def checkNop (_ : State) : Check := .done (.ofRegs [])

/-- The completion of NOP. -/
def execNop (s : State) : Host.Outcome State Fault Refusal := .next (finish .nop s (checkNop s))

end Sys2Proof.Machine
end

