-- ==== Sys2Proof/Machine/LengthExtension.lean ====
section
/-! DEFINITION. The command of the length-extension unit (spec/42_length_extension.md R111): LE_EXTEND. -/

namespace Sys2Proof.Machine

/-- P, the padded known length in bits (R111, 90 C2). -/
def paddedBits (l : Nat) : Nat := l + 8 * padLen l

/-- The forged digest's state: Chain(STATE_IN, s ‖ Pad(T)) (R111). -/
def forgedState (known : Words8) (l : Nat) (suffix : Bytes) : Words8 :=
  chain known (suffix ++ pad (paddedBits l + 8 * suffix.length))

/-- LE_EXTEND (R111). -/
def checkLeExtend (s : State) : Check :=
  let l := s.arg0.toNat
  let p := padLen l
  let n := s.srcLen.toNat
  let t := paddedBits l + 8 * n
  .raiseIf (l % 8 ≠ 0) .badArg fun _ =>
    .raiseIf (paddedBits l > maxBits) .lengthOverflow fun _ =>
      .raiseIf (t > maxBits) .lengthOverflow fun _ =>
        .raiseIf (p > s.dstLen.toNat) .dstTooSmall fun _ =>
          .memRead s s.srcAddr.toNat n fun suffix =>
            .raiseIf (¬ rangeOk s s.dstAddr.toNat p) .busError fun _ =>
              .done
                { regs :=
                    [.digest (forgedState s.stateIn l suffix),
                     .result0 (BitVec.ofNat 64 p),
                     .result1 (BitVec.ofNat 64 t)]
                  addr := s.dstAddr.toNat
                  bytes := pad l }

/-- The completion of LE_EXTEND. -/
def execLeExtend (s : State) : Host.Outcome State Fault Refusal := .next (finish .leExtend s (checkLeExtend s))

end Sys2Proof.Machine
end

