-- ==== Sys2Proof/Machine/MerkleCommands.lean ====
section
/-! DEFINITION. The commands of the Merkle unit (spec/44_merkle_commands.md R131 to R137): for each, its check phase in
the order of its pseudocode, and its completion. -/

namespace Sys2Proof.Machine

/-- MT_LEAF (R131). -/
def checkMtLeaf (s : State) : Check :=
  .raiseIf (8 * (s.srcLen.toNat + 1) > maxBits) .lengthOverflow fun _ =>
    .memRead s s.srcAddr.toNat s.srcLen.toNat fun leaf =>
      .done (.ofRegs [.digest (deser (leafHash leaf))])

/-- The completion of MT_LEAF. -/
def execMtLeaf (s : State) : Host.Outcome State Fault Refusal := .next (finish .mtLeaf s (checkMtLeaf s))

/-- MT_NODE (R132). SRC_LEN and AUX_LEN are not read. -/
def checkMtNode (s : State) : Check :=
  .memRead s s.srcAddr.toNat 32 fun l =>
    .memRead s s.auxAddr.toNat 32 fun r =>
      .done (.ofRegs [.digest (deser (nodeHash l r))])

/-- The completion of MT_NODE. -/
def execMtNode (s : State) : Host.Outcome State Fault Refusal := .next (finish .mtNode s (checkMtNode s))

/-- The write phase of MT_BUILD over the given leaves (R133). -/
def buildEffect (s : State) (leaves : List Bytes) : Effect :=
  let hs := leaves.map leafHash
  { regs :=
      [.root (deser (mth hs)), .treeN s.arg0, .treeDesc s.srcAddr, .treeLda s.dstAddr,
       .treeStatus true (sortedLeaves leaves), .result0 (BitVec.ofNat 64 (32 * s.arg0.toNat))]
    addr := s.dstAddr.toNat
    bytes := hs.flatten }

/-- MT_BUILD (R133). -/
def checkMtBuild (s : State) : Check :=
  let n := s.arg0.toNat
  .raiseIf (n > s.params.maxLeaves) .capacity fun _ =>
    .raiseIf (32 * n > s.dstLen.toNat) .dstTooSmall fun _ =>
      .raiseIf (¬ rangeOk s s.dstAddr.toNat (32 * n)) .busError fun _ =>
        .raiseIf (¬ rangeOk s s.srcAddr.toNat (16 * n)) .busError fun _ =>
          .leaves s s.srcAddr.toNat n 0 fun leaves => .done (buildEffect s leaves)

/-- The completion of MT_BUILD. -/
def execMtBuild (s : State) : Host.Outcome State Fault Refusal := .next (finish .mtBuild s (checkMtBuild s))

/-- MT_INCL_PROOF (R134). -/
def checkMtInclProof (s : State) : Check :=
  let n := s.treeN.toNat
  let i := s.arg0.toNat
  let m := depth i n
  .raiseIf (s.treeSealed = false) .badState fun _ =>
    .raiseIf (n = 0) .emptyTree fun _ =>
      .raiseIf (i ≥ n) .invalidIndex fun _ =>
        .raiseIf (33 * m > s.dstLen.toNat) .dstTooSmall fun _ =>
          .raiseIf (¬ rangeOk s s.dstAddr.toNat (33 * m)) .busError fun _ =>
            .memRead s s.treeLda.toNat (32 * n) fun a =>
              .done
                { regs := [.result0 (BitVec.ofNat 64 m), .result1 (BitVec.ofNat 64 (33 * m))]
                  addr := s.dstAddr.toNat
                  bytes := encPath (path i (digestArray a n)) }

/-- The completion of MT_INCL_PROOF. -/
def execMtInclProof (s : State) : Host.Outcome State Fault Refusal :=
  .next (finish .mtInclProof s (checkMtInclProof s))

/-- The register writes of a verify command with verdict `ok` (R135, R137). -/
def verdictRegs (ok : Bool) : List RegWrite := [.verdict ok, .result0 (if ok then 1 else 0)]

/-- The verdict of an inclusion proof: its entries fold to the root (R135). -/
def inclVerdict (s : State) (leaf : Bytes) (es : List (Digest × Byte)) : Bool :=
  decide (fold leaf (sidedEntries es) = stateInDigest s)

/-- MT_VERIFY_INCL (R135). -/
def checkMtVerifyIncl (s : State) : Check :=
  let n := s.arg1.toNat
  let i := s.arg0.toNat
  let b := s.auxLen.toNat
  let c := b / 33
  .raiseIf (n = 0) .emptyTree fun _ =>
    .raiseIf (i ≥ n) .invalidIndex fun _ =>
      .raiseIf (b % 33 ≠ 0 ∨ c ≠ depth i n) .malformedProof fun _ =>
        .raiseIf (8 * (s.srcLen.toNat + 1) > maxBits) .lengthOverflow fun _ =>
          .memRead s s.srcAddr.toNat s.srcLen.toNat fun leaf =>
            .memRead s s.auxAddr.toNat b fun p =>
              .raiseIf (flagsOk (proofEntries p c) (expFlags i n) = false) .malformedProof fun _ =>
                .done (.ofRegs (verdictRegs (inclVerdict s leaf (proofEntries p c))))

/-- The completion of MT_VERIFY_INCL. -/
def execMtVerifyIncl (s : State) : Host.Outcome State Fault Refusal :=
  .next (finish .mtVerifyIncl s (checkMtVerifyIncl s))

/-- The kind and the neighbour indices of an absent key at position `p` of `n` leaves (R130, R136). -/
def neighboursOf (p n : Nat) : NirKind × List Nat :=
  if p = 0 then (.beforeFirst, [0])
  else if p = n then (.afterLast, [n - 1])
  else (.bracket, [p - 1, p])

/-- The non-inclusion record of an absent key at position `p` (R136, R79). -/
def nirRecord (leaves : List Bytes) (hs : List Digest) (p : Nat) : Bytes :=
  let kj := neighboursOf p leaves.length
  kj.1.byte :: kj.2.flatMap fun j => encNeighbour j (leaves.getD j []) (path j hs)

/-- MT_NONINCL_PROOF (R136). -/
def checkMtNoninclProof (s : State) : Check :=
  let n := s.treeN.toNat
  .raiseIf (s.treeSealed = false) .badState fun _ =>
    .raiseIf (n = 0) .emptyTree fun _ =>
      .raiseIf (s.treeSorted = false) .notSorted fun _ =>
        .memRead s s.srcAddr.toNat s.srcLen.toNat fun y =>
          .raiseIf (¬ rangeOk s s.treeDesc.toNat (16 * n)) .busError fun _ =>
            .leaves s s.treeDesc.toNat n 0 fun leaves =>
              .memRead s s.treeLda.toNat (32 * n) fun a =>
                let p := keyPos leaves y
                let r := nirRecord leaves (digestArray a n) p
                .raiseIf (p < n ∧ leaves.getD p [] = y) .keyPresent fun _ =>
                  .raiseIf (r.length > s.dstLen.toNat) .dstTooSmall fun _ =>
                    .raiseIf (¬ rangeOk s s.dstAddr.toNat r.length) .busError fun _ =>
                      .done
                        { regs :=
                            [.result0 (BitVec.ofNat 64 r.length),
                             .result1 ((neighboursOf p n).1.byte.setWidth 64)]
                          addr := s.dstAddr.toNat
                          bytes := r }

/-- The completion of MT_NONINCL_PROOF. -/
def execMtNoninclProof (s : State) : Host.Outcome State Fault Refusal :=
  .next (finish .mtNoninclProof s (checkMtNoninclProof s))

/-- The checks of one neighbour block against the leaf count `n` and the root (R137): the errors in order, then whether
its proof folds to the root. -/
def checkNeighbour (root : Digest) (n : Nat) (b : Neighbour) : Except Err Bool :=
  if b.index ≥ n then .error .invalidIndex
  else if b.count ≠ depth b.index n then .error .malformedProof
  else if 8 * (b.leaf.length + 1) > maxBits then .error .lengthOverflow
  else if flagsOk (proofEntries b.entries b.count) (expFlags b.index n) = false then .error .malformedProof
  else .ok (decide (fold b.leaf (sidedEntries (proofEntries b.entries b.count)) = root))

/-- The checks of all blocks, in record order; the answer is true when every proof folds to the root (R137). -/
def checkNeighbours (root : Digest) (n : Nat) : List Neighbour → Except Err Bool
  | [] => .ok true
  | b :: bs =>
    match checkNeighbour root n b with
    | .error e => .error e
    | .ok ok =>
      match checkNeighbours root n bs with
      | .error e => .error e
      | .ok oks => .ok (ok && oks)

/-- The indices fit the kind (R137): leaf 0, leaf n-1, or two adjacent leaves, lower first. -/
def kindFits (kind : NirKind) (n : Nat) (blocks : List Neighbour) : Bool :=
  let j0 := (blocks[0]?.map Neighbour.index).getD 0
  let j1 := (blocks[1]?.map Neighbour.index).getD 0
  match kind with
  | .beforeFirst => decide (j0 = 0)
  | .afterLast => decide (j0 = n - 1)
  | .bracket => decide (j1 = j0 + 1)

/-- The key lies strictly between the neighbours, before the first or after the last leaf (R137). -/
def keyFits (kind : NirKind) (y : Bytes) (blocks : List Neighbour) : Bool :=
  let l0 := (blocks[0]?.map Neighbour.leaf).getD []
  let l1 := (blocks[1]?.map Neighbour.leaf).getD []
  match kind with
  | .beforeFirst => lexLt y l0
  | .afterLast => lexLt l0 y
  | .bracket => lexLt l0 y && lexLt y l1

/-- The whole check of a record against a root, a leaf count and a key (R137): an error, or the verdict. -/
def nirVerdict (root : Digest) (n : Nat) (y r : Bytes) : Except Err Bool :=
  match parseNir r with
  | .error e => .error e
  | .ok (kind, blocks) =>
    match checkNeighbours root n blocks with
    | .error e => .error e
    | .ok ok => if kindFits kind n blocks then .ok (ok && keyFits kind y blocks) else .error .malformedProof

/-- MT_VERIFY_NONINCL (R137). -/
def checkMtVerifyNonincl (s : State) : Check :=
  let n := s.arg1.toNat
  .raiseIf (n = 0) .emptyTree fun _ =>
    .memRead s s.srcAddr.toNat s.srcLen.toNat fun y =>
      .memRead s s.auxAddr.toNat s.auxLen.toNat fun r =>
        .except (nirVerdict (stateInDigest s) n y r) fun ok =>
          .done (.ofRegs (verdictRegs ok))

/-- The completion of MT_VERIFY_NONINCL. -/
def execMtVerifyNonincl (s : State) : Host.Outcome State Fault Refusal :=
  .next (finish .mtVerifyNonincl s (checkMtVerifyNonincl s))

end Sys2Proof.Machine
end

