-- ==== Sys2Proof/Machine/Sm3Commands.lean ====
section
/-! DEFINITION. The commands of the SM3 unit (spec/41_sm3_commands.md R102 to R108): for each, its check phase in the
order of its pseudocode, and its completion. -/

namespace Sys2Proof.Machine

/-- The register writes that open a context (R102, R103): BUF zero, BUF_FILL 0, CTX_STATE ACTIVE. -/
def openContext (v : Words8) (bits : U64) : List RegWrite :=
  [.v v, .bitcnt bits, .buf (zeros 64), .bufFill 0, .ctxState .active]

/-- SM3_INIT (R102). -/
def checkSm3Init (_ : State) : Check := .done (.ofRegs (openContext iv 0))

/-- The completion of SM3_INIT. -/
def execSm3Init (s : State) : Host.Outcome State Fault Refusal := .next (finish .sm3Init s (checkSm3Init s))

/-- SM3_INJECT (R103). -/
def checkSm3Inject (s : State) : Check :=
  .raiseIf (s.bitcntIn.toNat % 512 ≠ 0) .badArg fun _ =>
    .done (.ofRegs (openContext s.stateIn s.bitcntIn))

/-- The completion of SM3_INJECT. -/
def execSm3Inject (s : State) : Host.Outcome State Fault Refusal := .next (finish .sm3Inject s (checkSm3Inject s))

/-- What absorbing `data` writes (R104): whole blocks are compressed, the rest waits in BUF. -/
def absorb (s : State) (data : Bytes) : List RegWrite :=
  let x := buffered s ++ data
  let q := x.length / 64
  let rest := x.drop (64 * q)
  [.v (chain s.v (x.take (64 * q))),
   .bitcnt (BitVec.ofNat 64 (s.bitcnt.toNat + 8 * data.length)),
   .buf rest,
   .bufFill (BitVec.ofNat 6 rest.length)]

/-- SM3_UPDATE (R104). -/
def checkSm3Update (s : State) : Check :=
  .raiseIf (s.ctxState ≠ .active) .badState fun _ =>
    .raiseIf (s.bitcnt.toNat + 8 * s.srcLen.toNat > maxBits) .lengthOverflow fun _ =>
      .memRead s s.srcAddr.toNat s.srcLen.toNat fun data =>
        .done (.ofRegs (absorb s data))

/-- The completion of SM3_UPDATE. -/
def execSm3Update (s : State) : Host.Outcome State Fault Refusal := .next (finish .sm3Update s (checkSm3Update s))

/-- SM3_COMPRESS (R105). -/
def checkSm3Compress (s : State) : Check :=
  .raiseIf (s.ctxState ≠ .active) .badState fun _ =>
    .raiseIf (s.bufFill ≠ 0) .badState fun _ =>
      .raiseIf (s.bitcnt.toNat + 512 > maxBits) .lengthOverflow fun _ =>
        .done (.ofRegs
          [.v (cf s.v (blkBlock s)), .bitcnt (BitVec.ofNat 64 (s.bitcnt.toNat + 512))])

/-- The completion of SM3_COMPRESS. -/
def execSm3Compress (s : State) : Host.Outcome State Fault Refusal :=
  .next (finish .sm3Compress s (checkSm3Compress s))

/-- The final chaining state of the open context: the buffered bytes and Pad(BITCNT) chained onto V (R106). Where R35 (a)
does not hold, as in no reached state, the rules give no value, and it is free (log 16). -/
def finalState (s : State) : Words8 :=
  if contextAligned s then chain s.v (buffered s ++ pad s.bitcnt.toNat)
  else Config.unalignedFinal s.v (buffered s) s.bitcnt

/-- SM3_FINAL (R106). BITCNT keeps its value. -/
def checkSm3Final (s : State) : Check :=
  .raiseIf (s.ctxState ≠ .active) .badState fun _ =>
    .done (.ofRegs
      [.v (finalState s), .digest (finalState s), .buf (zeros 64), .bufFill 0, .ctxState .finalized])

/-- The completion of SM3_FINAL. -/
def execSm3Final (s : State) : Host.Outcome State Fault Refusal := .next (finish .sm3Final s (checkSm3Final s))

/-- SM3_HASH (R107). -/
def checkSm3Hash (s : State) : Check :=
  .raiseIf (8 * s.srcLen.toNat > maxBits) .lengthOverflow fun _ =>
    .memRead s s.srcAddr.toNat s.srcLen.toNat fun m =>
      .done (.ofRegs [.digest (deser (sm3 m))])

/-- The completion of SM3_HASH. -/
def execSm3Hash (s : State) : Host.Outcome State Fault Refusal := .next (finish .sm3Hash s (checkSm3Hash s))

/-- SM3_PAD (R108). -/
def checkSm3Pad (s : State) : Check :=
  let l := s.arg0.toNat
  let p := padLen l
  .raiseIf (l % 8 ≠ 0) .badArg fun _ =>
    .raiseIf (l + 8 * p > maxBits) .lengthOverflow fun _ =>
      .raiseIf (p > s.dstLen.toNat) .dstTooSmall fun _ =>
        .raiseIf (¬ rangeOk s s.dstAddr.toNat p) .busError fun _ =>
          .done
            { regs := [.result0 (BitVec.ofNat 64 p), .result1 (BitVec.ofNat 64 (l + 8 * p))]
              addr := s.dstAddr.toNat
              bytes := pad l }

/-- The completion of SM3_PAD. -/
def execSm3Pad (s : State) : Host.Outcome State Fault Refusal := .next (finish .sm3Pad s (checkSm3Pad s))

end Sys2Proof.Machine
end

