-- ==== Sys2Proof/Machine/Dispatch.lean ====
section
/-! DEFINITION. The dispatch: one arm per command (spec/30_encoding.md R71). `exec i s` is the completion of command `i`
in state `s` (spec/60_exceptions.md R141). -/

namespace Sys2Proof.Machine

def exec (i : Instr) (s : State) : Host.Outcome State Fault Refusal :=
  match i with
  | .nop => Sys2Proof.Machine.execNop s
  | .sm3Init => Sys2Proof.Machine.execSm3Init s
  | .sm3Inject => Sys2Proof.Machine.execSm3Inject s
  | .sm3Update => Sys2Proof.Machine.execSm3Update s
  | .sm3Compress => Sys2Proof.Machine.execSm3Compress s
  | .sm3Final => Sys2Proof.Machine.execSm3Final s
  | .sm3Hash => Sys2Proof.Machine.execSm3Hash s
  | .sm3Pad => Sys2Proof.Machine.execSm3Pad s
  | .leExtend => Sys2Proof.Machine.execLeExtend s
  | .mtLeaf => Sys2Proof.Machine.execMtLeaf s
  | .mtNode => Sys2Proof.Machine.execMtNode s
  | .mtBuild => Sys2Proof.Machine.execMtBuild s
  | .mtInclProof => Sys2Proof.Machine.execMtInclProof s
  | .mtVerifyIncl => Sys2Proof.Machine.execMtVerifyIncl s
  | .mtNoninclProof => Sys2Proof.Machine.execMtNoninclProof s
  | .mtVerifyNonincl => Sys2Proof.Machine.execMtVerifyNonincl s

end Sys2Proof.Machine
end

