-- ==== Sys2Proof/Machine/Registers.lean ====
section
/-! DEFINITION. The register block (spec/10_state.md R24 to R29): the register map, the value of each register, and
what an idle engine does on a write of one. -/

namespace Sys2Proof.Machine

/-- A register access is inside the host's interface: naturally aligned and 32 bits wide (R29). -/
def accessOk (off : BitVec 12) (width : Nat) : Bool :=
  decide (width = 4) && decide (off.toNat % 4 = 0)

/-- The 64-bit pairs of the register map (R24, R26). -/
inductive Pair where
  | srcAddr
  | srcLen
  | auxAddr
  | auxLen
  | dstAddr
  | dstLen
  | arg0
  | arg1
  | result0
  | result1
  | bitcnt
  | bitcntIn
  | treeN
  | treeDesc
  | treeLda
  deriving DecidableEq, Repr

/-- The 32-bit registers of the register map (R24). -/
inductive Reg where
  | id
  | version
  | ctrl
  | status
  | cmd
  | irqStatus
  | irqEnable
  | ctxStatus
  /-- The `_LO` register of a pair. -/
  | lo (p : Pair)
  /-- The `_HI` register of a pair. -/
  | hi (p : Pair)
  | stateIn (i : Fin 8)
  | v (i : Fin 8)
  | digest (i : Fin 8)
  | root (i : Fin 8)
  | blk (i : Fin 16)
  | treeStatus
  deriving DecidableEq, Repr

/-- The offset of a pair's `_LO` register; its `_HI` register is 4 above (R24). -/
def Pair.offset : Pair → Nat
  | .srcAddr => 0x020
  | .srcLen => 0x028
  | .auxAddr => 0x030
  | .auxLen => 0x038
  | .dstAddr => 0x040
  | .dstLen => 0x048
  | .arg0 => 0x050
  | .arg1 => 0x058
  | .result0 => 0x060
  | .result1 => 0x068
  | .bitcnt => 0x070
  | .bitcntIn => 0x078
  | .treeN => 0x148
  | .treeDesc => 0x150
  | .treeLda => 0x158

/-- The offset of a register (R24). -/
def Reg.offset : Reg → Nat
  | .id => 0x000
  | .version => 0x004
  | .ctrl => 0x008
  | .status => 0x00C
  | .cmd => 0x010
  | .irqStatus => 0x014
  | .irqEnable => 0x018
  | .ctxStatus => 0x01C
  | .lo p => p.offset
  | .hi p => p.offset + 4
  | .stateIn i => 0x080 + 4 * i.val
  | .v i => 0x0A0 + 4 * i.val
  | .digest i => 0x0C0 + 4 * i.val
  | .root i => 0x0E0 + 4 * i.val
  | .blk i => 0x100 + 4 * i.val
  | .treeStatus => 0x140

/-- The pair at an offset, if any (R24). -/
def Pair.ofOffset (o : Nat) : Option Pair :=
  match o with
  | 0x020 => some .srcAddr
  | 0x028 => some .srcLen
  | 0x030 => some .auxAddr
  | 0x038 => some .auxLen
  | 0x040 => some .dstAddr
  | 0x048 => some .dstLen
  | 0x050 => some .arg0
  | 0x058 => some .arg1
  | 0x060 => some .result0
  | 0x068 => some .result1
  | 0x070 => some .bitcnt
  | 0x078 => some .bitcntIn
  | 0x148 => some .treeN
  | 0x150 => some .treeDesc
  | 0x158 => some .treeLda
  | _ => none

/-- Element `i` of an array register of `n + 1` words at offset `base` (R24). -/
def arrayIndex (base n o : Nat) : Option (Fin (n + 1)) :=
  if o % 4 = 0 ∧ base ≤ o ∧ o ≤ base + 4 * n then some (Fin.ofNat (n + 1) ((o - base) / 4)) else none

/-- The register at an offset; none for a reserved offset (R24). -/
def Reg.ofOffset (o : Nat) : Option Reg :=
  match o with
  | 0x000 => some .id
  | 0x004 => some .version
  | 0x008 => some .ctrl
  | 0x00C => some .status
  | 0x010 => some .cmd
  | 0x014 => some .irqStatus
  | 0x018 => some .irqEnable
  | 0x01C => some .ctxStatus
  | 0x140 => some .treeStatus
  | o =>
    ((Pair.ofOffset o).map Reg.lo)
      <|> ((Pair.ofOffset (o - 4)).map Reg.hi)
      <|> ((arrayIndex 0x080 7 o).map Reg.stateIn)
      <|> ((arrayIndex 0x0A0 7 o).map Reg.v)
      <|> ((arrayIndex 0x0C0 7 o).map Reg.digest)
      <|> ((arrayIndex 0x0E0 7 o).map Reg.root)
      <|> ((arrayIndex 0x100 15 o).map Reg.blk)

/-- The value of a pair (R15, R26). -/
def pairValue (s : State) : Pair → U64
  | .srcAddr => s.srcAddr
  | .srcLen => s.srcLen
  | .auxAddr => s.auxAddr
  | .auxLen => s.auxLen
  | .dstAddr => s.dstAddr
  | .dstLen => s.dstLen
  | .arg0 => s.arg0
  | .arg1 => s.arg1
  | .result0 => s.result0
  | .result1 => s.result1
  | .bitcnt => s.bitcnt
  | .bitcntIn => s.bitcntIn
  | .treeN => s.treeN
  | .treeDesc => s.treeDesc
  | .treeLda => s.treeLda

/-- The value of a register on a host read, as R24 and R25 give it: RO and RW registers their value, CTRL and CMD 0. -/
def regValue (s : State) : Reg → Word
  | .id => 0x534D3300
  | .version => 0x00000001
  | .ctrl => 0
  | .status => statusWord s
  | .cmd => 0
  | .irqStatus => irqStatusWord s
  | .irqEnable => irqEnableWord s
  | .ctxStatus => ctxStatusWord s
  | .lo p => loHalf (pairValue s p)
  | .hi p => hiHalf (pairValue s p)
  | .stateIn i => getWord s.stateIn i
  | .v i => getWord s.v i
  | .digest i => getWord s.digest i
  | .root i => getWord s.root i
  | .blk i => s.blk[i]
  | .treeStatus => treeStatusWord s

/-- The pairs the engine writes, RO for the host (R24, R31). -/
def Pair.isResult : Pair → Bool
  | .result0 | .result1 | .bitcnt | .treeN | .treeDesc | .treeLda => true
  | .srcAddr | .srcLen | .auxAddr | .auxLen | .dstAddr | .dstLen | .arg0 | .arg1 | .bitcntIn => false

/-- The registers a busy read of which is a draw (R27). -/
def Reg.isResult : Reg → Bool
  | .v _ | .digest _ | .root _ | .ctxStatus | .treeStatus => true
  | .lo p => p.isResult
  | .hi p => p.isResult
  | .id | .version | .ctrl | .status | .cmd | .irqStatus | .irqEnable | .stateIn _ | .blk _ => false

/-- Updates an RW pair; an RO pair is left (R25). -/
def writePair (s : State) (p : Pair) (f : U64 → U64) : State :=
  match p with
  | .srcAddr => { s with srcAddr := f s.srcAddr }
  | .srcLen => { s with srcLen := f s.srcLen }
  | .auxAddr => { s with auxAddr := f s.auxAddr }
  | .auxLen => { s with auxLen := f s.auxLen }
  | .dstAddr => { s with dstAddr := f s.dstAddr }
  | .dstLen => { s with dstLen := f s.dstLen }
  | .arg0 => { s with arg0 := f s.arg0 }
  | .arg1 => { s with arg1 := f s.arg1 }
  | .bitcntIn => { s with bitcntIn := f s.bitcntIn }
  | .result0 | .result1 | .bitcnt | .treeN | .treeDesc | .treeLda => s

/-- A host write to an argument register of an idle engine (R25, R30). Every other register is not an argument
register, and is left as it is. -/
def writeArg (s : State) (r : Reg) (w : Word) : State :=
  match r with
  | .lo p => writePair s p fun x => setLo x w
  | .hi p => writePair s p fun x => setHi x w
  | .stateIn i => { s with stateIn := setWord s.stateIn i w }
  | .blk i => { s with blk := s.blk.set i w }
  | .id | .version | .ctrl | .status | .cmd | .irqStatus | .irqEnable | .ctxStatus | .v _ | .digest _ | .root _
  | .treeStatus => s

end Sys2Proof.Machine
end

