-- ==== Sys2Proof/Machine/HostAccess.lean ====
section
/-! DEFINITION. What the host and the platform do to the machine: register writes and reads (spec/10_state.md R25 to
R29), the soft and the hardware reset (spec/70_reset_and_hazards.md R159, R160), and memory accesses (spec/20_memory.md
R46, R62, R64). -/

namespace Sys2Proof.Machine

/-- The check phase of a command (R18). -/
def checkOf : Instr → State → Check
  | .nop => checkNop
  | .sm3Init => checkSm3Init
  | .sm3Inject => checkSm3Inject
  | .sm3Update => checkSm3Update
  | .sm3Compress => checkSm3Compress
  | .sm3Final => checkSm3Final
  | .sm3Hash => checkSm3Hash
  | .sm3Pad => checkSm3Pad
  | .leExtend => checkLeExtend
  | .mtLeaf => checkMtLeaf
  | .mtNode => checkMtNode
  | .mtBuild => checkMtBuild
  | .mtInclProof => checkMtInclProof
  | .mtVerifyIncl => checkMtVerifyIncl
  | .mtNoninclProof => checkMtNoninclProof
  | .mtVerifyNonincl => checkMtVerifyNonincl

/-- What the command in flight would complete with now, and how many draws that takes (R141, R144). A reserved word
raises BadOpcode. -/
def pending (s : State) (w : Word) : Except Err Effect × Nat :=
  match decode w with
  | .ok i => resolve i s (checkOf i s)
  | .error _ => (.error .badOpcode, 0)

/-! ### Reset -/

/-- Every register at its reset value, no command in flight, no tree (R45, R159). Memory keeps its contents; so do the
parameters, and the model's own record of draws, reads and turns to come. -/
def resetRegisters (s : State) : State :=
  { State.reset with
    params := s.params
    mem := s.mem
    draws := s.draws
    rdata := s.rdata
    mdata := s.mdata
    inputs := s.inputs }

/-- Hardware reset (R159): the DMA memory is not changed (log 11). -/
def hardReset (s : State) : State := resetRegisters s

/-- Each byte of an aborted write is the old value or the value the command would have written, by draw `d` (R160 (c));
`k` counts the bytes. -/
def partialWrite (d : Nat) : Nat → List Host.Cell → Nat → Bytes → List Host.Cell
  | _, m, _, [] => m
  | k, m, a, b :: bs =>
    partialWrite d (k + 1) (if Config.freeBit d k then Memory.set m a b else m) (a + 1) bs

/-- Soft reset (R160): the registers as after a hardware reset; a command in flight is aborted, and the bytes it would
have written are drawn (log 15). -/
def softReset (s : State) : State :=
  match s.inflight with
  | none => resetRegisters s
  | some w =>
    let p := pending s w
    match p.1 with
    | .error _ => resetRegisters { s with draws := s.draws + p.2 }
    | .ok e =>
      resetRegisters
        { s with
          mem := partialWrite (s.draws + p.2) 0 s.mem e.addr e.bytes
          draws := s.draws + p.2 + 1 }

/-! ### Register accesses -/

/-- A host write of register `r` (R25, R28). CTRL, IRQ_STATUS and IRQ_ENABLE act whether the engine is busy or not; a
CMD write is the accept of an idle engine (R140) and an overrun of a busy one (R145); an argument register is written
only while idle; every other register ignores the write. -/
def writeReg (s : State) (r : Reg) (w : Word) : State :=
  match r with
  | .ctrl => if w.getLsbD 0 then softReset s else s
  | .irqStatus => clearIrq s w
  | .irqEnable => { s with irqEnable := w.extractLsb' 0 3 }
  | .cmd => if s.busy then raiseIrq s irqOvr else accept w s
  | .lo _ | .hi _ | .stateIn _ | .blk _ => if s.busy then s else writeArg s r w
  | .id | .version | .status | .ctxStatus | .v _ | .digest _ | .root _ | .treeStatus => s

/-- A host write access (R24, R29, log 13): another width or alignment has no effect, and so has a reserved offset. -/
def hostWrite (s : State) (off : BitVec 12) (width : Nat) (w : Word) : State :=
  if accessOk off width then
    match Reg.ofOffset off.toNat with
    | some r => writeReg s r w
    | none => s
  else s

/-- A host read returned `w`. -/
def returned (s : State) (w : Word) : State := { s with rdata := some w }

/-- A host read returned a draw (R27, R29). -/
def returnedDraw (s : State) : State :=
  { s with rdata := some (Config.freeWord s.draws 0), draws := s.draws + 1 }

/-- A host read access (R24, R25, R27, R29). -/
def hostRead (s : State) (off : BitVec 12) (width : Nat) : State :=
  if accessOk off width then
    match Reg.ofOffset off.toNat with
    | some r => if s.busy && r.isResult then returnedDraw s else returned s (regValue s r)
    | none => returned s 0
  else returnedDraw s

/-! ### Memory accesses -/

/-- The memory range the command in flight may write (R62): what its check phase gives with memory as it now is, or,
where its outcome is a draw, the most a drawn success may write. It takes no draw (log 18). -/
def pendingRange (s : State) : Range :=
  match s.inflight with
  | none => ⟨0, 0⟩
  | some w =>
    match decode w with
    | .error _ => ⟨0, 0⟩
    | .ok i =>
      let c := checkOf i s
      if hostBreach s c || staleTree i s then ⟨s.dstAddr.toNat, min (storeBound i s) (dstRoom s)⟩ else c.writeRange

/-- A host write of memory (R46). While busy it is counted against the host's duty (R62); a write to tree memory is
noted (R64). -/
def hostMemWrite (s : State) (a : Nat) (bytes : Bytes) : State :=
  let t := memWrite s a bytes
  if s.busy then { t with hostWrites := ⟨a, bytes.length⟩ :: t.hostWrites } else t

/-- A host read of memory (R46). While busy it is counted against the host's duty, and a byte the command in flight
may write reads as a draw of its own (R20, R62, 93 I16, log 18). -/
def hostMemRead (s : State) (a n : Nat) : State :=
  if s.busy then
    { s with
      mdata := (List.range n).map fun k =>
        if (pendingRange s).has (a + k) then Config.freeByte s.draws k else Memory.get s.mem (a + k)
      hostReads := ⟨a, n⟩ :: s.hostReads
      draws := s.draws + 1 }
  else { s with mdata := Memory.read s.mem a n }

end Sys2Proof.Machine
end

