-- ==== Sys2Proof/Machine/Engine.lean ====
section
/-! DEFINITION. The engine's turn (spec/10_state.md R41, spec/60_exceptions.md R141, R144) and one turn of any agent
(R151). -/

namespace Sys2Proof.Machine

/-- The engine's one enabled step, the completion of the command in flight: `exec` of the command its word decodes to
(R141), BAD_OPCODE for a reserved word (R144). An idle engine has no step, and the state stays (R41, log 2). -/
def engineTurn (s : State) : Host.Outcome State Fault Refusal :=
  match s.inflight with
  | none => .next s
  | some w =>
    match decode w with
    | .ok i => exec i s
    | .error _ => .next (complete s (.error .badOpcode))

/-- One poll of the host's WAIT loop (R83): a read of STATUS. While BUSY = 1 the engine takes its turn before the next
poll; any number of polls before it is a run with that many reads of STATUS given as turns (log 17). -/
def waitTurn (s : State) : State :=
  let t := returned s (statusWord s)
  if s.busy then { t with inputs := .engine :: .wait :: s.inputs } else t

/-- One turn (R21, R151, log 19). `s.inputs` holds the turns after it. -/
def turn (s : State) : Input → Host.Outcome State Fault Refusal
  | .regWrite off width w => .next (hostWrite s off width w)
  | .regRead off width => .next (hostRead s off width)
  | .memWrite a bytes =>
    if rangeOk s a bytes.length then .next (hostMemWrite s a bytes) else .fault .hostMemoryRange
  | .memRead a n => if rangeOk s a n then .next (hostMemRead s a n) else .fault .hostMemoryRange
  | .engine => engineTurn s
  | .hardReset => .next (hardReset s)
  | .wait => .next (waitTurn s)

/-- The state in which the next step completes command word `n` (of `nbits` bits, numbered as the opcode table numbers
them): the word was accepted, and no other turn comes first. -/
def placeCommand (s : State) (nbits n : Nat) : State :=
  accept (BitVec.ofNat 32 (n % 2 ^ nbits)) { s with inputs := [] }

end Sys2Proof.Machine
end

