-- ==== Sys2Proof/Machine/Step.lean ====
section
/-! DEFINITION. One step of the machine (spec/10_state.md R21, R41, spec/60_exceptions.md R151). -/

namespace Sys2Proof.Machine

/-- One step: the next turn of `inputs`, or, where none is given, the engine's turn (R41, R163, log 1, log 2). -/
def step (s : State) : Host.Outcome State Fault Refusal :=
  match s.inputs with
  | [] => engineTurn s
  | i :: rest => turn { s with inputs := rest } i

/-- `s` with command word `w` accepted, so that the very next step completes it (log 3). -/
def State.withFetchWord (s : State) (nbits w : Nat) : State := placeCommand s nbits w

end Sys2Proof.Machine
end

