-- ==== Sys2Proof/Machine/HostProgram.lean ====
section
/-! DEFINITION. The host program notation and its pseudo-instructions (spec/30_encoding.md R82, R83), expanded to the
turns of State's `inputs`, and the verification helper written in it (spec/42_length_extension.md R114). -/

namespace Sys2Proof.Machine

/-- One statement of the host notation (R82) or a pseudo-instruction (R83). -/
inductive Stmt where
  /-- `WR <REG>, <value32>`. -/
  | wr (r : Reg) (w : Word)
  /-- `RD <REG>`. -/
  | rd (r : Reg)
  /-- `CMD <MNEMONIC>`. -/
  | cmd (i : Instr)
  /-- `MEM <addr>, <hex bytes>`. -/
  | mem (a : Nat) (bytes : Bytes)
  /-- `WAIT`. -/
  | wait
  /-- `WR64 <PAIR>, <v>`. -/
  | wr64 (p : Pair) (x : U64)
  /-- `WRSTATE <d>`. -/
  | wrState (d : Digest)
  /-- `WRBLK <b>`. -/
  | wrBlk (b : Bytes)
  /-- `RUN <MNEMONIC>`. -/
  | run (i : Instr)
  /-- `RDDIGEST`. -/
  | rdDigest
  /-- `RDROOT`. -/
  | rdRoot
  deriving DecidableEq, Repr

/-- A 32-bit host write to a register: the pair (offset, value32) (R82). -/
def wrTurn (r : Reg) (w : Word) : Input := .regWrite (BitVec.ofNat 12 r.offset) 4 w

/-- A 32-bit host read of a register (R82). -/
def rdTurn (r : Reg) : Input := .regRead (BitVec.ofNat 12 r.offset) 4

/-- The turns a statement stands for (R82, R83). -/
def Stmt.turns : Stmt → List Input
  | .wr r w => [wrTurn r w]
  | .rd r => [rdTurn r]
  | .cmd i => [wrTurn .cmd (encode i)]
  | .mem a bytes => [.memWrite a bytes]
  | .wait => [.wait]
  | .wr64 p x => [wrTurn (.lo p) (loHalf x), wrTurn (.hi p) (hiHalf x)]
  | .wrState d => (List.finRange 8).map fun i => wrTurn (.stateIn i) (w32 d (4 * i.val))
  | .wrBlk b => (List.finRange 16).map fun i => wrTurn (.blk i) (w32 b (4 * i.val))
  | .run i => [wrTurn .cmd (encode i), .wait]
  | .rdDigest => (List.finRange 8).map fun i => rdTurn (.digest i)
  | .rdRoot => (List.finRange 8).map fun i => rdTurn (.root i)

/-- A host program given to the machine: its turns come after those already given (R164: it ends when none is left). -/
def loadProgram (s : State) (p : List Stmt) : State := { s with inputs := s.inputs ++ p.flatMap Stmt.turns }

/-- The verification helper of R114, a host program: message `m` at `a`, its glue padding directly after it, suffix `x`
after the glue, and the hash of the whole range. -/
def verificationHelper (a : Nat) (m x : Bytes) : List Stmt :=
  let glue := padLen (8 * m.length)
  [.mem a m,
   .wr64 .arg0 (BitVec.ofNat 64 (8 * m.length)),
   .wr64 .dstAddr (BitVec.ofNat 64 (a + m.length)),
   .wr64 .dstLen (BitVec.ofNat 64 glue),
   .run .sm3Pad,
   .mem (a + m.length + glue) x,
   .wr64 .srcAddr (BitVec.ofNat 64 a),
   .wr64 .srcLen (BitVec.ofNat 64 (m.length + glue + x.length)),
   .run .sm3Hash,
   .rdDigest]

end Sys2Proof.Machine
end

