-- ==== Sys2Proof/Safety.lean ====
section
/-! DEFINITION. The terms the claims are stated in: the invariant of every reached state, a command run as the spec's
rules describe it (no duty broken), the two shapes of a completion, and runs of several commands. -/

namespace Sys2Proof.Machine

/-- Every listed byte is inside the DMA memory (R46). -/
abbrev Memory.within (m : List Host.Cell) (size : Nat) : Prop := ∀ c ∈ m, c.1 < size

/-- The codes STATUS.ERRCODE can record (R139): 0x05-0x0F and 0x18-0xFF never are. -/
abbrev codeRecorded (c : BitVec 8) : Prop :=
  c.toNat ≤ 0x04 ∨ (0x10 ≤ c.toNat ∧ c.toNat ≤ 0x17)

/-- The invariant of every reached state. -/
structure Inv (s : State) : Prop where
  /-- The memory list is canonical. -/
  memWf : Memory.wf s.mem = true
  /-- No byte outside [0, MEM_BYTES) is listed (R46). -/
  memWithin : Memory.within s.mem s.params.memBytes
  /-- R35 (a): an active context has BITCNT mod 512 = 8 × BUF_FILL. -/
  ctxActive : s.ctxState = .active → contextAligned s
  /-- R35 (b): without an active context BUF_FILL = 0. -/
  ctxClosed : s.ctxState ≠ .active → s.bufFill = 0
  /-- R35 (c): with no context since reset, V = 0 and BITCNT = 0. -/
  ctxIdle : s.ctxState = .idle → s.v = Words8.zero ∧ s.bitcnt = 0
  /-- R139: ERRCODE holds a code of the table. -/
  codeOk : codeRecorded s.errcode
  /-- R40: ERR is 1 exactly when ERRCODE is not 0. -/
  errIff : s.errFlag = true ↔ s.errcode ≠ 0
  /-- R27, R40: the accept cleared ERR, VERDICT and ERRCODE, and they stay so while busy. -/
  busyClear : s.busy = true → s.errFlag = false ∧ s.verdict = false
  /-- R140: LAST_OP is the opcode field of the word in flight. -/
  busyLastOp : ∀ w, s.inflight = some w → s.lastOp = opcodeField w
  /-- R40: VERDICT = 1 only after a successful MT_VERIFY_INCL or MT_VERIFY_NONINCL. -/
  verdictOp : s.verdict = true → s.errFlag = false ∧ (s.lastOp = 0x24 ∨ s.lastOp = 0x26)

/-- Nothing makes command `i`'s outcome a draw: the host kept its duty while the command was in flight (R62), the
command's own ranges do not overlap (R63), and no proof is asked of a tree whose memory was written (R64). -/
abbrev undisturbed (i : Instr) (s : State) : Prop :=
  hostBreach s (checkOf i s) = false ∧ selfOverlap (checkOf i s) = false ∧ staleTree i s = false

/-- The state after an error completion of `e` (R142), written out. -/
def errored (s : State) (e : Err) : State :=
  { s with
    errFlag := true
    errcode := e.code
    irqStatus := s.irqStatus ||| 0b011
    inflight := none
    hostReads := []
    hostWrites := [] }

/-- The state after a successful completion that writes nothing of its own (R141), written out. -/
def succeeded (s : State) : State :=
  { s with
    irqStatus := s.irqStatus ||| 0b001
    inflight := none
    hostReads := []
    hostWrites := [] }

/-- A range is valid (R47). -/
abbrev validRange (s : State) (a : U64) (n : Nat) : Prop := n = 0 ∨ a.toNat + n ≤ s.params.memBytes

/-- The bytes of the source operand: SRC_LEN bytes at SRC_ADDR (R74). -/
def srcBytes (s : State) : Bytes := Memory.read s.mem s.srcAddr.toNat s.srcLen.toNat

/-- The bytes of the auxiliary operand: AUX_LEN bytes at AUX_ADDR (R74). -/
def auxBytes (s : State) : Bytes := Memory.read s.mem s.auxAddr.toNat s.auxLen.toNat

/-- Descriptor `i` of the leaf descriptor table at `table` (R75). -/
def descriptor (s : State) (table i : Nat) : Bytes := Memory.read s.mem (table + 16 * i) 16

/-- Leaf `i` through the leaf descriptor table at `table` (R75). -/
def leafOf (s : State) (table i : Nat) : Bytes :=
  Memory.read s.mem (descAddr (descriptor s table i)) (descLen (descriptor s table i))

/-- The `n` leaves of the leaf descriptor table at `table` (R75). -/
def leavesOf (s : State) (table n : Nat) : List Bytes := (List.range n).map (leafOf s table)

/-- Leaf `i` passes the length check and the range check of MT_BUILD (R133). -/
abbrev leafOk (s : State) (table i : Nat) : Prop :=
  8 * (descLen (descriptor s table i) + 1) ≤ maxBits ∧
    (descLen (descriptor s table i) = 0 ∨
      descAddr (descriptor s table i) + descLen (descriptor s table i) ≤ s.params.memBytes)

/-- The leaf-digest array of the sealed tree, as memory holds it (R76). -/
def treeDigests (s : State) : List Digest :=
  digestArray (Memory.read s.mem s.treeLda.toNat (32 * s.treeN.toNat)) s.treeN.toNat

/-- Continues a run with the next state; a stop ends it. -/
def andThen (o : Host.Outcome State Fault Refusal) (f : State → Host.Outcome State Fault Refusal) :
    Host.Outcome State Fault Refusal :=
  match o with
  | .next s => f s
  | .fault r => .fault r
  | .refused r => .refused r

/-- SM3_UPDATE of each part in order, the host writing SRC_ADDR and SRC_LEN before each (R100). -/
def updateParts : List (U64 × U64) → State → Host.Outcome State Fault Refusal
  | [], s => .next s
  | (a, n) :: ps, s => andThen (exec .sm3Update { s with srcAddr := a, srcLen := n }) (updateParts ps)

/-- SM3_INIT, SM3_UPDATE of each part, SM3_FINAL (R100). -/
def streamHash (ps : List (U64 × U64)) (s : State) : Host.Outcome State Fault Refusal :=
  andThen (exec .sm3Init s) fun s => andThen (updateParts ps s) (exec .sm3Final)

/-- The bytes of the parts, in order. -/
def partsBytes (s : State) (ps : List (U64 × U64)) : Bytes :=
  ps.flatMap fun p => Memory.read s.mem p.1.toNat p.2.toNat

/-- Changes the next state; a stop stays as it is. -/
def mapNext (f : State → State) : Host.Outcome State Fault Refusal → Host.Outcome State Fault Refusal
  | .next s => .next (f s)
  | .fault r => .fault r
  | .refused r => .refused r

/-- The 64-bit argument registers a command reads (R74, column "reads"). -/
def readsPair : Instr → Pair → Bool
  | .sm3Inject, .bitcntIn => true
  | .sm3Update, .srcAddr | .sm3Update, .srcLen => true
  | .sm3Hash, .srcAddr | .sm3Hash, .srcLen => true
  | .sm3Pad, .arg0 | .sm3Pad, .dstAddr | .sm3Pad, .dstLen => true
  | .leExtend, .arg0 | .leExtend, .srcAddr | .leExtend, .srcLen | .leExtend, .dstAddr | .leExtend, .dstLen => true
  | .mtLeaf, .srcAddr | .mtLeaf, .srcLen => true
  | .mtNode, .srcAddr | .mtNode, .auxAddr => true
  | .mtBuild, .srcAddr | .mtBuild, .arg0 | .mtBuild, .dstAddr | .mtBuild, .dstLen => true
  | .mtInclProof, .arg0 | .mtInclProof, .dstAddr | .mtInclProof, .dstLen => true
  | .mtVerifyIncl, .srcAddr | .mtVerifyIncl, .srcLen | .mtVerifyIncl, .arg0 | .mtVerifyIncl, .arg1
  | .mtVerifyIncl, .auxAddr | .mtVerifyIncl, .auxLen => true
  | .mtNoninclProof, .srcAddr | .mtNoninclProof, .srcLen | .mtNoninclProof, .dstAddr
  | .mtNoninclProof, .dstLen => true
  | .mtVerifyNonincl, .srcAddr | .mtVerifyNonincl, .srcLen | .mtVerifyNonincl, .arg1
  | .mtVerifyNonincl, .auxAddr | .mtVerifyNonincl, .auxLen => true
  | _, _ => false

/-- The commands that read STATE_IN (R74). -/
def readsStateIn (i : Instr) : Bool :=
  decide (i ∈ [Instr.sm3Inject, .leExtend, .mtVerifyIncl, .mtVerifyNonincl])

/-- `s` with every argument register that command `i` does not read taken from `u` (R74). -/
def withUnread (i : Instr) (u s : State) : State :=
  { s with
    srcAddr := if readsPair i .srcAddr then s.srcAddr else u.srcAddr
    srcLen := if readsPair i .srcLen then s.srcLen else u.srcLen
    auxAddr := if readsPair i .auxAddr then s.auxAddr else u.auxAddr
    auxLen := if readsPair i .auxLen then s.auxLen else u.auxLen
    dstAddr := if readsPair i .dstAddr then s.dstAddr else u.dstAddr
    dstLen := if readsPair i .dstLen then s.dstLen else u.dstLen
    arg0 := if readsPair i .arg0 then s.arg0 else u.arg0
    arg1 := if readsPair i .arg1 then s.arg1 else u.arg1
    bitcntIn := if readsPair i .bitcntIn then s.bitcntIn else u.bitcntIn
    stateIn := if readsStateIn i then s.stateIn else u.stateIn
    blk := if i = .sm3Compress then s.blk else u.blk }

/-- `s` with the streaming context of `u` (V, BITCNT, BUF, CTX_STATUS). -/
def withContext (u s : State) : State :=
  { s with v := u.v, bitcnt := u.bitcnt, buf := u.buf, bufFill := u.bufFill, ctxState := u.ctxState }

/-- `s` with the tree registers of `u` (R38). -/
def withTree (u s : State) : State :=
  { s with
    root := u.root
    treeSealed := u.treeSealed
    treeSorted := u.treeSorted
    treeN := u.treeN
    treeDesc := u.treeDesc
    treeLda := u.treeLda
    treeTouched := u.treeTouched }

/-- The commands of the streaming context (R102 to R106). -/
def contextCommands : List Instr := [.sm3Init, .sm3Inject, .sm3Update, .sm3Compress, .sm3Final]

/-- The commands that store to memory (R74, column "writes on success"). -/
def storingCommands : List Instr := [.sm3Pad, .leExtend, .mtBuild, .mtInclProof, .mtNoninclProof]

/-- The tree registers and memory describe one tree: its leaves are in range, the leaf-digest array holds their leaf
hashes, ROOT is its root and SORTED its sortedness (R38, R64, R133). -/
structure treeIntact (s : State) : Prop where
  isSealed : s.treeSealed = true
  leaves : ∀ i, i < s.treeN.toNat → leafOk s s.treeDesc.toNat i
  digests : treeDigests s = (leavesOf s s.treeDesc.toNat s.treeN.toNat).map leafHash
  root : s.root = deser (mth ((leavesOf s s.treeDesc.toNat s.treeN.toNat).map leafHash))
  sorted : s.treeSorted = sortedLeaves (leavesOf s s.treeDesc.toNat s.treeN.toNat)

/-- pos(y) of the key of MT_NONINCL_PROOF in the sealed tree (R130). -/
def keyPosition (s : State) : Nat := keyPos (leavesOf s s.treeDesc.toNat s.treeN.toNat) (srcBytes s)

/-- The neighbour block of leaf `j` in a record of the sealed tree (R79). -/
def neighbourBlock (s : State) (j : Nat) : Bytes :=
  encNeighbour j (leafOf s s.treeDesc.toNat j) (path j (treeDigests s))

/-- The kind of the record of an absent key (R79, R136). -/
def recordKind (s : State) : Nat :=
  if keyPosition s = 0 then 1 else if keyPosition s = s.treeN.toNat then 2 else 0

/-- The non-inclusion record of an absent key in the sealed tree (R130, R136). -/
def recordOf (s : State) : Bytes :=
  let p := keyPosition s
  BitVec.ofNat 8 (recordKind s) ::
    (if p = 0 then neighbourBlock s 0
      else if p = s.treeN.toNat then neighbourBlock s (s.treeN.toNat - 1)
      else neighbourBlock s (p - 1) ++ neighbourBlock s p)

/-- A proof as the entries of a fold (R127). -/
def proofOf (b : Bytes) (c : Nat) : List (Digest × Side) := sidedEntries (proofEntries b c)

/-- The flag bytes of a proof (R77). -/
def proofFlags (b : Bytes) (c : Nat) : Bytes := (proofEntries b c).map Prod.snd

/-- The expected flag bytes of leaf `m` of `n` (R125). -/
def expFlagBytes (m n : Nat) : Bytes := (expFlags m n).map Side.byte

/-- The bytes of a neighbour block (R79). -/
def Neighbour.bytes (b : Neighbour) : Bytes :=
  be64 (BitVec.ofNat 64 b.index) ++ be64 (BitVec.ofNat 64 b.leaf.length) ++ b.leaf
    ++ [BitVec.ofNat 8 b.count] ++ b.entries

/-- The fields of a neighbour block fit their widths, and its proof has COUNT entries (R79). -/
abbrev Neighbour.fits (b : Neighbour) : Prop :=
  b.index < 2 ^ 64 ∧ b.leaf.length < 2 ^ 64 ∧ b.count < 2 ^ 8 ∧ b.entries.length = 33 * b.count

/-- A neighbour block passes the checks of MT_VERIFY_NONINCL for `n` leaves (R137). -/
abbrev Neighbour.ok (n : Nat) (b : Neighbour) : Prop :=
  b.index < n ∧ b.count = depth b.index n ∧ 8 * (b.leaf.length + 1) ≤ maxBits ∧
    proofFlags b.entries b.count = expFlagBytes b.index n

/-- The proof of a neighbour block folds to a root (R137). -/
abbrev Neighbour.folds (root : Digest) (b : Neighbour) : Prop := fold b.leaf (proofOf b.entries b.count) = root

/-- The byte strings a fold hashes, from the leaf up (R117, R118, R127). -/
def foldInputsFrom (h : Digest) : List (Digest × Side) → List Bytes
  | [] => []
  | e :: es =>
    (match e.2 with
      | .left => 0x01 :: (e.1 ++ h)
      | .right => 0x01 :: (h ++ e.1)) :: foldInputsFrom (foldStep h e) es

/-- The byte strings FOLD(x, E) hashes: the prefixed leaf, then each prefixed pair of children. -/
def foldInputs (x : Bytes) (es : List (Digest × Side)) : List Bytes := (0x00 :: x) :: foldInputsFrom (leafHash x) es

end Sys2Proof.Machine
end

