-- ==== Sys2Proof/WellFormed.lean ====
section
/-! DEFINITION. The well-formedness checks: of command words and commands (spec/30_encoding.md R69, R72), of the
implementation parameters (spec/00_scope.md R8), and of a host turn against the host's interface (spec/10_state.md
R29, spec/20_memory.md R46). -/

namespace Sys2Proof

/-- A command word is assigned: MBZ is zero and OPCODE is not one of the reserved 0x08-0x0F, 0x11-0x1F, 0x27-0xFF
(R72). -/
def CommandWord.wf (w : Word) : Bool :=
  let op := w.toNat % 256
  decide (w.toNat / 256 = 0) &&
    (decide (op ≤ 0x07) || decide (op = 0x10) || (decide (0x20 ≤ op) && decide (op ≤ 0x26)))

/-- A command is well-formed when its word is assigned. No command has an operand field (R69), so every one is. -/
def Instr.wf (i : Instr) : Bool := CommandWord.wf (encode i)

/-- The constraints R8 puts on the parameters: 1 <= MEM_BYTES <= 2^64 and MAX_LEAVES >= 100000. -/
def Config.Params.wf (p : Config.Params) : Bool :=
  decide (1 ≤ p.memBytes) && decide (p.memBytes ≤ 2 ^ 64) && decide (100000 ≤ p.maxLeaves)

/-- A host turn is inside the interface: an aligned 32-bit register access (R29), or a memory access inside
[0, MEM_BYTES) (R46). The engine's turn, the reset input and WAIT always are. -/
def Machine.Input.wf (p : Config.Params) : Machine.Input → Bool
  | .regWrite off width _ => Machine.accessOk off width
  | .regRead off width => Machine.accessOk off width
  | .memWrite a bytes => decide (bytes.length = 0 ∨ a + bytes.length ≤ p.memBytes)
  | .memRead a n => decide (n = 0 ∨ a + n ≤ p.memBytes)
  | .engine => true
  | .hardReset => true
  | .wait => true

end Sys2Proof
end

