-- ==== Sys2Proof/Certificates/Slice0/Obligations.lean ====
section
/-! DEFINITION. The statements about the engine, one per obligation of OBLIGATIONS.json, in its order. A statement of a
command's outcome says, for every state, which error each failing check gives and what a success leaves, as the whole
next state, so that everything it does not name is unchanged. `undisturbed` rules out what makes the outcome a draw. -/

section

open Sys2Proof Sys2Proof.Machine

/-! ### Encoding -/

/-- R71: the opcode map, and a word selects a command exactly when it equals the command's match value. -/
def Obligations.DecodeEncode_Agree : Prop :=
  ((encode .nop = 0x00000000 ∧ encode .sm3Init = 0x00000001 ∧ encode .sm3Inject = 0x00000002 ∧
      encode .sm3Update = 0x00000003 ∧ encode .sm3Compress = 0x00000004 ∧ encode .sm3Final = 0x00000005 ∧
      encode .sm3Hash = 0x00000006 ∧ encode .sm3Pad = 0x00000007) ∧
    (encode .leExtend = 0x00000010 ∧ encode .mtLeaf = 0x00000020 ∧ encode .mtNode = 0x00000021 ∧
      encode .mtBuild = 0x00000022 ∧ encode .mtInclProof = 0x00000023 ∧ encode .mtVerifyIncl = 0x00000024 ∧
      encode .mtNoninclProof = 0x00000025 ∧ encode .mtVerifyNonincl = 0x00000026)) ∧
  (∀ i : Instr, Instr.wf i = true ∧ decode (encode i) = .ok i) ∧
  ∀ (w : Word) (i : Instr), decode w = .ok i → w = encode i

/-- R72, R144: which words are reserved; each is accepted like any other word, and its completion is the error
BAD_OPCODE and nothing else. -/
def Obligations.ReservedWords_Rejected : Prop :=
  ∀ w : Word,
    ((w.toNat / 256 ≠ 0 ∨ (0x08 ≤ w.toNat % 256 ∧ w.toNat % 256 ≤ 0x0F) ∨
        (0x11 ≤ w.toNat % 256 ∧ w.toNat % 256 ≤ 0x1F) ∨ 0x27 ≤ w.toNat % 256) ↔ ∀ i, decode w ≠ .ok i) ∧
    ((∀ i, decode w ≠ .ok i) → ∀ s : State,
      (s.busy = false → hostWrite s 0x010 4 w = accept w s ∧ (accept w s).inflight = some w ∧
        (accept w s).lastOp = w.extractLsb' 0 8) ∧
      (s.inflight = some w → engineTurn s = .next
        { s with errFlag := true, errcode := 0x10, irqStatus := s.irqStatus ||| 0b011, inflight := none,
                 hostReads := [], hostWrites := [] }))

/-- Words written out from the table of R71 decode to their commands, and words outside it to none. -/
def Obligations.SampleWords_Decode : Prop :=
  decode 0x00000000 = .ok .nop ∧ decode 0x00000005 = .ok .sm3Final ∧ decode 0x00000010 = .ok .leExtend ∧
  decode 0x00000022 = .ok .mtBuild ∧ decode 0x00000026 = .ok .mtVerifyNonincl ∧
  decode 0x00000008 = .error .unassignedOpcode ∧ decode 0x00000027 = .error .unassignedOpcode ∧
  decode 0x00000100 = .error .mbzNonzero ∧ decode 0x80000006 = .error .mbzNonzero

/-! ### Steps -/

/-- R41, R141, R144: the engine's turn completes the command its word decodes to, and a reserved word with BAD_OPCODE.
The turn is the step when it is the next turn given, and when none is given (log 2); an idle engine then stays. -/
def Obligations.Step_CompletesCommandInFlight : Prop :=
  (∀ (s : State) (w : Word) (i : Instr), s.inflight = some w → decode w = .ok i →
    (s.inputs = [] → step s = exec i s) ∧
    (∀ rest, s.inputs = .engine :: rest → step s = exec i { s with inputs := rest })) ∧
  (∀ (s : State) (w : Word), s.inflight = some w → (∀ i, decode w ≠ .ok i) →
    (s.inputs = [] → step s = .next (errored s .badOpcode)) ∧
    (∀ rest, s.inputs = .engine :: rest → step s = .next (errored { s with inputs := rest } .badOpcode))) ∧
  (∀ s : State, s.inflight = none →
    (s.inputs = [] → step s = .next s) ∧
    (∀ rest, s.inputs = .engine :: rest → step s = .next { s with inputs := rest }))

/-- R21, R46, R61, R62, R64, R151: a host access or a reset is one step, and what a host memory access does. Outside the
memory it stops the machine (log 12). While busy it is counted, and a byte the command in flight may write reads as a
draw: the clauses on `pendingRange` say which bytes those are (log 18). -/
def Obligations.Step_HostTurns : Prop :=
  ∀ (s : State) (rest : List Input),
    let t := { s with inputs := rest }
    (∀ off width w, step { s with inputs := .regWrite off width w :: rest } = .next (hostWrite t off width w)) ∧
    (∀ off width, step { s with inputs := .regRead off width :: rest } = .next (hostRead t off width)) ∧
    (∀ a bytes, step { s with inputs := .memWrite a bytes :: rest }
      = if bytes.length = 0 ∨ a + bytes.length ≤ s.params.memBytes
        then .next
          { t with
            mem := Memory.write s.mem a bytes
            treeTouched := s.treeTouched || (treeMemory s).any fun r => r.meets ⟨a, bytes.length⟩
            hostWrites := if s.busy then ⟨a, bytes.length⟩ :: s.hostWrites else s.hostWrites }
        else .fault .hostMemoryRange) ∧
    (∀ a n, step { s with inputs := .memRead a n :: rest }
      = if n = 0 ∨ a + n ≤ s.params.memBytes
        then .next (if s.busy then
          { t with
            mdata := (List.range n).map fun k =>
              if (pendingRange t).has (a + k) then Config.freeByte s.draws k else Memory.get s.mem (a + k)
            hostReads := ⟨a, n⟩ :: s.hostReads
            draws := s.draws + 1 }
          else { t with mdata := Memory.read s.mem a n })
        else .fault .hostMemoryRange) ∧
    (step { s with inputs := .hardReset :: rest } = .next (hardReset t)) ∧
    (∀ w i, t.inflight = some w → decode w = .ok i →
      (hostBreach t (checkOf i t) = false → staleTree i t = false → pendingRange t = (checkOf i t).writeRange) ∧
      (hostBreach t (checkOf i t) = true ∨ staleTree i t = true → pendingRange t
        = ⟨t.dstAddr.toNat, min (storeBound i t) (min t.dstLen.toNat (t.params.memBytes - t.dstAddr.toNat))⟩)) ∧
    (∀ w, t.inflight = some w → (∀ i, decode w ≠ .ok i) → ∀ x, (pendingRange t).has x = false)

/-- R82, R83: RUN of a command on an idle engine is the accept, the completion, and a read of STATUS with BUSY = 0. That
the loop polls once before the completion, so that RUN takes four steps, is the model's choice (log 17). -/
def Obligations.RunCommand_AcceptsAndCompletes : Prop :=
  ∀ (s : State) (i : Instr), s.busy = false → s.inputs = [] →
    ∃ t u : State, Host.Core.run Sys2Proof.core 4 (loadProgram s [.run i]) = .next t ∧
      exec i (accept (encode i) s) = .next u ∧ t = { u with rdata := some (statusWord u) } ∧ t.busy = false

/-! ### The command lifecycle -/

/-- R140: what the accept does. -/
def Obligations.Accept_SetsExactly : Prop :=
  ∀ (s : State) (w : Word), s.busy = false →
    hostWrite s 0x010 4 w =
      { s with
        inflight := some w
        errFlag := false
        verdict := false
        errcode := 0x00
        lastOp := w.extractLsb' 0 8
        hostReads := []
        hostWrites := [] }

/-- R145: a command write while busy is dropped and sets OVR, and nothing else changes. -/
def Obligations.Overrun_SetsOvrOnly : Prop :=
  ∀ (s : State) (w : Word), s.busy = true →
    hostWrite s 0x010 4 w = { s with irqStatus := s.irqStatus ||| 0b100 }

/-- R141, R147, R163: every command completes from every state, and its completion leaves the engine idle, sets DONE,
clears no pending interrupt bit and touches no enable bit. -/
def Obligations.Completion_Always : Prop :=
  ∀ (i : Instr) (s : State), ∃ t : State, exec i s = .next t ∧ t.busy = false ∧
    t.irqStatus.getLsbD 0 = true ∧ (∀ k, s.irqStatus.getLsbD k = true → t.irqStatus.getLsbD k = true) ∧
    t.irqEnable = s.irqEnable

/-- R142: an error completion records one of the errors the command can raise and changes STATUS, IRQ_STATUS and
nothing else; `draws` is the model's own count of the draws taken. That a drawn error too, after a broken duty or on
touched tree memory, changes nothing else is the model's reading (logs 7 and 10). -/
def Obligations.ErrorCompletion_IsPrecise : Prop :=
  ∀ (i : Instr) (s t : State), s.errFlag = false → exec i s = .next t → t.errFlag = true →
    ∃ e ∈ raises i, t =
      { s with
        errFlag := true
        errcode := e.code
        irqStatus := s.irqStatus ||| 0b011
        inflight := none
        hostReads := []
        hostWrites := []
        draws := t.draws }

/-- R139: the error codes, and the errors each command can raise. -/
def Obligations.ErrorTable_AsGiven : Prop :=
  (Err.code .invalidIndex = 0x01 ∧ Err.code .malformedProof = 0x02 ∧ Err.code .emptyTree = 0x03 ∧
    Err.code .lengthOverflow = 0x04 ∧ Err.code .badOpcode = 0x10 ∧ Err.code .badState = 0x11 ∧
    Err.code .badArg = 0x12 ∧ Err.code .busError = 0x13 ∧ Err.code .dstTooSmall = 0x14 ∧
    Err.code .capacity = 0x15 ∧ Err.code .notSorted = 0x16 ∧ Err.code .keyPresent = 0x17) ∧
  ∀ i : Instr,
    (.invalidIndex ∈ raises i ↔ i ∈ [Instr.mtInclProof, .mtVerifyIncl, .mtVerifyNonincl]) ∧
    (.malformedProof ∈ raises i ↔ i ∈ [Instr.mtVerifyIncl, .mtVerifyNonincl]) ∧
    (.emptyTree ∈ raises i ↔ i ∈ [Instr.mtInclProof, .mtVerifyIncl, .mtNoninclProof, .mtVerifyNonincl]) ∧
    (.lengthOverflow ∈ raises i ↔ i ∈ [Instr.sm3Update, .sm3Compress, .sm3Hash, .sm3Pad, .leExtend, .mtLeaf,
      .mtBuild, .mtVerifyIncl, .mtNoninclProof, .mtVerifyNonincl]) ∧
    (.badOpcode ∉ raises i) ∧
    (.badState ∈ raises i ↔ i ∈ [Instr.sm3Update, .sm3Compress, .sm3Final, .mtInclProof, .mtNoninclProof]) ∧
    (.badArg ∈ raises i ↔ i ∈ [Instr.sm3Inject, .sm3Pad, .leExtend]) ∧
    (.busError ∈ raises i ↔ i ∈ [Instr.sm3Update, .sm3Hash, .sm3Pad, .leExtend, .mtLeaf, .mtNode, .mtBuild,
      .mtInclProof, .mtVerifyIncl, .mtNoninclProof, .mtVerifyNonincl]) ∧
    (.dstTooSmall ∈ raises i ↔ i ∈ [Instr.sm3Pad, .leExtend, .mtBuild, .mtInclProof, .mtNoninclProof]) ∧
    (.capacity ∈ raises i ↔ i = .mtBuild) ∧
    (.notSorted ∈ raises i ↔ i = .mtNoninclProof) ∧
    (.keyPresent ∈ raises i ↔ i = .mtNoninclProof)

/-! ### The outcome of each command -/

/-- R101. -/
def Obligations.Nop_Outcome : Prop :=
  ∀ s : State, exec .nop s = .next (succeeded s)

/-- R102. -/
def Obligations.Sm3Init_Outcome : Prop :=
  ∀ s : State, exec .sm3Init s = .next
    { succeeded s with
      v := ⟨0x7380166F, 0x4914B2B9, 0x172442D7, 0xDA8A0600, 0xA96F30BC, 0x163138AA, 0xE38DEE4D, 0xB0FB0E4E⟩
      bitcnt := 0
      buf := Vector.replicate 64 0
      bufFill := 0
      ctxState := .active }

/-- R103. -/
def Obligations.Sm3Inject_Outcome : Prop :=
  ∀ s : State,
    (s.bitcntIn.toNat % 512 ≠ 0 → exec .sm3Inject s = .next (errored s .badArg)) ∧
    (s.bitcntIn.toNat % 512 = 0 → exec .sm3Inject s = .next
      { succeeded s with
        v := s.stateIn
        bitcnt := s.bitcntIn
        buf := Vector.replicate 64 0
        bufFill := 0
        ctxState := .active })

/-- R104; the last clause says which bytes then wait in BUF. -/
def Obligations.Sm3Update_Outcome : Prop :=
  ∀ s : State, undisturbed .sm3Update s →
    (s.ctxState ≠ .active → exec .sm3Update s = .next (errored s .badState)) ∧
    (s.ctxState = .active → s.bitcnt.toNat + 8 * s.srcLen.toNat > 2 ^ 64 - 1 →
      exec .sm3Update s = .next (errored s .lengthOverflow)) ∧
    (s.ctxState = .active → s.bitcnt.toNat + 8 * s.srcLen.toNat ≤ 2 ^ 64 - 1 →
      ¬ validRange s s.srcAddr s.srcLen.toNat → exec .sm3Update s = .next (errored s .busError)) ∧
    (s.ctxState = .active → s.bitcnt.toNat + 8 * s.srcLen.toNat ≤ 2 ^ 64 - 1 →
      validRange s s.srcAddr s.srcLen.toNat →
        let x := buffered s ++ srcBytes s
        let q := x.length / 64
        let t : State :=
          { succeeded s with
            v := chain s.v (x.take (64 * q))
            bitcnt := s.bitcnt + 8 * s.srcLen
            buf := bufStore s.buf (x.drop (64 * q))
            bufFill := BitVec.ofNat 6 (x.length % 64) }
        exec .sm3Update s = .next t ∧ buffered t = x.drop (64 * q))

/-- R105. -/
def Obligations.Sm3Compress_Outcome : Prop :=
  ∀ s : State,
    (s.ctxState ≠ .active → exec .sm3Compress s = .next (errored s .badState)) ∧
    (s.ctxState = .active → s.bufFill ≠ 0 → exec .sm3Compress s = .next (errored s .badState)) ∧
    (s.ctxState = .active → s.bufFill = 0 → s.bitcnt.toNat + 512 > 2 ^ 64 - 1 →
      exec .sm3Compress s = .next (errored s .lengthOverflow)) ∧
    (s.ctxState = .active → s.bufFill = 0 → s.bitcnt.toNat + 512 ≤ 2 ^ 64 - 1 →
      exec .sm3Compress s = .next
        { succeeded s with v := cf s.v (s.blk.toList.flatMap be32), bitcnt := s.bitcnt + 512 })

/-- R106. Where BITCNT and BUF_FILL do not agree, which R35 (a) rules out of every reached state, the rules give V and
DIGEST no value: it is free, the model's choice (log 16); the other writes stay. -/
def Obligations.Sm3Final_Outcome : Prop :=
  ∀ s : State,
    (s.ctxState ≠ .active → exec .sm3Final s = .next (errored s .badState)) ∧
    (s.ctxState = .active → s.bitcnt.toNat % 512 = 8 * s.bufFill.toNat →
      exec .sm3Final s = .next
        { succeeded s with
          v := chain s.v (buffered s ++ pad s.bitcnt.toNat)
          digest := chain s.v (buffered s ++ pad s.bitcnt.toNat)
          buf := Vector.replicate 64 0
          bufFill := 0
          ctxState := .finalized }) ∧
    (s.ctxState = .active → s.bitcnt.toNat % 512 ≠ 8 * s.bufFill.toNat →
      exec .sm3Final s = .next
        { succeeded s with
          v := Config.unalignedFinal s.v (buffered s) s.bitcnt
          digest := Config.unalignedFinal s.v (buffered s) s.bitcnt
          buf := Vector.replicate 64 0
          bufFill := 0
          ctxState := .finalized })

/-- R107. -/
def Obligations.Sm3Hash_Outcome : Prop :=
  ∀ s : State, undisturbed .sm3Hash s →
    (8 * s.srcLen.toNat > 2 ^ 64 - 1 → exec .sm3Hash s = .next (errored s .lengthOverflow)) ∧
    (8 * s.srcLen.toNat ≤ 2 ^ 64 - 1 → ¬ validRange s s.srcAddr s.srcLen.toNat →
      exec .sm3Hash s = .next (errored s .busError)) ∧
    (8 * s.srcLen.toNat ≤ 2 ^ 64 - 1 → validRange s s.srcAddr s.srcLen.toNat →
      exec .sm3Hash s = .next { succeeded s with digest := deser (sm3 (srcBytes s)) })

/-- R108. -/
def Obligations.Sm3Pad_Outcome : Prop :=
  ∀ s : State, undisturbed .sm3Pad s →
    let l := s.arg0.toNat
    let p := padLen l
    (l % 8 ≠ 0 → exec .sm3Pad s = .next (errored s .badArg)) ∧
    (l % 8 = 0 → l + 8 * p > 2 ^ 64 - 1 → exec .sm3Pad s = .next (errored s .lengthOverflow)) ∧
    (l % 8 = 0 → l + 8 * p ≤ 2 ^ 64 - 1 → p > s.dstLen.toNat →
      exec .sm3Pad s = .next (errored s .dstTooSmall)) ∧
    (l % 8 = 0 → l + 8 * p ≤ 2 ^ 64 - 1 → p ≤ s.dstLen.toNat → ¬ validRange s s.dstAddr p →
      exec .sm3Pad s = .next (errored s .busError)) ∧
    (l % 8 = 0 → l + 8 * p ≤ 2 ^ 64 - 1 → p ≤ s.dstLen.toNat → validRange s s.dstAddr p →
      exec .sm3Pad s = .next
        { succeeded (memWrite s s.dstAddr.toNat (pad l)) with
          result0 := BitVec.ofNat 64 p
          result1 := BitVec.ofNat 64 (l + 8 * p) })

/-- R111. -/
def Obligations.LeExtend_Outcome : Prop :=
  ∀ s : State, undisturbed .leExtend s →
    let l := s.arg0.toNat
    let p := padLen l
    let t := l + 8 * p + 8 * s.srcLen.toNat
    (l % 8 ≠ 0 → exec .leExtend s = .next (errored s .badArg)) ∧
    (l % 8 = 0 → t > 2 ^ 64 - 1 → exec .leExtend s = .next (errored s .lengthOverflow)) ∧
    (l % 8 = 0 → t ≤ 2 ^ 64 - 1 → p > s.dstLen.toNat → exec .leExtend s = .next (errored s .dstTooSmall)) ∧
    (l % 8 = 0 → t ≤ 2 ^ 64 - 1 → p ≤ s.dstLen.toNat →
      ¬ (validRange s s.srcAddr s.srcLen.toNat ∧ validRange s s.dstAddr p) →
        exec .leExtend s = .next (errored s .busError)) ∧
    (l % 8 = 0 → t ≤ 2 ^ 64 - 1 → p ≤ s.dstLen.toNat → validRange s s.srcAddr s.srcLen.toNat →
      validRange s s.dstAddr p →
        exec .leExtend s = .next
          { succeeded (memWrite s s.dstAddr.toNat (pad l)) with
            digest := chain s.stateIn (srcBytes s ++ pad t)
            result0 := BitVec.ofNat 64 p
            result1 := BitVec.ofNat 64 t })

/-- R131. -/
def Obligations.MtLeaf_Outcome : Prop :=
  ∀ s : State, undisturbed .mtLeaf s →
    (8 * (s.srcLen.toNat + 1) > 2 ^ 64 - 1 → exec .mtLeaf s = .next (errored s .lengthOverflow)) ∧
    (8 * (s.srcLen.toNat + 1) ≤ 2 ^ 64 - 1 → ¬ validRange s s.srcAddr s.srcLen.toNat →
      exec .mtLeaf s = .next (errored s .busError)) ∧
    (8 * (s.srcLen.toNat + 1) ≤ 2 ^ 64 - 1 → validRange s s.srcAddr s.srcLen.toNat →
      exec .mtLeaf s = .next { succeeded s with digest := deser (sm3 (0x00 :: srcBytes s)) })

/-- R132. -/
def Obligations.MtNode_Outcome : Prop :=
  ∀ s : State, undisturbed .mtNode s →
    (¬ (validRange s s.srcAddr 32 ∧ validRange s s.auxAddr 32) →
      exec .mtNode s = .next (errored s .busError)) ∧
    (validRange s s.srcAddr 32 → validRange s s.auxAddr 32 →
      exec .mtNode s = .next
        { succeeded s with
          digest := deser (sm3 (0x01 :: (Memory.read s.mem s.srcAddr.toNat 32
            ++ Memory.read s.mem s.auxAddr.toNat 32))) })

/-- R133. Leaf `i` passes when `leafOk` holds; the first leaf that does not pass decides the error. -/
def Obligations.MtBuild_Outcome : Prop :=
  ∀ s : State, undisturbed .mtBuild s →
    let n := s.arg0.toNat
    let table := s.srcAddr.toNat
    let leaves := leavesOf s table n
    (n > s.params.maxLeaves → exec .mtBuild s = .next (errored s .capacity)) ∧
    (n ≤ s.params.maxLeaves → 32 * n > s.dstLen.toNat → exec .mtBuild s = .next (errored s .dstTooSmall)) ∧
    (n ≤ s.params.maxLeaves → 32 * n ≤ s.dstLen.toNat →
      ¬ (validRange s s.dstAddr (32 * n) ∧ validRange s s.srcAddr (16 * n)) →
        exec .mtBuild s = .next (errored s .busError)) ∧
    (n ≤ s.params.maxLeaves → 32 * n ≤ s.dstLen.toNat → validRange s s.dstAddr (32 * n) →
      validRange s s.srcAddr (16 * n) →
        (∀ f, f < n → (∀ i, i < f → leafOk s table i) → ¬ leafOk s table f →
          exec .mtBuild s = .next (errored s
            (if 8 * (descLen (descriptor s table f) + 1) > 2 ^ 64 - 1 then .lengthOverflow else .busError))) ∧
        ((∀ i, i < n → leafOk s table i) →
          exec .mtBuild s = .next
            { succeeded (memWrite s s.dstAddr.toNat (leaves.map leafHash).flatten) with
              root := deser (mth (leaves.map leafHash))
              treeN := s.arg0
              treeDesc := s.srcAddr
              treeLda := s.dstAddr
              treeSealed := true
              treeSorted := sortedLeaves leaves
              treeTouched := false
              result0 := BitVec.ofNat 64 (32 * n) }))

/-- R134. -/
def Obligations.MtInclProof_Outcome : Prop :=
  ∀ s : State, undisturbed .mtInclProof s →
    let n := s.treeN.toNat
    let i := s.arg0.toNat
    let m := depth i n
    (s.treeSealed = false → exec .mtInclProof s = .next (errored s .badState)) ∧
    (s.treeSealed = true → n = 0 → exec .mtInclProof s = .next (errored s .emptyTree)) ∧
    (s.treeSealed = true → n ≠ 0 → i ≥ n → exec .mtInclProof s = .next (errored s .invalidIndex)) ∧
    (s.treeSealed = true → i < n → 33 * m > s.dstLen.toNat →
      exec .mtInclProof s = .next (errored s .dstTooSmall)) ∧
    (s.treeSealed = true → i < n → 33 * m ≤ s.dstLen.toNat →
      ¬ (validRange s s.dstAddr (33 * m) ∧ validRange s s.treeLda (32 * n)) →
        exec .mtInclProof s = .next (errored s .busError)) ∧
    (s.treeSealed = true → i < n → 33 * m ≤ s.dstLen.toNat → validRange s s.dstAddr (33 * m) →
      validRange s s.treeLda (32 * n) →
        exec .mtInclProof s = .next
          { succeeded (memWrite s s.dstAddr.toNat (encPath (path i (treeDigests s)))) with
            result0 := BitVec.ofNat 64 m
            result1 := BitVec.ofNat 64 (33 * m) })

/-- R135. -/
def Obligations.MtVerifyIncl_Outcome : Prop :=
  ∀ s : State, undisturbed .mtVerifyIncl s →
    let n := s.arg1.toNat
    let i := s.arg0.toNat
    let b := s.auxLen.toNat
    let c := b / 33
    let ok := decide (fold (srcBytes s) (proofOf (auxBytes s) c) = ser s.stateIn)
    (n = 0 → exec .mtVerifyIncl s = .next (errored s .emptyTree)) ∧
    (n ≠ 0 → i ≥ n → exec .mtVerifyIncl s = .next (errored s .invalidIndex)) ∧
    (i < n → b ≠ 33 * depth i n → exec .mtVerifyIncl s = .next (errored s .malformedProof)) ∧
    (i < n → b = 33 * depth i n → 8 * (s.srcLen.toNat + 1) > 2 ^ 64 - 1 →
      exec .mtVerifyIncl s = .next (errored s .lengthOverflow)) ∧
    (i < n → b = 33 * depth i n → 8 * (s.srcLen.toNat + 1) ≤ 2 ^ 64 - 1 →
      ¬ (validRange s s.srcAddr s.srcLen.toNat ∧ validRange s s.auxAddr b) →
        exec .mtVerifyIncl s = .next (errored s .busError)) ∧
    (i < n → b = 33 * depth i n → 8 * (s.srcLen.toNat + 1) ≤ 2 ^ 64 - 1 →
      validRange s s.srcAddr s.srcLen.toNat → validRange s s.auxAddr b →
        (proofFlags (auxBytes s) c ≠ expFlagBytes i n →
          exec .mtVerifyIncl s = .next (errored s .malformedProof)) ∧
        (proofFlags (auxBytes s) c = expFlagBytes i n →
          exec .mtVerifyIncl s = .next
            { succeeded s with verdict := ok, result0 := if ok then 1 else 0 }))

/-- R136. `p` is pos(y); the record has the neighbours R130 names. Over leaves that are not sorted, where R130 gives no
pos(y), it is the count of lower leaves: the model's choice (log 22). -/
def Obligations.MtNoninclProof_Outcome : Prop :=
  ∀ s : State, undisturbed .mtNoninclProof s →
    let n := s.treeN.toNat
    let table := s.treeDesc.toNat
    let leaves := leavesOf s table n
    let y := srcBytes s
    let p := keyPos leaves y
    let block := fun j => encNeighbour j (leafOf s table j) (path j (treeDigests s))
    let kind : Nat := if p = 0 then 1 else if p = n then 2 else 0
    let record : Bytes := BitVec.ofNat 8 kind ::
      (if p = 0 then block 0 else if p = n then block (n - 1) else block (p - 1) ++ block p)
    (s.treeSealed = false → exec .mtNoninclProof s = .next (errored s .badState)) ∧
    (s.treeSealed = true → n = 0 → exec .mtNoninclProof s = .next (errored s .emptyTree)) ∧
    (s.treeSealed = true → n ≠ 0 → s.treeSorted = false →
      exec .mtNoninclProof s = .next (errored s .notSorted)) ∧
    (s.treeSealed = true → n ≠ 0 → s.treeSorted = true →
      (¬ (validRange s s.srcAddr s.srcLen.toNat ∧ validRange s s.treeDesc (16 * n)) →
        exec .mtNoninclProof s = .next (errored s .busError)) ∧
      (validRange s s.srcAddr s.srcLen.toNat → validRange s s.treeDesc (16 * n) →
        (∀ f, f < n → (∀ i, i < f → leafOk s table i) → ¬ leafOk s table f →
          exec .mtNoninclProof s = .next (errored s
            (if 8 * (descLen (descriptor s table f) + 1) > 2 ^ 64 - 1 then .lengthOverflow else .busError))) ∧
        ((∀ i, i < n → leafOk s table i) →
          (¬ validRange s s.treeLda (32 * n) → exec .mtNoninclProof s = .next (errored s .busError)) ∧
          (validRange s s.treeLda (32 * n) →
            (p < n ∧ leafOf s table p = y → exec .mtNoninclProof s = .next (errored s .keyPresent)) ∧
            (¬ (p < n ∧ leafOf s table p = y) →
              (record.length > s.dstLen.toNat → exec .mtNoninclProof s = .next (errored s .dstTooSmall)) ∧
              (record.length ≤ s.dstLen.toNat → ¬ validRange s s.dstAddr record.length →
                exec .mtNoninclProof s = .next (errored s .busError)) ∧
              (record.length ≤ s.dstLen.toNat → validRange s s.dstAddr record.length →
                exec .mtNoninclProof s = .next
                  { succeeded (memWrite s s.dstAddr.toNat record) with
                    result0 := BitVec.ofNat 64 record.length
                    result1 := BitVec.ofNat 64 kind }))))))

/-- R137. The record's blocks are those ParseNIR gives; a block passes when `Neighbour.ok` holds, and the first that
does not pass decides the error. -/
def Obligations.MtVerifyNonincl_Outcome : Prop :=
  ∀ s : State, undisturbed .mtVerifyNonincl s →
    let n := s.arg1.toNat
    let y := srcBytes s
    let root := ser s.stateIn
    (n = 0 → exec .mtVerifyNonincl s = .next (errored s .emptyTree)) ∧
    (n ≠ 0 → ¬ (validRange s s.srcAddr s.srcLen.toNat ∧ validRange s s.auxAddr s.auxLen.toNat) →
      exec .mtVerifyNonincl s = .next (errored s .busError)) ∧
    (n ≠ 0 → validRange s s.srcAddr s.srcLen.toNat → validRange s s.auxAddr s.auxLen.toNat →
      (parseNir (auxBytes s) = .error .malformedProof →
        exec .mtVerifyNonincl s = .next (errored s .malformedProof)) ∧
      (∀ (kind : NirKind) (pre post : List Neighbour) (b : Neighbour),
        parseNir (auxBytes s) = .ok (kind, pre ++ b :: post) → (∀ a ∈ pre, Neighbour.ok n a) → ¬ Neighbour.ok n b →
          exec .mtVerifyNonincl s = .next (errored s
            (if b.index ≥ n then .invalidIndex
              else if b.count ≠ depth b.index n then .malformedProof
              else if 8 * (b.leaf.length + 1) > 2 ^ 64 - 1 then .lengthOverflow
              else .malformedProof))) ∧
      (∀ b, parseNir (auxBytes s) = .ok (.beforeFirst, [b]) → Neighbour.ok n b →
        (b.index ≠ 0 → exec .mtVerifyNonincl s = .next (errored s .malformedProof)) ∧
        (b.index = 0 → ∀ ok : Bool, (ok = true ↔ Neighbour.folds root b ∧ lexLt y b.leaf = true) →
          exec .mtVerifyNonincl s = .next
            { succeeded s with verdict := ok, result0 := if ok then 1 else 0 })) ∧
      (∀ b, parseNir (auxBytes s) = .ok (.afterLast, [b]) → Neighbour.ok n b →
        (b.index ≠ n - 1 → exec .mtVerifyNonincl s = .next (errored s .malformedProof)) ∧
        (b.index = n - 1 → ∀ ok : Bool, (ok = true ↔ Neighbour.folds root b ∧ lexLt b.leaf y = true) →
          exec .mtVerifyNonincl s = .next
            { succeeded s with verdict := ok, result0 := if ok then 1 else 0 })) ∧
      (∀ a b, parseNir (auxBytes s) = .ok (.bracket, [a, b]) → Neighbour.ok n a → Neighbour.ok n b →
        (b.index ≠ a.index + 1 → exec .mtVerifyNonincl s = .next (errored s .malformedProof)) ∧
        (b.index = a.index + 1 → ∀ ok : Bool,
          (ok = true ↔ Neighbour.folds root a ∧ Neighbour.folds root b ∧ lexLt a.leaf y = true ∧
            lexLt y b.leaf = true) →
          exec .mtVerifyNonincl s = .next
            { succeeded s with verdict := ok, result0 := if ok then 1 else 0 })))

/-- R79, R80: ParseNIR accepts exactly the byte strings laid out as a record of one or two blocks, gives back what was
laid out, and raises MalformedProof on every other. -/
def Obligations.ParseNir_AcceptsRecordLayout : Prop :=
  (∀ (r : Bytes) (kind : NirKind) (blocks : List Neighbour),
    parseNir r = .ok (kind, blocks) ↔
      r = kind.byte :: blocks.flatMap Neighbour.bytes ∧ (∀ b ∈ blocks, Neighbour.fits b) ∧
        blocks.length = (if kind = .bracket then 2 else 1)) ∧
  (∀ (r : Bytes) (e : Err), parseNir r = .error e → e = .malformedProof) ∧
  NirKind.byte .bracket = 0x00 ∧ NirKind.byte .beforeFirst = 0x01 ∧ NirKind.byte .afterLast = 0x02

/-! ### Frames -/

/-- R30: no command, whatever its outcome, changes an argument register, IRQ_ENABLE, LAST_OP, the parameters, or what the
host's last accesses returned and the turns to come. -/
def Obligations.ArgumentRegisters_NeverWritten : Prop :=
  ∀ (i : Instr) (s t : State), exec i s = .next t →
    (t.srcAddr = s.srcAddr ∧ t.srcLen = s.srcLen ∧ t.auxAddr = s.auxAddr ∧ t.auxLen = s.auxLen ∧
      t.dstAddr = s.dstAddr ∧ t.dstLen = s.dstLen ∧ t.arg0 = s.arg0 ∧ t.arg1 = s.arg1 ∧
      t.bitcntIn = s.bitcntIn ∧ t.stateIn = s.stateIn ∧ t.blk = s.blk) ∧
    t.irqEnable = s.irqEnable ∧ t.lastOp = s.lastOp ∧ t.params = s.params ∧ t.rdata = s.rdata ∧
    t.mdata = s.mdata ∧ t.inputs = s.inputs

/-- R31, R74 (column "writes on success"), R39: a result register is changed by the commands that name it alone,
whatever the outcome, drawn outcomes included; only MT_BUILD changes the tree registers. -/
def Obligations.ResultRegisters_WrittenOnlyByTheirCommands : Prop :=
  ∀ (i : Instr) (s t : State), exec i s = .next t →
    (i ∉ [Instr.sm3Init, .sm3Inject, .sm3Update, .sm3Compress, .sm3Final] → t.v = s.v) ∧
    (i ∉ [Instr.sm3Init, .sm3Inject, .sm3Update, .sm3Compress] → t.bitcnt = s.bitcnt) ∧
    (i ∉ [Instr.sm3Init, .sm3Inject, .sm3Update, .sm3Final] → t.buf = s.buf ∧ t.bufFill = s.bufFill) ∧
    (i ∉ [Instr.sm3Init, .sm3Inject, .sm3Final] → t.ctxState = s.ctxState) ∧
    (i ∉ [Instr.sm3Final, .sm3Hash, .leExtend, .mtLeaf, .mtNode] → t.digest = s.digest) ∧
    (i ≠ .mtBuild → t.root = s.root ∧ t.treeSealed = s.treeSealed ∧ t.treeSorted = s.treeSorted ∧
      t.treeN = s.treeN ∧ t.treeDesc = s.treeDesc ∧ t.treeLda = s.treeLda) ∧
    (i ∉ [Instr.sm3Pad, .leExtend, .mtBuild, .mtInclProof, .mtVerifyIncl, .mtNoninclProof, .mtVerifyNonincl] →
      t.result0 = s.result0) ∧
    (i ∉ [Instr.sm3Pad, .leExtend, .mtInclProof, .mtNoninclProof] → t.result1 = s.result1) ∧
    (i ∉ [Instr.mtVerifyIncl, .mtVerifyNonincl] → t.verdict = s.verdict)

/-- R47, R74: a command that stores writes no byte outside the bytes its rule gives, from DST_ADDR up, and none outside
DST_LEN; every other command leaves memory as it is. Drawn outcomes are included; that a drawn record, or a drawn proof of
an index outside the tree, stays inside DST_LEN is the model's choice (logs 10 and 21). -/
def Obligations.Stores_StayInDestination : Prop :=
  ∀ (i : Instr) (s t : State), exec i s = .next t →
    (i ∉ storingCommands → t.mem = s.mem) ∧
    (Memory.wf s.mem = true → ∀ x : Nat,
      (x < s.dstAddr.toNat ∨ s.dstAddr.toNat + min (storeBound i s) s.dstLen.toNat ≤ x) →
        Memory.get t.mem x = Memory.get s.mem x)

/-- R74, R116: an argument register a command does not list is not read by it; its value does not matter. In
particular no value of STATE_IN or BITCNT_IN changes what SM3_INIT, SM3_HASH, MT_LEAF, MT_NODE and MT_BUILD do. -/
def Obligations.UnreadRegisters_DoNotMatter : Prop :=
  ∀ (i : Instr) (u s : State), exec i (withUnread i u s) = mapNext (withUnread i u) (exec i s)

/-- R74, R107, R111, R131, R132, R135, R137: outside the streaming commands the context is neither read nor written, and
no command that stores nothing reads or writes the sealed tree. -/
def Obligations.OneShotCommands_IgnoreContextAndTree : Prop :=
  (∀ (i : Instr) (u s : State), i ∉ contextCommands →
    exec i (withContext u s) = mapNext (withContext u) (exec i s)) ∧
  (∀ (i : Instr) (u s : State), i ∉ storingCommands →
    exec i (withTree u s) = mapNext (withTree u) (exec i s))

/-! ### Memory -/

/-- R16, R49: after MemWrite the byte at `a + k` is byte `k` of the value, every other byte is unchanged, and the model's
canonical form is kept; two canonical memories that read alike are equal data (log 5). -/
def Obligations.MemWrite_ReadsBack : Prop :=
  (∀ (m : List Host.Cell) (a : Nat) (bytes : Bytes), Memory.wf m = true →
    Memory.wf (Memory.write m a bytes) = true ∧
    ∀ x : Nat, Memory.get (Memory.write m a bytes) x
      = if a ≤ x ∧ x < a + bytes.length then bytes.getD (x - a) 0 else Memory.get m x) ∧
  (∀ m m' : List Host.Cell, Memory.wf m = true → Memory.wf m' = true →
    (∀ x, Memory.get m x = Memory.get m' x) → m = m')

/-! ### Broken duties -/

/-- R62, R64: where the host broke its duty, or the tree memory of the sealed tree was written since the build, the
outcome is a draw: one of the errors the command can raise with nothing else changed, or a success in which every result
register the command writes, and every byte it stores, is a draw of its own, but that BITCNT and BUF_FILL keep R35 (a).
Which accesses count, that a drawn error changes nothing else, what BITCNT leaves free and how many bytes are stored are
the model's choice (logs 7, 8, 9, 10 and 21). -/
def Obligations.BrokenDuty_OutcomeIsDrawn : Prop :=
  ∀ (i : Instr) (s : State),
    (hostBreach s (checkOf i s) = true ∨
      ((i = .mtInclProof ∨ i = .mtNoninclProof) ∧ s.treeSealed = true ∧ s.treeTouched = true)) →
    let d := s.draws
    (∃ e ∈ raises i, exec i s = .next { errored s e with draws := d + 1 }) ∨
    (∃ (t : State) (stored : Nat), exec i s = .next t ∧ t.errFlag = s.errFlag ∧ t.draws = d + 1 ∧
      (i = .sm3Update → t.v = Config.freeWords8 d 0 ∧ t.bufFill = BitVec.ofNat 6 (Config.free d 35) ∧
        t.bitcnt = BitVec.ofNat 64 (512 * Config.free d 26 + 8 * t.bufFill.toNat) ∧
        t.buf.toList = Config.freeBytes d 64 64) ∧
      (i ∈ [Instr.sm3Hash, .leExtend, .mtLeaf, .mtNode] → t.digest = Config.freeWords8 d 8) ∧
      (i = .mtBuild → t.root = Config.freeWords8 d 16 ∧ t.treeN = Config.freeU64 d 29 ∧
        t.treeDesc = Config.freeU64 d 30 ∧ t.treeLda = Config.freeU64 d 31 ∧ t.treeSealed = Config.freeBit d 27 ∧
        t.treeSorted = Config.freeBit d 28) ∧
      (i ∈ [Instr.sm3Pad, .leExtend, .mtBuild, .mtInclProof, .mtVerifyIncl, .mtNoninclProof, .mtVerifyNonincl] →
        t.result0 = Config.freeU64 d 24) ∧
      (i ∈ [Instr.sm3Pad, .leExtend, .mtInclProof, .mtNoninclProof] → t.result1 = Config.freeU64 d 25) ∧
      (i ∈ [Instr.mtVerifyIncl, .mtVerifyNonincl] → t.verdict = Config.freeBit d 32) ∧
      t.mem = Memory.write s.mem s.dstAddr.toNat
        (Config.freeBytes d 128 (min stored (min s.dstLen.toNat (s.params.memBytes - s.dstAddr.toNat)))) ∧
      (i ∈ [Instr.sm3Pad, .leExtend] → stored = padLen s.arg0.toNat) ∧
      (i = .mtBuild → stored = 32 * s.arg0.toNat) ∧
      (i = .mtInclProof → s.arg0.toNat < s.treeN.toNat → stored = 33 * depth s.arg0.toNat s.treeN.toNat) ∧
      (i = .mtInclProof → s.arg0.toNat ≥ s.treeN.toNat → stored = Config.free d 33) ∧
      (i = .mtNoninclProof → stored = Config.free d 33) ∧
      (i ∉ storingCommands → stored = 0))

/-- R63: a storing command whose checks pass and whose write range meets bytes it reads succeeds; the bytes and the result
registers it writes are draws, and nothing else changes. SM3_PAD reads no memory. That TREE_STATUS is among the drawn
registers of MT_BUILD, and pos(y) among unsorted leaves, are the model's choice (logs 9 and 22). -/
def Obligations.SelfOverlap_ResultsAreDrawn : Prop :=
  ∀ s : State,
    let d := s.draws
    let table := s.srcAddr.toNat
    let leafRead := fun (w : Range) (base j : Nat) =>
      Range.meets ⟨base + 16 * j, 16⟩ w = true ∨
        Range.meets ⟨descAddr (descriptor s base j), descLen (descriptor s base j)⟩ w = true
    (hostBreach s (checkOf .leExtend s) = false →
      let l := s.arg0.toNat
      let p := padLen l
      l % 8 = 0 → l + 8 * p + 8 * s.srcLen.toNat ≤ 2 ^ 64 - 1 → p ≤ s.dstLen.toNat →
      validRange s s.srcAddr s.srcLen.toNat → validRange s s.dstAddr p →
      Range.meets ⟨s.srcAddr.toNat, s.srcLen.toNat⟩ ⟨s.dstAddr.toNat, p⟩ = true →
        exec .leExtend s = .next
          { succeeded (memWrite s s.dstAddr.toNat (Config.freeBytes d 128 p)) with
            digest := Config.freeWords8 d 8
            result0 := Config.freeU64 d 24
            result1 := Config.freeU64 d 25
            draws := d + 1 }) ∧
    (hostBreach s (checkOf .mtBuild s) = false →
      let n := s.arg0.toNat
      n ≤ s.params.maxLeaves → 32 * n ≤ s.dstLen.toNat → validRange s s.dstAddr (32 * n) →
      validRange s s.srcAddr (16 * n) → (∀ i, i < n → leafOk s table i) →
      (∃ j < n, leafRead ⟨s.dstAddr.toNat, 32 * n⟩ table j) →
        exec .mtBuild s = .next
          { succeeded (memWrite s s.dstAddr.toNat (Config.freeBytes d 128 (32 * n))) with
            root := Config.freeWords8 d 16
            treeN := Config.freeU64 d 29
            treeDesc := Config.freeU64 d 30
            treeLda := Config.freeU64 d 31
            treeSealed := Config.freeBit d 27
            treeSorted := Config.freeBit d 28
            treeTouched := false
            result0 := Config.freeU64 d 24
            draws := d + 1 }) ∧
    (hostBreach s (checkOf .mtInclProof s) = false → s.treeTouched = false → s.treeSealed = true →
      let n := s.treeN.toNat
      let b := 33 * depth s.arg0.toNat n
      s.arg0.toNat < n → b ≤ s.dstLen.toNat → validRange s s.dstAddr b → validRange s s.treeLda (32 * n) →
      Range.meets ⟨s.treeLda.toNat, 32 * n⟩ ⟨s.dstAddr.toNat, b⟩ = true →
        exec .mtInclProof s = .next
          { succeeded (memWrite s s.dstAddr.toNat (Config.freeBytes d 128 b)) with
            result0 := Config.freeU64 d 24
            result1 := Config.freeU64 d 25
            draws := d + 1 }) ∧
    (hostBreach s (checkOf .mtNoninclProof s) = false → s.treeTouched = false → s.treeSealed = true →
      let n := s.treeN.toNat
      let p := keyPosition s
      let w : Range := ⟨s.dstAddr.toNat, (recordOf s).length⟩
      n ≠ 0 → s.treeSorted = true → validRange s s.srcAddr s.srcLen.toNat → validRange s s.treeDesc (16 * n) →
      (∀ i, i < n → leafOk s s.treeDesc.toNat i) → validRange s s.treeLda (32 * n) →
      ¬ (p < n ∧ leafOf s s.treeDesc.toNat p = srcBytes s) → (recordOf s).length ≤ s.dstLen.toNat →
      validRange s s.dstAddr (recordOf s).length →
      (Range.meets ⟨s.srcAddr.toNat, s.srcLen.toNat⟩ w = true ∨ (∃ j < n, leafRead w s.treeDesc.toNat j) ∨
        Range.meets ⟨s.treeLda.toNat, 32 * n⟩ w = true) →
        exec .mtNoninclProof s = .next
          { succeeded (memWrite s s.dstAddr.toNat (Config.freeBytes d 128 (recordOf s).length)) with
            result0 := Config.freeU64 d 24
            result1 := Config.freeU64 d 25
            draws := d + 1 })

/-- R64: a write that meets the tree memory of the sealed tree, by the host or by a command's write phase, is remembered;
every command but MT_BUILD and every host turn but a reset keep that memory, and a successful MT_BUILD starts anew. The
mark is the model's own state (log 10). `resolve` gives the write phase a command completes with, a drawn one included. -/
def Obligations.TreeMemory_TouchedUntilNextBuild : Prop :=
  (∀ (s : State) (a : Nat) (bytes : Bytes),
    (∃ r ∈ treeMemory s, r.meets ⟨a, bytes.length⟩ = true) → (hostMemWrite s a bytes).treeTouched = true) ∧
  (∀ (i : Instr) (s t : State) (e : Effect), i ≠ .mtBuild → (resolve i s (checkOf i s)).1 = .ok e →
    (∃ r ∈ treeMemory s, r.meets ⟨e.addr, e.bytes.length⟩ = true) → exec i s = .next t →
      t.treeTouched = true ∧ t.mem = Memory.write s.mem e.addr e.bytes) ∧
  (∀ (i : Instr) (s t : State), i ≠ .mtBuild → s.treeTouched = true → exec i s = .next t → t.treeTouched = true) ∧
  (∀ (s t : State) (x : Input) (rest : List Input), s.treeTouched = true → x ≠ .engine → x ≠ .hardReset →
    (∀ w : Word, w.getLsbD 0 = true → x ≠ .regWrite 0x008 4 w) → step { s with inputs := x :: rest } = .next t →
      t.treeTouched = true) ∧
  (∀ s t : State, s.errFlag = false → exec .mtBuild s = .next t → t.errFlag = false → t.treeTouched = false)

/-! ### The register block -/

/-- R24: the register map; every listed offset is one register's and every other offset no register's. -/
def Obligations.RegisterMap_IsExact : Prop :=
  (∀ r : Reg, Reg.ofOffset r.offset = some r) ∧
  (∀ (o : Nat) (r : Reg), Reg.ofOffset o = some r → o = r.offset) ∧
  (∀ i : Fin 8, Reg.offset (.stateIn i) = 0x080 + 4 * i.val ∧ Reg.offset (.v i) = 0x0A0 + 4 * i.val ∧
    Reg.offset (.digest i) = 0x0C0 + 4 * i.val ∧ Reg.offset (.root i) = 0x0E0 + 4 * i.val) ∧
  (∀ i : Fin 16, Reg.offset (.blk i) = 0x100 + 4 * i.val) ∧
  (Reg.offset .id = 0x000 ∧ Reg.offset .version = 0x004 ∧ Reg.offset .ctrl = 0x008 ∧ Reg.offset .status = 0x00C ∧
    Reg.offset .cmd = 0x010 ∧ Reg.offset .irqStatus = 0x014 ∧ Reg.offset .irqEnable = 0x018 ∧
    Reg.offset .ctxStatus = 0x01C ∧ Reg.offset .treeStatus = 0x140) ∧
  (∀ p : Pair, Reg.offset (.hi p) = Reg.offset (.lo p) + 4) ∧
  (Pair.offset .srcAddr = 0x020 ∧ Pair.offset .srcLen = 0x028 ∧ Pair.offset .auxAddr = 0x030 ∧
    Pair.offset .auxLen = 0x038 ∧ Pair.offset .dstAddr = 0x040 ∧ Pair.offset .dstLen = 0x048 ∧
    Pair.offset .arg0 = 0x050 ∧ Pair.offset .arg1 = 0x058 ∧ Pair.offset .result0 = 0x060 ∧
    Pair.offset .result1 = 0x068 ∧ Pair.offset .bitcnt = 0x070 ∧ Pair.offset .bitcntIn = 0x078 ∧
    Pair.offset .treeN = 0x148 ∧ Pair.offset .treeDesc = 0x150 ∧ Pair.offset .treeLda = 0x158)

/-- R25, R26, R30: an idle engine's argument register holds what the host wrote, half by half, and the write changes no
other register and no memory byte. -/
def Obligations.ArgumentRegister_WriteReadsBack : Prop :=
  ∀ (s : State) (r : Reg) (w : Word), s.busy = false →
    ((∃ p, Pair.isResult p = false ∧ (r = .lo p ∨ r = .hi p)) ∨ (∃ k, r = .stateIn k) ∨ ∃ k, r = .blk k) →
    let t := hostWrite s (BitVec.ofNat 12 r.offset) 4 w
    regValue t r = w ∧ (∀ r', r' ≠ r → regValue t r' = regValue s r') ∧
    t.mem = s.mem ∧ t.buf = s.buf ∧ t.inflight = s.inflight ∧ t.params = s.params

/-- R25: a write of a read-only register is ignored; CTRL and CMD read 0; writing 0 to CTRL bit 0 does nothing. -/
def Obligations.ReadOnlyRegisters_IgnoreWrites : Prop :=
  ∀ (s : State) (w : Word),
    (∀ r : Reg, ((∃ k, r = .v k ∨ r = .digest k ∨ r = .root k) ∨
        (∃ p, Pair.isResult p = true ∧ (r = .lo p ∨ r = .hi p)) ∨
        r ∈ [Reg.id, .version, .status, .ctxStatus, .treeStatus]) →
      hostWrite s (BitVec.ofNat 12 r.offset) 4 w = s) ∧
    regValue s .ctrl = 0 ∧ regValue s .cmd = 0 ∧ regValue s .id = 0x534D3300 ∧ regValue s .version = 0x00000001 ∧
    (w.getLsbD 0 = false → hostWrite s 0x008 4 w = s)

/-- R24, R29: a reserved offset reads 0 and ignores writes; an access of another width or alignment has no effect as a
write, and as a read returns a draw. -/
def Obligations.OutsideTheMap_ReadsAndWrites : Prop :=
  ∀ (s : State) (off : BitVec 12) (w : Word),
    (off.toNat % 4 = 0 → (∀ r : Reg, off.toNat ≠ r.offset) →
      hostWrite s off 4 w = s ∧ hostRead s off 4 = { s with rdata := some 0 }) ∧
    (∀ width : Nat, (width ≠ 4 ∨ off.toNat % 4 ≠ 0) →
      hostWrite s off width w = s ∧
      hostRead s off width = { s with rdata := some (Config.freeWord s.draws 0), draws := s.draws + 1 })

/-- R27: what a host read returns: while busy, a draw for the result registers; otherwise the register's value; and the
fields of STATUS while busy. -/
def Obligations.HostRead_WhileBusyAndIdle : Prop :=
  ∀ (s : State) (r : Reg),
    let result := (∃ k, r = .v k ∨ r = .digest k ∨ r = .root k) ∨
      (∃ p ∈ [Pair.result0, .result1, .bitcnt, .treeN, .treeDesc, .treeLda], r = .lo p ∨ r = .hi p) ∨
      r = .ctxStatus ∨ r = .treeStatus
    (s.busy = true → result → hostRead s (BitVec.ofNat 12 r.offset) 4
      = { s with rdata := some (Config.freeWord s.draws 0), draws := s.draws + 1 }) ∧
    (s.busy = false ∨ ¬ result → hostRead s (BitVec.ofNat 12 r.offset) 4 = { s with rdata := some (regValue s r) }) ∧
    (s.busy = true → regValue s .status = BitVec.ofNat 32 (s.lastOp.toNat * 2 ^ 16 + 1))

/-- R15, R24, R26, R34, R36, R37, R38, R40: the fields of the status registers of an idle engine, and CTX_STATUS,
TREE_STATUS, IRQ_STATUS and IRQ_ENABLE; the value a pair of registers stands for, which is what a command reads and
writes, LO below HI; and each word of the array registers. -/
def Obligations.StatusRegisters_Fields : Prop :=
  ∀ s : State,
    let pairIs := fun (p : Pair) (x : U64) =>
      x.toNat = (regValue s (.hi p)).toNat * 2 ^ 32 + (regValue s (.lo p)).toNat
    let wordsAre := fun (r : Fin 8 → Reg) (x : Words8) =>
      x = ⟨regValue s (r 0), regValue s (r 1), regValue s (r 2), regValue s (r 3), regValue s (r 4), regValue s (r 5),
        regValue s (r 6), regValue s (r 7)⟩
    (s.busy = false → (regValue s .status).toNat
      = 2 * s.errFlag.toNat + 4 * s.verdict.toNat + 2 ^ 8 * s.errcode.toNat + 2 ^ 16 * s.lastOp.toNat) ∧
    (regValue s .ctxStatus).toNat
      = (match s.ctxState with | .idle => 0 | .active => 1 | .finalized => 2) + 2 ^ 8 * s.bufFill.toNat ∧
    (regValue s .treeStatus).toNat = s.treeSealed.toNat + 2 * s.treeSorted.toNat ∧
    (regValue s .irqStatus).toNat = s.irqStatus.toNat ∧ (regValue s .irqEnable).toNat = s.irqEnable.toNat ∧
    (pairIs .srcAddr s.srcAddr ∧ pairIs .srcLen s.srcLen ∧ pairIs .auxAddr s.auxAddr ∧ pairIs .auxLen s.auxLen ∧
      pairIs .dstAddr s.dstAddr ∧ pairIs .dstLen s.dstLen ∧ pairIs .arg0 s.arg0 ∧ pairIs .arg1 s.arg1 ∧
      pairIs .bitcntIn s.bitcntIn) ∧
    (pairIs .result0 s.result0 ∧ pairIs .result1 s.result1 ∧ pairIs .bitcnt s.bitcnt ∧ pairIs .treeN s.treeN ∧
      pairIs .treeDesc s.treeDesc ∧ pairIs .treeLda s.treeLda) ∧
    (wordsAre .stateIn s.stateIn ∧ wordsAre .v s.v ∧ wordsAre .digest s.digest ∧ wordsAre .root s.root) ∧
    ∀ k : Fin 16, regValue s (.blk k) = s.blk[k]

/-- R28: while busy a host write acts on CTRL, IRQ_STATUS and IRQ_ENABLE alone; CMD is an overrun. -/
def Obligations.BusyWrites_Ignored : Prop :=
  ∀ (s : State) (r : Reg) (w : Word), s.busy = true →
    (r ∉ [Reg.ctrl, .irqStatus, .irqEnable, .cmd] → hostWrite s (BitVec.ofNat 12 r.offset) 4 w = s) ∧
    (hostWrite s 0x010 4 w = { s with irqStatus := s.irqStatus ||| 0b100 }) ∧
    (hostWrite s 0x014 4 w = { s with irqStatus := s.irqStatus &&& ~~~ (w.extractLsb' 0 3) }) ∧
    (hostWrite s 0x018 4 w = { s with irqEnable := w.extractLsb' 0 3 }) ∧
    (hostWrite s 0x008 4 w = if w.getLsbD 0 then softReset s else s)

/-- R148, R149: the interrupt line; a write of IRQ_STATUS clears exactly the bits written 1, a write of IRQ_ENABLE takes
bits [2:0], and neither changes anything else, whether the engine is idle or busy. -/
def Obligations.InterruptLine_AndClear : Prop :=
  ∀ (s : State) (w : Word),
    (irq s = true ↔ ∃ k < 3, s.irqStatus.getLsbD k = true ∧ s.irqEnable.getLsbD k = true) ∧
    (irq s = ((regValue s .irqStatus &&& regValue s .irqEnable &&& 0x7) != 0)) ∧
    (hostWrite s 0x014 4 w = { s with irqStatus := s.irqStatus &&& ~~~ (w.extractLsb' 0 3) }) ∧
    (∀ k < 3, (hostWrite s 0x014 4 w).irqStatus.getLsbD k = (s.irqStatus.getLsbD k && !w.getLsbD k)) ∧
    (hostWrite s 0x018 4 w = { s with irqEnable := w.extractLsb' 0 3 }) ∧
    (∀ k < 3, (hostWrite s 0x018 4 w).irqEnable.getLsbD k = w.getLsbD k)

/-! ### Reset -/

/-- R45, R159, R160 (a): in the reset state, after a hardware reset, and after a soft reset idle or busy, every register
reads its reset value, BUF is zero, the engine is idle and irq is 0; a hardware reset leaves memory as it was. -/
def Obligations.Reset_SetsEveryRegister : Prop :=
  ∀ s t : State,
    (t = State.reset ∨ t = hardReset s ∨ ∃ w : Word, w.getLsbD 0 = true ∧ t = hostWrite s 0x008 4 w) →
    (∀ r : Reg, regValue t r = if r = .id then 0x534D3300 else if r = .version then 0x00000001 else 0) ∧
    t.buf = Vector.replicate 64 0 ∧ t.inflight = none ∧ irq t = false ∧ t.treeSealed = false ∧
    (hardReset s).mem = s.mem ∧ (hardReset s).params = s.params

/-- R160 (b), (c): a soft reset of an idle engine leaves memory as it was; one that aborts a command leaves each byte at
its old value or at the value the command would have written. -/
def Obligations.SoftReset_AbortsTheCommand : Prop :=
  ∀ (s : State) (w : Word), w.getLsbD 0 = true → Memory.wf s.mem = true →
    (s.inflight = none → (hostWrite s 0x008 4 w).mem = s.mem) ∧
    (∀ c, s.inflight = some c → (∀ i, decode c ≠ .ok i) → (hostWrite s 0x008 4 w).mem = s.mem) ∧
    (∀ (c : Word) (i : Instr) (u : State), s.inflight = some c → decode c = .ok i → exec i s = .next u →
      (hostWrite s 0x008 4 w).inflight = none ∧ (hostWrite s 0x008 4 w).irqStatus = 0 ∧
      ∀ x, Memory.get (hostWrite s 0x008 4 w).mem x = Memory.get s.mem x ∨
        Memory.get (hostWrite s 0x008 4 w).mem x = Memory.get u.mem x)

/-! ### The invariant -/

/-- The invariant holds after reset. -/
def Obligations.Inv_AtReset : Prop := Inv State.reset

/-- R35, R40, R46, R139, R140: every step from every state that meets the invariant keeps it: the memory form, the context
laws, the error record, the flags of a busy engine and the verdict. That a drawn BITCNT keeps R35 (a) is the model's
reading of R62 beside R35 (log 8). -/
def Obligations.Step_KeepsInvariant : Prop :=
  ∀ s t : State, Inv s → step s = .next t → Inv t

/-! ### Laws of the SM3 and length-extension units -/

/-- R100: SM3_INIT, SM3_UPDATE of the parts and SM3_FINAL leave Deser(SM3(m)) in V and DIGEST, m the parts in order. -/
def Obligations.Streaming_EqualsOneShot : Prop :=
  ∀ (ps : List (U64 × U64)) (s : State), (∀ p ∈ ps, validRange s p.1 p.2.toNat) →
    8 * (partsBytes s ps).length ≤ 2 ^ 64 - 1 →
      ∃ t, streamHash ps s = .next t ∧ t.v = deser (sm3 (partsBytes s ps)) ∧
        t.digest = deser (sm3 (partsBytes s ps)) ∧ t.ctxState = .finalized ∧ t.errFlag = s.errFlag ∧
        t.bitcnt.toNat = 8 * (partsBytes s ps).length ∧ t.mem = s.mem

/-- R105, corner case: SM3_COMPRESS of a block is SM3_UPDATE of the same 64 bytes. -/
def Obligations.Compress_EqualsUpdateOfBlock : Prop :=
  ∀ s : State, undisturbed .sm3Update s → s.bufFill = 0 → s.srcLen = 64 → validRange s s.srcAddr 64 →
    srcBytes s = s.blk.toList.flatMap be32 → exec .sm3Compress s = exec .sm3Update s

/-- R113: LE_EXTEND from the digest of m gives the digest of m, its padding and the suffix. -/
def Obligations.LengthExtension_IsCorrect : Prop :=
  ∀ (s : State) (m : Bytes), undisturbed .leExtend s → s.stateIn = deser (sm3 m) → s.arg0.toNat = 8 * m.length →
    8 * m.length + 8 * padLen (8 * m.length) + 8 * s.srcLen.toNat ≤ 2 ^ 64 - 1 →
    padLen (8 * m.length) ≤ s.dstLen.toNat → validRange s s.srcAddr s.srcLen.toNat →
    validRange s s.dstAddr (padLen (8 * m.length)) → Memory.wf s.mem = true →
      ∃ t, exec .leExtend s = .next t ∧ t.errFlag = s.errFlag ∧
        ser t.digest = sm3 (m ++ pad (8 * m.length) ++ srcBytes s) ∧
        Memory.read t.mem s.dstAddr.toNat (padLen (8 * m.length)) = pad (8 * m.length) ∧
        t.result1.toNat = 8 * (m ++ pad (8 * m.length) ++ srcBytes s).length

/-- R112: LE_EXTEND gives the digest that SM3_INJECT of the padded length, SM3_UPDATE and SM3_FINAL give. -/
def Obligations.LengthExtension_EqualsInjection : Prop :=
  ∀ s : State, undisturbed .leExtend s → s.arg0.toNat % 8 = 0 →
    let padded := s.arg0.toNat + 8 * padLen s.arg0.toNat
    padded + 8 * s.srcLen.toNat ≤ 2 ^ 64 - 1 → padLen s.arg0.toNat ≤ s.dstLen.toNat →
    validRange s s.srcAddr s.srcLen.toNat → validRange s s.dstAddr (padLen s.arg0.toNat) →
      ∃ t u, exec .leExtend s = .next t ∧
        andThen (exec .sm3Inject { s with bitcntIn := BitVec.ofNat 64 padded })
          (fun a => andThen (exec .sm3Update a) (exec .sm3Final)) = .next u ∧
        u.digest = t.digest ∧ t.errFlag = s.errFlag ∧ u.errFlag = s.errFlag

/-! ### Laws of the Merkle unit -/

/-- R125, R126: the flags of a path are the expected flags, whatever the digests; and the depth's bounds. The third clause
also speaks of an index outside the tree, whose depth is the model's choice (log 23). -/
def Obligations.Path_FlagsAndDepth : Prop :=
  (∀ (m : Nat) (hs : List Digest), m < hs.length → (path m hs).map Prod.snd = expFlags m hs.length) ∧
  (∀ m n : Nat, 2 ≤ n → m < n → 1 ≤ depth m n) ∧
  (∀ m n d : Nat, n ≤ 2 ^ d → depth m n ≤ d) ∧
  (∀ m d : Nat, m < 2 ^ d → depth m (2 ^ d) = d)

/-- R127: the path of a leaf folds to the root. What SM3 is of a leaf longer than R98 allows is the model's choice
(log 23). -/
def Obligations.Path_FoldsToRoot : Prop :=
  ∀ (x : Bytes) (m : Nat) (hs : List Digest), hs[m]? = some (leafHash x) → fold x (path m hs) = mth hs

/-- R38, R133: a successful MT_BUILD leaves the tree registers and memory describing one tree. -/
def Obligations.Build_SealsIntactTree : Prop :=
  ∀ s t : State, undisturbed .mtBuild s → Memory.wf s.mem = true → s.errFlag = false →
    exec .mtBuild s = .next t → t.errFlag = false →
      treeIntact t ∧ t.treeTouched = false ∧ t.treeN = s.arg0 ∧
        leavesOf t t.treeDesc.toNat t.treeN.toNat = leavesOf s s.srcAddr.toNat s.arg0.toNat

/-- R134, R135, R127: the proof MT_INCL_PROOF writes for leaf i of an intact tree makes MT_VERIFY_INCL of that leaf
against ROOT and TREE_N answer VERDICT = 1. -/
def Obligations.InclusionProof_Verifies : Prop :=
  ∀ (s u : State) (a l : U64), treeIntact s → undisturbed .mtInclProof s → Memory.wf s.mem = true →
    s.errFlag = false → exec .mtInclProof s = .next u → u.errFlag = false →
    validRange u a l.toNat → Memory.read u.mem a.toNat l.toNat = leafOf s s.treeDesc.toNat s.arg0.toNat →
      exec .mtVerifyIncl
        { u with stateIn := u.root, srcAddr := a, srcLen := l, arg1 := u.treeN, auxAddr := u.dstAddr,
                 auxLen := u.result1 }
      = .next
        { succeeded u with stateIn := u.root, srcAddr := a, srcLen := l, arg1 := u.treeN, auxAddr := u.dstAddr,
                           auxLen := u.result1, verdict := true, result0 := 1 }

/-- R119, R127, R128, R135: if MT_VERIFY_INCL answers VERDICT = 1 against the root of a leaf sequence, then the leaf given
is the leaf of that index, or the hashing of the proof and the hashing of the true path collide in SM3. What SM3 is of a
leaf longer than R98 allows is the model's choice (log 23). -/
def Obligations.InclusionProof_BindsTheLeaf : Prop :=
  ∀ (s t : State) (leaves : List Bytes), undisturbed .mtVerifyIncl s → s.errFlag = false → s.verdict = false →
    s.stateIn = deser (mth (leaves.map leafHash)) → s.arg1.toNat = leaves.length →
    exec .mtVerifyIncl s = .next t → t.verdict = true →
      ∃ x, leaves[s.arg0.toNat]? = some x ∧
        (srcBytes s = x ∨
          ∃ p ∈ foldInputs (srcBytes s) (proofOf (auxBytes s) (s.auxLen.toNat / 33)),
            ∃ q ∈ foldInputs x (path s.arg0.toNat (leaves.map leafHash)), p ≠ q ∧ sm3 p = sm3 q)

/-- R138 (a): the record MT_NONINCL_PROOF writes on an intact sorted tree makes MT_VERIFY_NONINCL answer VERDICT = 1. -/
def Obligations.NonInclusion_IsComplete : Prop :=
  ∀ (s u : State) (a l : U64), treeIntact s → undisturbed .mtNoninclProof s → Memory.wf s.mem = true →
    s.errFlag = false → exec .mtNoninclProof s = .next u → u.errFlag = false →
    validRange u a l.toNat → Memory.read u.mem a.toNat l.toNat = srcBytes s →
      exec .mtVerifyNonincl
        { u with stateIn := u.root, srcAddr := a, srcLen := l, arg1 := u.treeN, auxAddr := u.dstAddr,
                 auxLen := u.result0 }
      = .next
        { succeeded u with stateIn := u.root, srcAddr := a, srcLen := l, arg1 := u.treeN, auxAddr := u.dstAddr,
                           auxLen := u.result0, verdict := true, result0 := 1 }

/-- R138 (b): if MT_VERIFY_NONINCL answers VERDICT = 1 against the root of a sorted leaf sequence, then the key is no leaf
of it, or the record has a neighbour block whose leaf differs from the tree's leaf at the index it claims while its proof
still folds to the root. What SM3 is of a leaf longer than R98 allows is the model's choice (log 23). -/
def Obligations.NonInclusion_IsSound : Prop :=
  ∀ (s t : State) (leaves : List Bytes), undisturbed .mtVerifyNonincl s → s.errFlag = false → s.verdict = false →
    sortedLeaves leaves = true → s.stateIn = deser (mth (leaves.map leafHash)) → s.arg1.toNat = leaves.length →
    exec .mtVerifyNonincl s = .next t → t.verdict = true →
      srcBytes s ∉ leaves ∨
      ∃ (kind : NirKind) (blocks : List Neighbour) (b : Neighbour),
        parseNir (auxBytes s) = .ok (kind, blocks) ∧ b ∈ blocks ∧ leaves[b.index]? ≠ some b.leaf ∧
          Neighbour.ok leaves.length b ∧ Neighbour.folds (mth (leaves.map leafHash)) b

end
end

