-- ==== Sys2Proof/Laws/Bytes.lean ====
section
/-! SUPPORT. The laws of the byte-order helpers and of the lexicographic order (spec/00_scope.md R14, R19): lengths, that
`Ser` and `Deser` are inverses, that a big-endian value reads back, and that `<lex` is a strict total order. -/

namespace Sys2Proof.Machine

@[simp] theorem length_be32 (w : Word) : (be32 w).length = 4 := rfl

@[simp] theorem length_be64 (x : U64) : (be64 x).length = 8 := rfl

@[simp] theorem length_ser (s : Words8) : (ser s).length = 32 := rfl

@[simp] theorem length_zeros (k : Nat) : (zeros k).length = k := by simp [zeros]

theorem length_slice (b : Bytes) (i n : Nat) (h : i + n ≤ b.length) : (slice b i n).length = n := by
  simp [slice]
  omega

/-- Four bytes of a word, put together again. -/
theorem wordOfBytes_extract (w : Word) :
    wordOfBytes (w.extractLsb' 24 8) (w.extractLsb' 16 8) (w.extractLsb' 8 8) (w.extractLsb' 0 8) = w := by
  apply BitVec.eq_of_toNat_eq
  simp only [wordOfBytes, BitVec.toNat_append, BitVec.extractLsb'_toNat]
  rw [← Nat.shiftLeft_add_eq_or_of_lt (by omega), ← Nat.shiftLeft_add_eq_or_of_lt (by omega),
    ← Nat.shiftLeft_add_eq_or_of_lt (by omega)]
  simp only [Nat.shiftLeft_eq, Nat.shiftRight_eq_div_pow]
  have := w.isLt
  omega

/-- A word put together from bytes gives those bytes back. -/
theorem be32_wordOfBytes (a b c d : Byte) : be32 (wordOfBytes a b c d) = [a, b, c, d] := by
  have ha := a.isLt
  have hb := b.isLt
  have hc := c.isLt
  have hd := d.isLt
  have key : (wordOfBytes a b c d).toNat = a.toNat * 2 ^ 24 + b.toNat * 2 ^ 16 + c.toNat * 2 ^ 8 + d.toNat := by
    simp only [wordOfBytes, BitVec.toNat_append]
    rw [← Nat.shiftLeft_add_eq_or_of_lt (by omega), ← Nat.shiftLeft_add_eq_or_of_lt (by omega),
      ← Nat.shiftLeft_add_eq_or_of_lt (by omega)]
    simp only [Nat.shiftLeft_eq]
    omega
  simp only [be32, List.cons.injEq, and_true]
  refine ⟨?_, ?_, ?_, ?_⟩ <;> apply BitVec.eq_of_toNat_eq <;>
    simp only [BitVec.extractLsb'_toNat, key, Nat.shiftRight_eq_div_pow] <;> omega

/-- A big-endian word at offset `i` of a byte string reads back (R14). -/
theorem w32_append (p q : Bytes) (w : Word) : w32 (p ++ (be32 w ++ q)) p.length = w := by
  have h : ∀ k, (p ++ (be32 w ++ q)).getD (p.length + k) 0 = (be32 w ++ q).getD k 0 := by
    intro k
    rw [List.getD_append_right p _ _ _ (by omega), Nat.add_sub_cancel_left]
  have h0 := h 0
  rw [Nat.add_zero] at h0
  simp only [w32, h, h0]
  exact wordOfBytes_extract w

/-- `Deser(Ser(S)) = S` (R14). -/
@[simp] theorem deser_ser (s : Words8) : deser (ser s) = s := by
  obtain ⟨a, b, c, d, e, f, g, h⟩ := s
  simp only [deser, ser, w32, be32, List.cons_append, List.nil_append, Words8.mk.injEq]
  refine ⟨?_, ?_, ?_, ?_, ?_, ?_, ?_, ?_⟩ <;> exact wordOfBytes_extract _

/-- `Ser(Deser(d)) = d` for a Digest (R14). -/
theorem ser_deser (d : Digest) (h : d.length = 32) : ser (deser d) = d := by
  simp only [ser, deser, w32, be32_wordOfBytes]
  apply List.ext_getElem (by simp [h])
  intro n h1 h2
  have hn : n < 32 := by omega
  interval_cases n <;> simp [h]

/-- `Ser` loses nothing. -/
theorem ser_injective (a b : Words8) (h : ser a = ser b) : a = b := by
  rw [← deser_ser a, h, deser_ser]

/-- A big-endian u64 at the head of a byte string reads back (R14). -/
theorem u64At_be64 (x : U64) (q : Bytes) : u64At (be64 x ++ q) 0 = x := by
  apply BitVec.eq_of_toNat_eq
  have key (a b c d : Byte) :
      (wordOfBytes a b c d).toNat = a.toNat * 2 ^ 24 + b.toNat * 2 ^ 16 + c.toNat * 2 ^ 8 + d.toNat := by
    have ha := a.isLt
    have hb := b.isLt
    have hc := c.isLt
    have hd := d.isLt
    simp only [wordOfBytes, BitVec.toNat_append]
    rw [← Nat.shiftLeft_add_eq_or_of_lt (by omega), ← Nat.shiftLeft_add_eq_or_of_lt (by omega),
      ← Nat.shiftLeft_add_eq_or_of_lt (by omega)]
    simp only [Nat.shiftLeft_eq]
    omega
  simp only [u64At, BitVec.toNat_append]
  rw [← Nat.shiftLeft_add_eq_or_of_lt (BitVec.isLt _)]
  simp only [w32, be64, List.cons_append, List.nil_append, List.getD_cons_succ, List.getD_cons_zero, key,
    BitVec.extractLsb'_toNat, Nat.shiftRight_eq_div_pow, Nat.shiftLeft_eq]
  have := x.isLt
  omega

@[simp] theorem lexLt_nil_right (a : Bytes) : lexLt a [] = false := by cases a <;> rfl

@[simp] theorem lexLt_nil_cons (b : Byte) (bs : Bytes) : lexLt [] (b :: bs) = true := rfl

theorem lexLt_cons (a b : Byte) (as bs : Bytes) :
    lexLt (a :: as) (b :: bs) = if a = b then lexLt as bs else decide (a.toNat < b.toNat) := rfl

/-- `<lex` is irreflexive (R19). -/
@[simp] theorem lexLt_irrefl (a : Bytes) : lexLt a a = false := by
  induction a with
  | nil => rfl
  | cons x xs ih => rw [lexLt_cons, if_pos rfl, ih]

/-- `<lex` is transitive (R19). -/
theorem lexLt_trans : ∀ (a b c : Bytes), lexLt a b = true → lexLt b c = true → lexLt a c = true
  | _, [], _, h, _ => by simp at h
  | _, _ :: _, [], _, h => by simp at h
  | [], _ :: _, _ :: _, _, _ => rfl
  | x :: xs, y :: ys, z :: zs, h1, h2 => by
    rw [lexLt_cons] at h1 h2 ⊢
    by_cases hxy : x = y
    · subst hxy
      rw [if_pos rfl] at h1
      by_cases hxz : x = z
      · rw [if_pos hxz] at h2 ⊢
        exact lexLt_trans xs ys zs h1 h2
      · rw [if_neg hxz] at h2 ⊢
        exact h2
    · rw [if_neg hxy, decide_eq_true_eq] at h1
      by_cases hyz : y = z
      · subst hyz
        rw [if_neg hxy, decide_eq_true_eq]
        exact h1
      · rw [if_neg hyz, decide_eq_true_eq] at h2
        rw [if_neg (fun h => by subst h; omega), decide_eq_true_eq]
        omega

/-- `<lex` is total (R19). -/
theorem lexLt_total : ∀ (a b : Bytes), lexLt a b = true ∨ a = b ∨ lexLt b a = true
  | [], [] => .inr (.inl rfl)
  | [], _ :: _ => .inl rfl
  | _ :: _, [] => .inr (.inr rfl)
  | x :: xs, y :: ys => by
    rw [lexLt_cons, lexLt_cons]
    by_cases hxy : x = y
    · subst hxy
      rw [if_pos rfl, if_pos rfl]
      rcases lexLt_total xs ys with h | rfl | h
      · exact .inl h
      · exact .inr (.inl rfl)
      · exact .inr (.inr h)
    · rw [if_neg hxy, if_neg (Ne.symm hxy), decide_eq_true_eq, decide_eq_true_eq]
      have : x.toNat ≠ y.toNat := fun h => hxy (BitVec.eq_of_toNat_eq h)
      omega

/-- `<lex` is asymmetric (R19). -/
theorem lexLt_asymm (a b : Bytes) (h : lexLt a b = true) : lexLt b a = false := by
  by_contra hc
  have := lexLt_trans a b a h (by simpa using hc)
  simp at this

end Sys2Proof.Machine
end

