-- ==== Sys2Proof/Laws/Memory.lean ====
section
/-! SUPPORT. The laws of the DMA memory: the canonical form is kept by every operation, a read after a write gives the
value written, and a write leaves every other byte alone (spec/00_scope.md R16, spec/20_memory.md R46, R49). -/

namespace Sys2Proof.Machine

/-- The canonical form, said of the head: it is listed below every other address and is not what an unlisted address
reads as. -/
theorem Memory.wf_cons (a : Nat) (b : Byte) (m : List Host.Cell) :
    Memory.wf ((a, b) :: m) = true ↔ b ≠ Memory.unlisted ∧ (∀ c ∈ m, a < c.1) ∧ Memory.wf m = true := by
  induction m generalizing a b with
  | nil => simp [Memory.wf]
  | cons c m ih =>
    obtain ⟨a', b'⟩ := c
    simp only [Memory.wf, Bool.and_eq_true, decide_eq_true_eq, List.mem_cons, forall_eq_or_imp, ih]
    constructor
    · rintro ⟨⟨h1, h2⟩, h3, h4, h5⟩
      exact ⟨h2, ⟨h1, fun c hc => h1.trans (h4 c hc)⟩, h3, h4, h5⟩
    · rintro ⟨h2, ⟨h1, _⟩, h⟩
      exact ⟨⟨h1, h2⟩, h⟩

@[simp] theorem Memory.wf_nil : Memory.wf [] = true := rfl

@[simp] theorem Memory.get_nil (a : Nat) : Memory.get [] a = Memory.unlisted := rfl

theorem Memory.get_cons (k : Nat) (b : Byte) (m : List Host.Cell) (a : Nat) :
    Memory.get ((k, b) :: m) a = if k = a then b else Memory.get m a := rfl

/-- An address below every listed one is unlisted. -/
theorem Memory.get_of_lt (m : List Host.Cell) (a : Nat) (h : ∀ c ∈ m, a < c.1) :
    Memory.get m a = Memory.unlisted := by
  induction m with
  | nil => rfl
  | cons c m ih =>
    obtain ⟨k, b⟩ := c
    have hk : a < k := h (k, b) (by simp)
    rw [Memory.get_cons, if_neg (by omega)]
    exact ih fun c hc => h c (by simp [hc])

/-- The addresses a store lists are the old ones and the stored one. -/
theorem Memory.mem_set (m : List Host.Cell) (a : Nat) (b : Byte) (c : Host.Cell) (h : c ∈ Memory.set m a b) :
    c ∈ m ∨ c = (a, b) := by
  induction m with
  | nil =>
    simp only [Memory.set] at h
    split at h <;> simp_all
  | cons d m ih =>
    obtain ⟨k, x⟩ := d
    simp only [Memory.set] at h
    split at h
    · split at h
      · exact .inl h
      · exact (List.mem_cons.mp h).symm
    · split at h
      · split at h
        · exact .inl (by simp [h])
        · rcases List.mem_cons.mp h with h | h
          · exact .inr h
          · exact .inl (by simp [h])
      · rcases List.mem_cons.mp h with h | h
        · exact .inl (by simp [h])
        · rcases ih h with h | h
          · exact .inl (by simp [h])
          · exact .inr h

/-- A store keeps the canonical form. -/
theorem Memory.wf_set (m : List Host.Cell) (a : Nat) (b : Byte) (h : Memory.wf m = true) :
    Memory.wf (Memory.set m a b) = true := by
  induction m with
  | nil =>
    simp only [Memory.set]
    split
    · rfl
    · rw [Memory.wf_cons]
      exact ⟨by assumption, by simp, rfl⟩
  | cons d m ih =>
    obtain ⟨k, x⟩ := d
    obtain ⟨hx, hk, hm⟩ := (Memory.wf_cons k x m).mp h
    simp only [Memory.set]
    split
    · split
      · exact h
      · rw [Memory.wf_cons]
        refine ⟨by assumption, fun c hc => ?_, h⟩
        rcases List.mem_cons.mp hc with rfl | hc
        · assumption
        · have := hk c hc
          omega
    · split
      · split
        · exact hm
        · rw [Memory.wf_cons]
          exact ⟨by assumption, fun c hc => by have := hk c hc; omega, hm⟩
      · rw [Memory.wf_cons]
        refine ⟨hx, fun c hc => ?_, ih hm⟩
        rcases Memory.mem_set m a b c hc with hc | rfl
        · exact hk c hc
        · show k < a
          omega

/-- A read after a one-byte store (R16). -/
theorem Memory.get_set (m : List Host.Cell) (a : Nat) (b : Byte) (x : Nat) (h : Memory.wf m = true) :
    Memory.get (Memory.set m a b) x = if x = a then b else Memory.get m x := by
  induction m with
  | nil =>
    simp only [Memory.set]
    split <;> split <;> simp_all [Memory.get_cons, eq_comm]
  | cons d m ih =>
    obtain ⟨k, y⟩ := d
    obtain ⟨hy, hk, hm⟩ := (Memory.wf_cons k y m).mp h
    simp only [Memory.set]
    split
    · rename_i hak
      have hlow : Memory.get ((k, y) :: m) a = Memory.unlisted :=
        Memory.get_of_lt _ _ fun c hc => by
          rcases List.mem_cons.mp hc with rfl | hc
          · exact hak
          · have := hk c hc
            omega
      split
      · rename_i hb
        split
        · rename_i hx
          rw [hx, hlow, hb]
        · rfl
      · rw [Memory.get_cons]
        simp only [eq_comm]
    · split
      · rename_i hak
        subst hak
        have hlow : Memory.get m a = Memory.unlisted := Memory.get_of_lt _ _ hk
        split
        · rename_i hb
          by_cases hx : x = a
          · rw [if_pos hx, hx, hlow, hb]
          · rw [if_neg hx, Memory.get_cons, if_neg (Ne.symm hx)]
        · rw [Memory.get_cons, Memory.get_cons]
          by_cases hx : x = a
          · rw [if_pos hx, if_pos hx.symm]
          · rw [if_neg hx, if_neg (Ne.symm hx), if_neg (Ne.symm hx)]
      · rw [Memory.get_cons, Memory.get_cons, ih hm]
        by_cases hx : k = x
        · rw [if_pos hx, if_pos hx, if_neg (by omega)]
        · rw [if_neg hx, if_neg hx]

@[simp] theorem Memory.write_nil (m : List Host.Cell) (a : Nat) : Memory.write m a [] = m := rfl

theorem Memory.write_cons (m : List Host.Cell) (a : Nat) (b : Byte) (bs : Bytes) :
    Memory.write m a (b :: bs) = Memory.write (Memory.set m a b) (a + 1) bs := rfl

/-- MemWrite keeps the canonical form. -/
theorem Memory.wf_write (bs : Bytes) : ∀ (m : List Host.Cell) (a : Nat), Memory.wf m = true →
    Memory.wf (Memory.write m a bs) = true := by
  induction bs with
  | nil => exact fun _ _ h => h
  | cons b bs ih => exact fun m a h => ih _ _ (Memory.wf_set m a b h)

/-- A MemWrite leaves every byte outside its range alone. -/
theorem Memory.get_write_of_not_mem (bs : Bytes) : ∀ (m : List Host.Cell) (a x : Nat), Memory.wf m = true →
    (x < a ∨ a + bs.length ≤ x) → Memory.get (Memory.write m a bs) x = Memory.get m x := by
  induction bs with
  | nil => exact fun _ _ _ _ _ => rfl
  | cons b bs ih =>
    intro m a x h hx
    simp only [List.length_cons] at hx
    rw [Memory.write_cons, ih _ _ _ (Memory.wf_set m a b h) (by omega), Memory.get_set m a b x h,
      if_neg (by omega)]

/-- A read of a byte a MemWrite stored (R49: byte k of the value is at address a + k). -/
theorem Memory.get_write_of_mem (bs : Bytes) : ∀ (m : List Host.Cell) (a k : Nat), Memory.wf m = true →
    k < bs.length → Memory.get (Memory.write m a bs) (a + k) = bs.getD k 0 := by
  induction bs with
  | nil => intro m a k _ hk; simp at hk
  | cons b bs ih =>
    intro m a k h hk
    rw [Memory.write_cons]
    cases k with
    | zero =>
      rw [Memory.get_write_of_not_mem bs _ _ _ (Memory.wf_set m a b h) (by omega), Memory.get_set m a b _ h]
      simp
    | succ k =>
      have := ih (Memory.set m a b) (a + 1) k (Memory.wf_set m a b h) (by simpa using hk)
      rw [show a + (k + 1) = a + 1 + k by omega, this]
      simp

@[simp] theorem Memory.length_read (m : List Host.Cell) (a n : Nat) : (Memory.read m a n).length = n := by
  simp [Memory.read]

@[simp] theorem Memory.read_zero (m : List Host.Cell) (a : Nat) : Memory.read m a 0 = [] := rfl

/-- Byte `k` of a read is the byte at `a + k` (R49). -/
theorem Memory.getElem_read (m : List Host.Cell) (a n k : Nat) (h : k < (Memory.read m a n).length) :
    (Memory.read m a n)[k] = Memory.get m (a + k) := by
  simp [Memory.read]

/-- A longer read is a read followed by the read of the rest. -/
theorem Memory.read_add (m : List Host.Cell) (a n k : Nat) :
    Memory.read m a (n + k) = Memory.read m a n ++ Memory.read m (a + n) k := by
  simp only [Memory.read, List.range_add, List.map_append, List.map_map]
  congr 1
  apply List.map_congr_left
  intro x _
  simp [Function.comp, Nat.add_assoc]

/-- A read of part of a range that was read. -/
theorem Memory.slice_read (m : List Host.Cell) (a n i k : Nat) (h : i + k ≤ n) :
    slice (Memory.read m a n) i k = Memory.read m (a + i) k := by
  obtain ⟨r, rfl⟩ : ∃ r, n = i + (k + r) := ⟨n - i - k, by omega⟩
  rw [Memory.read_add m a i, Memory.read_add m (a + i) k, slice, List.drop_left' (by simp),
    List.take_left' (by simp)]

/-- Two reads agree where the bytes agree. -/
theorem Memory.read_congr (m m' : List Host.Cell) (a n : Nat)
    (h : ∀ x, a ≤ x → x < a + n → Memory.get m x = Memory.get m' x) :
    Memory.read m a n = Memory.read m' a n := by
  simp only [Memory.read]
  apply List.map_congr_left
  intro k hk
  exact h _ (by omega) (by have := List.mem_range.mp hk; omega)

/-- A read of the range just written gives the bytes written. -/
theorem Memory.read_write_same (m : List Host.Cell) (a : Nat) (bs : Bytes) (h : Memory.wf m = true) :
    Memory.read (Memory.write m a bs) a bs.length = bs := by
  apply List.ext_getElem (by simp)
  intro k h1 h2
  rw [Memory.getElem_read, Memory.get_write_of_mem bs m a k h h2]
  simp [h2]

/-- A read of a range that a write does not touch. -/
theorem Memory.read_write_apart (m : List Host.Cell) (a n : Nat) (w : Nat) (bs : Bytes) (h : Memory.wf m = true)
    (hr : Range.meets ⟨a, n⟩ ⟨w, bs.length⟩ = false) :
    Memory.read (Memory.write m w bs) a n = Memory.read m a n := by
  apply Memory.read_congr
  intro x h1 h2
  apply Memory.get_write_of_not_mem bs m w x h
  simp only [Range.meets, decide_eq_false_iff_not, not_and, Nat.not_lt] at hr
  by_cases hb : 0 < bs.length
  · have := hr (by omega) hb
    by_cases hx : a < w + bs.length
    · have := this hx
      omega
    · omega
  · omega

/-- A store inside the memory lists no byte outside it. -/
theorem Memory.within_set (m : List Host.Cell) (a : Nat) (b : Byte) (n : Nat) (h : Memory.within m n) (ha : a < n) :
    Memory.within (Memory.set m a b) n := by
  intro c hc
  rcases Memory.mem_set m a b c hc with hc | rfl
  · exact h c hc
  · exact ha

/-- A MemWrite of a valid range lists no byte outside the memory (R47). -/
theorem Memory.within_write (bs : Bytes) : ∀ (m : List Host.Cell) (a n : Nat), Memory.within m n →
    (bs.length = 0 ∨ a + bs.length ≤ n) → Memory.within (Memory.write m a bs) n := by
  induction bs with
  | nil => exact fun _ _ _ h _ => h
  | cons b bs ih =>
    intro m a n h hr
    simp only [List.length_cons] at hr
    exact ih _ _ _ (Memory.within_set m a b n h (by omega)) (by omega)

theorem Memory.within_nil (n : Nat) : Memory.within [] n := by simp [Memory.within]

/-- Two canonical memories that read alike are the same list. -/
theorem Memory.ext_head (a b : Nat) (x y : Byte) (m m' : List Host.Cell)
    (h : Memory.wf ((a, x) :: m) = true) (h' : Memory.wf ((b, y) :: m') = true)
    (hg : ∀ k, Memory.get ((a, x) :: m) k = Memory.get ((b, y) :: m') k) : ¬ a < b := by
  intro hab
  have h0 := hg a
  rw [Memory.get_cons, if_pos rfl, Memory.get_of_lt] at h0
  · exact ((Memory.wf_cons a x m).mp h).1 h0
  · intro c hc
    rcases List.mem_cons.mp hc with rfl | hc
    · exact hab
    · have := ((Memory.wf_cons b y m').mp h').2.1 c hc
      omega

/-- The memory of the reset state is canonical. -/
theorem State.reset_mem_wf : Memory.wf State.reset.mem = true := rfl

end Sys2Proof.Machine
end

