-- ==== Sys2Proof/Laws/State.lean ====
section
/-! SUPPORT. What each shared update leaves in each field of State: one lemma per field per update, true by rfl, so
that no proof unfolds a record update. The file is generated from the field list. -/

namespace Sys2Proof.Machine

/-! ### The accept (R140): `accept` -/

@[simp] theorem accept_params (w : Word) (s : State) : (accept w s).params = s.params := rfl
@[simp] theorem accept_inflight (w : Word) (s : State) : (accept w s).inflight = some w := rfl
@[simp] theorem accept_errFlag (w : Word) (s : State) : (accept w s).errFlag = false := rfl
@[simp] theorem accept_verdict (w : Word) (s : State) : (accept w s).verdict = false := rfl
@[simp] theorem accept_errcode (w : Word) (s : State) : (accept w s).errcode = 0x00 := rfl
@[simp] theorem accept_lastOp (w : Word) (s : State) : (accept w s).lastOp = w.extractLsb' 0 8 := rfl
@[simp] theorem accept_irqStatus (w : Word) (s : State) : (accept w s).irqStatus = s.irqStatus := rfl
@[simp] theorem accept_irqEnable (w : Word) (s : State) : (accept w s).irqEnable = s.irqEnable := rfl
@[simp] theorem accept_ctxState (w : Word) (s : State) : (accept w s).ctxState = s.ctxState := rfl
@[simp] theorem accept_bufFill (w : Word) (s : State) : (accept w s).bufFill = s.bufFill := rfl
@[simp] theorem accept_buf (w : Word) (s : State) : (accept w s).buf = s.buf := rfl
@[simp] theorem accept_srcAddr (w : Word) (s : State) : (accept w s).srcAddr = s.srcAddr := rfl
@[simp] theorem accept_srcLen (w : Word) (s : State) : (accept w s).srcLen = s.srcLen := rfl
@[simp] theorem accept_auxAddr (w : Word) (s : State) : (accept w s).auxAddr = s.auxAddr := rfl
@[simp] theorem accept_auxLen (w : Word) (s : State) : (accept w s).auxLen = s.auxLen := rfl
@[simp] theorem accept_dstAddr (w : Word) (s : State) : (accept w s).dstAddr = s.dstAddr := rfl
@[simp] theorem accept_dstLen (w : Word) (s : State) : (accept w s).dstLen = s.dstLen := rfl
@[simp] theorem accept_arg0 (w : Word) (s : State) : (accept w s).arg0 = s.arg0 := rfl
@[simp] theorem accept_arg1 (w : Word) (s : State) : (accept w s).arg1 = s.arg1 := rfl
@[simp] theorem accept_bitcntIn (w : Word) (s : State) : (accept w s).bitcntIn = s.bitcntIn := rfl
@[simp] theorem accept_stateIn (w : Word) (s : State) : (accept w s).stateIn = s.stateIn := rfl
@[simp] theorem accept_blk (w : Word) (s : State) : (accept w s).blk = s.blk := rfl
@[simp] theorem accept_result0 (w : Word) (s : State) : (accept w s).result0 = s.result0 := rfl
@[simp] theorem accept_result1 (w : Word) (s : State) : (accept w s).result1 = s.result1 := rfl
@[simp] theorem accept_bitcnt (w : Word) (s : State) : (accept w s).bitcnt = s.bitcnt := rfl
@[simp] theorem accept_v (w : Word) (s : State) : (accept w s).v = s.v := rfl
@[simp] theorem accept_digest (w : Word) (s : State) : (accept w s).digest = s.digest := rfl
@[simp] theorem accept_root (w : Word) (s : State) : (accept w s).root = s.root := rfl
@[simp] theorem accept_treeSealed (w : Word) (s : State) : (accept w s).treeSealed = s.treeSealed := rfl
@[simp] theorem accept_treeSorted (w : Word) (s : State) : (accept w s).treeSorted = s.treeSorted := rfl
@[simp] theorem accept_treeN (w : Word) (s : State) : (accept w s).treeN = s.treeN := rfl
@[simp] theorem accept_treeDesc (w : Word) (s : State) : (accept w s).treeDesc = s.treeDesc := rfl
@[simp] theorem accept_treeLda (w : Word) (s : State) : (accept w s).treeLda = s.treeLda := rfl
@[simp] theorem accept_mem (w : Word) (s : State) : (accept w s).mem = s.mem := rfl
@[simp] theorem accept_treeTouched (w : Word) (s : State) : (accept w s).treeTouched = s.treeTouched := rfl
@[simp] theorem accept_hostReads (w : Word) (s : State) : (accept w s).hostReads = [] := rfl
@[simp] theorem accept_hostWrites (w : Word) (s : State) : (accept w s).hostWrites = [] := rfl
@[simp] theorem accept_draws (w : Word) (s : State) : (accept w s).draws = s.draws := rfl
@[simp] theorem accept_rdata (w : Word) (s : State) : (accept w s).rdata = s.rdata := rfl
@[simp] theorem accept_mdata (w : Word) (s : State) : (accept w s).mdata = s.mdata := rfl
@[simp] theorem accept_inputs (w : Word) (s : State) : (accept w s).inputs = s.inputs := rfl

/-! ### The end of a completion (R141): `goIdle` -/

@[simp] theorem goIdle_params (s : State) : (goIdle s).params = s.params := rfl
@[simp] theorem goIdle_inflight (s : State) : (goIdle s).inflight = none := rfl
@[simp] theorem goIdle_errFlag (s : State) : (goIdle s).errFlag = s.errFlag := rfl
@[simp] theorem goIdle_verdict (s : State) : (goIdle s).verdict = s.verdict := rfl
@[simp] theorem goIdle_errcode (s : State) : (goIdle s).errcode = s.errcode := rfl
@[simp] theorem goIdle_lastOp (s : State) : (goIdle s).lastOp = s.lastOp := rfl
@[simp] theorem goIdle_irqStatus (s : State) : (goIdle s).irqStatus = s.irqStatus := rfl
@[simp] theorem goIdle_irqEnable (s : State) : (goIdle s).irqEnable = s.irqEnable := rfl
@[simp] theorem goIdle_ctxState (s : State) : (goIdle s).ctxState = s.ctxState := rfl
@[simp] theorem goIdle_bufFill (s : State) : (goIdle s).bufFill = s.bufFill := rfl
@[simp] theorem goIdle_buf (s : State) : (goIdle s).buf = s.buf := rfl
@[simp] theorem goIdle_srcAddr (s : State) : (goIdle s).srcAddr = s.srcAddr := rfl
@[simp] theorem goIdle_srcLen (s : State) : (goIdle s).srcLen = s.srcLen := rfl
@[simp] theorem goIdle_auxAddr (s : State) : (goIdle s).auxAddr = s.auxAddr := rfl
@[simp] theorem goIdle_auxLen (s : State) : (goIdle s).auxLen = s.auxLen := rfl
@[simp] theorem goIdle_dstAddr (s : State) : (goIdle s).dstAddr = s.dstAddr := rfl
@[simp] theorem goIdle_dstLen (s : State) : (goIdle s).dstLen = s.dstLen := rfl
@[simp] theorem goIdle_arg0 (s : State) : (goIdle s).arg0 = s.arg0 := rfl
@[simp] theorem goIdle_arg1 (s : State) : (goIdle s).arg1 = s.arg1 := rfl
@[simp] theorem goIdle_bitcntIn (s : State) : (goIdle s).bitcntIn = s.bitcntIn := rfl
@[simp] theorem goIdle_stateIn (s : State) : (goIdle s).stateIn = s.stateIn := rfl
@[simp] theorem goIdle_blk (s : State) : (goIdle s).blk = s.blk := rfl
@[simp] theorem goIdle_result0 (s : State) : (goIdle s).result0 = s.result0 := rfl
@[simp] theorem goIdle_result1 (s : State) : (goIdle s).result1 = s.result1 := rfl
@[simp] theorem goIdle_bitcnt (s : State) : (goIdle s).bitcnt = s.bitcnt := rfl
@[simp] theorem goIdle_v (s : State) : (goIdle s).v = s.v := rfl
@[simp] theorem goIdle_digest (s : State) : (goIdle s).digest = s.digest := rfl
@[simp] theorem goIdle_root (s : State) : (goIdle s).root = s.root := rfl
@[simp] theorem goIdle_treeSealed (s : State) : (goIdle s).treeSealed = s.treeSealed := rfl
@[simp] theorem goIdle_treeSorted (s : State) : (goIdle s).treeSorted = s.treeSorted := rfl
@[simp] theorem goIdle_treeN (s : State) : (goIdle s).treeN = s.treeN := rfl
@[simp] theorem goIdle_treeDesc (s : State) : (goIdle s).treeDesc = s.treeDesc := rfl
@[simp] theorem goIdle_treeLda (s : State) : (goIdle s).treeLda = s.treeLda := rfl
@[simp] theorem goIdle_mem (s : State) : (goIdle s).mem = s.mem := rfl
@[simp] theorem goIdle_treeTouched (s : State) : (goIdle s).treeTouched = s.treeTouched := rfl
@[simp] theorem goIdle_hostReads (s : State) : (goIdle s).hostReads = [] := rfl
@[simp] theorem goIdle_hostWrites (s : State) : (goIdle s).hostWrites = [] := rfl
@[simp] theorem goIdle_draws (s : State) : (goIdle s).draws = s.draws := rfl
@[simp] theorem goIdle_rdata (s : State) : (goIdle s).rdata = s.rdata := rfl
@[simp] theorem goIdle_mdata (s : State) : (goIdle s).mdata = s.mdata := rfl
@[simp] theorem goIdle_inputs (s : State) : (goIdle s).inputs = s.inputs := rfl

/-! ### Raising interrupt bits (R147, R148): `raiseIrq` -/

@[simp] theorem raiseIrq_params (s : State) (b : BitVec 3) : (raiseIrq s b).params = s.params := rfl
@[simp] theorem raiseIrq_inflight (s : State) (b : BitVec 3) : (raiseIrq s b).inflight = s.inflight := rfl
@[simp] theorem raiseIrq_errFlag (s : State) (b : BitVec 3) : (raiseIrq s b).errFlag = s.errFlag := rfl
@[simp] theorem raiseIrq_verdict (s : State) (b : BitVec 3) : (raiseIrq s b).verdict = s.verdict := rfl
@[simp] theorem raiseIrq_errcode (s : State) (b : BitVec 3) : (raiseIrq s b).errcode = s.errcode := rfl
@[simp] theorem raiseIrq_lastOp (s : State) (b : BitVec 3) : (raiseIrq s b).lastOp = s.lastOp := rfl
@[simp] theorem raiseIrq_irqStatus (s : State) (b : BitVec 3) : (raiseIrq s b).irqStatus = s.irqStatus ||| b := rfl
@[simp] theorem raiseIrq_irqEnable (s : State) (b : BitVec 3) : (raiseIrq s b).irqEnable = s.irqEnable := rfl
@[simp] theorem raiseIrq_ctxState (s : State) (b : BitVec 3) : (raiseIrq s b).ctxState = s.ctxState := rfl
@[simp] theorem raiseIrq_bufFill (s : State) (b : BitVec 3) : (raiseIrq s b).bufFill = s.bufFill := rfl
@[simp] theorem raiseIrq_buf (s : State) (b : BitVec 3) : (raiseIrq s b).buf = s.buf := rfl
@[simp] theorem raiseIrq_srcAddr (s : State) (b : BitVec 3) : (raiseIrq s b).srcAddr = s.srcAddr := rfl
@[simp] theorem raiseIrq_srcLen (s : State) (b : BitVec 3) : (raiseIrq s b).srcLen = s.srcLen := rfl
@[simp] theorem raiseIrq_auxAddr (s : State) (b : BitVec 3) : (raiseIrq s b).auxAddr = s.auxAddr := rfl
@[simp] theorem raiseIrq_auxLen (s : State) (b : BitVec 3) : (raiseIrq s b).auxLen = s.auxLen := rfl
@[simp] theorem raiseIrq_dstAddr (s : State) (b : BitVec 3) : (raiseIrq s b).dstAddr = s.dstAddr := rfl
@[simp] theorem raiseIrq_dstLen (s : State) (b : BitVec 3) : (raiseIrq s b).dstLen = s.dstLen := rfl
@[simp] theorem raiseIrq_arg0 (s : State) (b : BitVec 3) : (raiseIrq s b).arg0 = s.arg0 := rfl
@[simp] theorem raiseIrq_arg1 (s : State) (b : BitVec 3) : (raiseIrq s b).arg1 = s.arg1 := rfl
@[simp] theorem raiseIrq_bitcntIn (s : State) (b : BitVec 3) : (raiseIrq s b).bitcntIn = s.bitcntIn := rfl
@[simp] theorem raiseIrq_stateIn (s : State) (b : BitVec 3) : (raiseIrq s b).stateIn = s.stateIn := rfl
@[simp] theorem raiseIrq_blk (s : State) (b : BitVec 3) : (raiseIrq s b).blk = s.blk := rfl
@[simp] theorem raiseIrq_result0 (s : State) (b : BitVec 3) : (raiseIrq s b).result0 = s.result0 := rfl
@[simp] theorem raiseIrq_result1 (s : State) (b : BitVec 3) : (raiseIrq s b).result1 = s.result1 := rfl
@[simp] theorem raiseIrq_bitcnt (s : State) (b : BitVec 3) : (raiseIrq s b).bitcnt = s.bitcnt := rfl
@[simp] theorem raiseIrq_v (s : State) (b : BitVec 3) : (raiseIrq s b).v = s.v := rfl
@[simp] theorem raiseIrq_digest (s : State) (b : BitVec 3) : (raiseIrq s b).digest = s.digest := rfl
@[simp] theorem raiseIrq_root (s : State) (b : BitVec 3) : (raiseIrq s b).root = s.root := rfl
@[simp] theorem raiseIrq_treeSealed (s : State) (b : BitVec 3) : (raiseIrq s b).treeSealed = s.treeSealed := rfl
@[simp] theorem raiseIrq_treeSorted (s : State) (b : BitVec 3) : (raiseIrq s b).treeSorted = s.treeSorted := rfl
@[simp] theorem raiseIrq_treeN (s : State) (b : BitVec 3) : (raiseIrq s b).treeN = s.treeN := rfl
@[simp] theorem raiseIrq_treeDesc (s : State) (b : BitVec 3) : (raiseIrq s b).treeDesc = s.treeDesc := rfl
@[simp] theorem raiseIrq_treeLda (s : State) (b : BitVec 3) : (raiseIrq s b).treeLda = s.treeLda := rfl
@[simp] theorem raiseIrq_mem (s : State) (b : BitVec 3) : (raiseIrq s b).mem = s.mem := rfl
@[simp] theorem raiseIrq_treeTouched (s : State) (b : BitVec 3) : (raiseIrq s b).treeTouched = s.treeTouched := rfl
@[simp] theorem raiseIrq_hostReads (s : State) (b : BitVec 3) : (raiseIrq s b).hostReads = s.hostReads := rfl
@[simp] theorem raiseIrq_hostWrites (s : State) (b : BitVec 3) : (raiseIrq s b).hostWrites = s.hostWrites := rfl
@[simp] theorem raiseIrq_draws (s : State) (b : BitVec 3) : (raiseIrq s b).draws = s.draws := rfl
@[simp] theorem raiseIrq_rdata (s : State) (b : BitVec 3) : (raiseIrq s b).rdata = s.rdata := rfl
@[simp] theorem raiseIrq_mdata (s : State) (b : BitVec 3) : (raiseIrq s b).mdata = s.mdata := rfl
@[simp] theorem raiseIrq_inputs (s : State) (b : BitVec 3) : (raiseIrq s b).inputs = s.inputs := rfl

/-! ### The RW1C write of IRQ_STATUS (R25): `clearIrq` -/

@[simp] theorem clearIrq_params (s : State) (w : Word) : (clearIrq s w).params = s.params := rfl
@[simp] theorem clearIrq_inflight (s : State) (w : Word) : (clearIrq s w).inflight = s.inflight := rfl
@[simp] theorem clearIrq_errFlag (s : State) (w : Word) : (clearIrq s w).errFlag = s.errFlag := rfl
@[simp] theorem clearIrq_verdict (s : State) (w : Word) : (clearIrq s w).verdict = s.verdict := rfl
@[simp] theorem clearIrq_errcode (s : State) (w : Word) : (clearIrq s w).errcode = s.errcode := rfl
@[simp] theorem clearIrq_lastOp (s : State) (w : Word) : (clearIrq s w).lastOp = s.lastOp := rfl
@[simp] theorem clearIrq_irqStatus (s : State) (w : Word) : (clearIrq s w).irqStatus = s.irqStatus &&& ~~~ (w.extractLsb' 0 3) := rfl
@[simp] theorem clearIrq_irqEnable (s : State) (w : Word) : (clearIrq s w).irqEnable = s.irqEnable := rfl
@[simp] theorem clearIrq_ctxState (s : State) (w : Word) : (clearIrq s w).ctxState = s.ctxState := rfl
@[simp] theorem clearIrq_bufFill (s : State) (w : Word) : (clearIrq s w).bufFill = s.bufFill := rfl
@[simp] theorem clearIrq_buf (s : State) (w : Word) : (clearIrq s w).buf = s.buf := rfl
@[simp] theorem clearIrq_srcAddr (s : State) (w : Word) : (clearIrq s w).srcAddr = s.srcAddr := rfl
@[simp] theorem clearIrq_srcLen (s : State) (w : Word) : (clearIrq s w).srcLen = s.srcLen := rfl
@[simp] theorem clearIrq_auxAddr (s : State) (w : Word) : (clearIrq s w).auxAddr = s.auxAddr := rfl
@[simp] theorem clearIrq_auxLen (s : State) (w : Word) : (clearIrq s w).auxLen = s.auxLen := rfl
@[simp] theorem clearIrq_dstAddr (s : State) (w : Word) : (clearIrq s w).dstAddr = s.dstAddr := rfl
@[simp] theorem clearIrq_dstLen (s : State) (w : Word) : (clearIrq s w).dstLen = s.dstLen := rfl
@[simp] theorem clearIrq_arg0 (s : State) (w : Word) : (clearIrq s w).arg0 = s.arg0 := rfl
@[simp] theorem clearIrq_arg1 (s : State) (w : Word) : (clearIrq s w).arg1 = s.arg1 := rfl
@[simp] theorem clearIrq_bitcntIn (s : State) (w : Word) : (clearIrq s w).bitcntIn = s.bitcntIn := rfl
@[simp] theorem clearIrq_stateIn (s : State) (w : Word) : (clearIrq s w).stateIn = s.stateIn := rfl
@[simp] theorem clearIrq_blk (s : State) (w : Word) : (clearIrq s w).blk = s.blk := rfl
@[simp] theorem clearIrq_result0 (s : State) (w : Word) : (clearIrq s w).result0 = s.result0 := rfl
@[simp] theorem clearIrq_result1 (s : State) (w : Word) : (clearIrq s w).result1 = s.result1 := rfl
@[simp] theorem clearIrq_bitcnt (s : State) (w : Word) : (clearIrq s w).bitcnt = s.bitcnt := rfl
@[simp] theorem clearIrq_v (s : State) (w : Word) : (clearIrq s w).v = s.v := rfl
@[simp] theorem clearIrq_digest (s : State) (w : Word) : (clearIrq s w).digest = s.digest := rfl
@[simp] theorem clearIrq_root (s : State) (w : Word) : (clearIrq s w).root = s.root := rfl
@[simp] theorem clearIrq_treeSealed (s : State) (w : Word) : (clearIrq s w).treeSealed = s.treeSealed := rfl
@[simp] theorem clearIrq_treeSorted (s : State) (w : Word) : (clearIrq s w).treeSorted = s.treeSorted := rfl
@[simp] theorem clearIrq_treeN (s : State) (w : Word) : (clearIrq s w).treeN = s.treeN := rfl
@[simp] theorem clearIrq_treeDesc (s : State) (w : Word) : (clearIrq s w).treeDesc = s.treeDesc := rfl
@[simp] theorem clearIrq_treeLda (s : State) (w : Word) : (clearIrq s w).treeLda = s.treeLda := rfl
@[simp] theorem clearIrq_mem (s : State) (w : Word) : (clearIrq s w).mem = s.mem := rfl
@[simp] theorem clearIrq_treeTouched (s : State) (w : Word) : (clearIrq s w).treeTouched = s.treeTouched := rfl
@[simp] theorem clearIrq_hostReads (s : State) (w : Word) : (clearIrq s w).hostReads = s.hostReads := rfl
@[simp] theorem clearIrq_hostWrites (s : State) (w : Word) : (clearIrq s w).hostWrites = s.hostWrites := rfl
@[simp] theorem clearIrq_draws (s : State) (w : Word) : (clearIrq s w).draws = s.draws := rfl
@[simp] theorem clearIrq_rdata (s : State) (w : Word) : (clearIrq s w).rdata = s.rdata := rfl
@[simp] theorem clearIrq_mdata (s : State) (w : Word) : (clearIrq s w).mdata = s.mdata := rfl
@[simp] theorem clearIrq_inputs (s : State) (w : Word) : (clearIrq s w).inputs = s.inputs := rfl

/-! ### The error completion (R142): `errorCompletion` -/

@[simp] theorem errorCompletion_params (e : Err) (s : State) : (errorCompletion e s).params = s.params := rfl
@[simp] theorem errorCompletion_inflight (e : Err) (s : State) : (errorCompletion e s).inflight = s.inflight := rfl
@[simp] theorem errorCompletion_errFlag (e : Err) (s : State) : (errorCompletion e s).errFlag = true := rfl
@[simp] theorem errorCompletion_verdict (e : Err) (s : State) : (errorCompletion e s).verdict = s.verdict := rfl
@[simp] theorem errorCompletion_errcode (e : Err) (s : State) : (errorCompletion e s).errcode = e.code := rfl
@[simp] theorem errorCompletion_lastOp (e : Err) (s : State) : (errorCompletion e s).lastOp = s.lastOp := rfl
@[simp] theorem errorCompletion_irqStatus (e : Err) (s : State) : (errorCompletion e s).irqStatus = s.irqStatus ||| (irqDone ||| irqErr) := rfl
@[simp] theorem errorCompletion_irqEnable (e : Err) (s : State) : (errorCompletion e s).irqEnable = s.irqEnable := rfl
@[simp] theorem errorCompletion_ctxState (e : Err) (s : State) : (errorCompletion e s).ctxState = s.ctxState := rfl
@[simp] theorem errorCompletion_bufFill (e : Err) (s : State) : (errorCompletion e s).bufFill = s.bufFill := rfl
@[simp] theorem errorCompletion_buf (e : Err) (s : State) : (errorCompletion e s).buf = s.buf := rfl
@[simp] theorem errorCompletion_srcAddr (e : Err) (s : State) : (errorCompletion e s).srcAddr = s.srcAddr := rfl
@[simp] theorem errorCompletion_srcLen (e : Err) (s : State) : (errorCompletion e s).srcLen = s.srcLen := rfl
@[simp] theorem errorCompletion_auxAddr (e : Err) (s : State) : (errorCompletion e s).auxAddr = s.auxAddr := rfl
@[simp] theorem errorCompletion_auxLen (e : Err) (s : State) : (errorCompletion e s).auxLen = s.auxLen := rfl
@[simp] theorem errorCompletion_dstAddr (e : Err) (s : State) : (errorCompletion e s).dstAddr = s.dstAddr := rfl
@[simp] theorem errorCompletion_dstLen (e : Err) (s : State) : (errorCompletion e s).dstLen = s.dstLen := rfl
@[simp] theorem errorCompletion_arg0 (e : Err) (s : State) : (errorCompletion e s).arg0 = s.arg0 := rfl
@[simp] theorem errorCompletion_arg1 (e : Err) (s : State) : (errorCompletion e s).arg1 = s.arg1 := rfl
@[simp] theorem errorCompletion_bitcntIn (e : Err) (s : State) : (errorCompletion e s).bitcntIn = s.bitcntIn := rfl
@[simp] theorem errorCompletion_stateIn (e : Err) (s : State) : (errorCompletion e s).stateIn = s.stateIn := rfl
@[simp] theorem errorCompletion_blk (e : Err) (s : State) : (errorCompletion e s).blk = s.blk := rfl
@[simp] theorem errorCompletion_result0 (e : Err) (s : State) : (errorCompletion e s).result0 = s.result0 := rfl
@[simp] theorem errorCompletion_result1 (e : Err) (s : State) : (errorCompletion e s).result1 = s.result1 := rfl
@[simp] theorem errorCompletion_bitcnt (e : Err) (s : State) : (errorCompletion e s).bitcnt = s.bitcnt := rfl
@[simp] theorem errorCompletion_v (e : Err) (s : State) : (errorCompletion e s).v = s.v := rfl
@[simp] theorem errorCompletion_digest (e : Err) (s : State) : (errorCompletion e s).digest = s.digest := rfl
@[simp] theorem errorCompletion_root (e : Err) (s : State) : (errorCompletion e s).root = s.root := rfl
@[simp] theorem errorCompletion_treeSealed (e : Err) (s : State) : (errorCompletion e s).treeSealed = s.treeSealed := rfl
@[simp] theorem errorCompletion_treeSorted (e : Err) (s : State) : (errorCompletion e s).treeSorted = s.treeSorted := rfl
@[simp] theorem errorCompletion_treeN (e : Err) (s : State) : (errorCompletion e s).treeN = s.treeN := rfl
@[simp] theorem errorCompletion_treeDesc (e : Err) (s : State) : (errorCompletion e s).treeDesc = s.treeDesc := rfl
@[simp] theorem errorCompletion_treeLda (e : Err) (s : State) : (errorCompletion e s).treeLda = s.treeLda := rfl
@[simp] theorem errorCompletion_mem (e : Err) (s : State) : (errorCompletion e s).mem = s.mem := rfl
@[simp] theorem errorCompletion_treeTouched (e : Err) (s : State) : (errorCompletion e s).treeTouched = s.treeTouched := rfl
@[simp] theorem errorCompletion_hostReads (e : Err) (s : State) : (errorCompletion e s).hostReads = s.hostReads := rfl
@[simp] theorem errorCompletion_hostWrites (e : Err) (s : State) : (errorCompletion e s).hostWrites = s.hostWrites := rfl
@[simp] theorem errorCompletion_draws (e : Err) (s : State) : (errorCompletion e s).draws = s.draws := rfl
@[simp] theorem errorCompletion_rdata (e : Err) (s : State) : (errorCompletion e s).rdata = s.rdata := rfl
@[simp] theorem errorCompletion_mdata (e : Err) (s : State) : (errorCompletion e s).mdata = s.mdata := rfl
@[simp] theorem errorCompletion_inputs (e : Err) (s : State) : (errorCompletion e s).inputs = s.inputs := rfl

/-! ### MemWrite (R16, R64): `memWrite` -/

@[simp] theorem memWrite_params (s : State) (a : Nat) (bs : Bytes) : (memWrite s a bs).params = s.params := rfl
@[simp] theorem memWrite_inflight (s : State) (a : Nat) (bs : Bytes) : (memWrite s a bs).inflight = s.inflight := rfl
@[simp] theorem memWrite_errFlag (s : State) (a : Nat) (bs : Bytes) : (memWrite s a bs).errFlag = s.errFlag := rfl
@[simp] theorem memWrite_verdict (s : State) (a : Nat) (bs : Bytes) : (memWrite s a bs).verdict = s.verdict := rfl
@[simp] theorem memWrite_errcode (s : State) (a : Nat) (bs : Bytes) : (memWrite s a bs).errcode = s.errcode := rfl
@[simp] theorem memWrite_lastOp (s : State) (a : Nat) (bs : Bytes) : (memWrite s a bs).lastOp = s.lastOp := rfl
@[simp] theorem memWrite_irqStatus (s : State) (a : Nat) (bs : Bytes) : (memWrite s a bs).irqStatus = s.irqStatus := rfl
@[simp] theorem memWrite_irqEnable (s : State) (a : Nat) (bs : Bytes) : (memWrite s a bs).irqEnable = s.irqEnable := rfl
@[simp] theorem memWrite_ctxState (s : State) (a : Nat) (bs : Bytes) : (memWrite s a bs).ctxState = s.ctxState := rfl
@[simp] theorem memWrite_bufFill (s : State) (a : Nat) (bs : Bytes) : (memWrite s a bs).bufFill = s.bufFill := rfl
@[simp] theorem memWrite_buf (s : State) (a : Nat) (bs : Bytes) : (memWrite s a bs).buf = s.buf := rfl
@[simp] theorem memWrite_srcAddr (s : State) (a : Nat) (bs : Bytes) : (memWrite s a bs).srcAddr = s.srcAddr := rfl
@[simp] theorem memWrite_srcLen (s : State) (a : Nat) (bs : Bytes) : (memWrite s a bs).srcLen = s.srcLen := rfl
@[simp] theorem memWrite_auxAddr (s : State) (a : Nat) (bs : Bytes) : (memWrite s a bs).auxAddr = s.auxAddr := rfl
@[simp] theorem memWrite_auxLen (s : State) (a : Nat) (bs : Bytes) : (memWrite s a bs).auxLen = s.auxLen := rfl
@[simp] theorem memWrite_dstAddr (s : State) (a : Nat) (bs : Bytes) : (memWrite s a bs).dstAddr = s.dstAddr := rfl
@[simp] theorem memWrite_dstLen (s : State) (a : Nat) (bs : Bytes) : (memWrite s a bs).dstLen = s.dstLen := rfl
@[simp] theorem memWrite_arg0 (s : State) (a : Nat) (bs : Bytes) : (memWrite s a bs).arg0 = s.arg0 := rfl
@[simp] theorem memWrite_arg1 (s : State) (a : Nat) (bs : Bytes) : (memWrite s a bs).arg1 = s.arg1 := rfl
@[simp] theorem memWrite_bitcntIn (s : State) (a : Nat) (bs : Bytes) : (memWrite s a bs).bitcntIn = s.bitcntIn := rfl
@[simp] theorem memWrite_stateIn (s : State) (a : Nat) (bs : Bytes) : (memWrite s a bs).stateIn = s.stateIn := rfl
@[simp] theorem memWrite_blk (s : State) (a : Nat) (bs : Bytes) : (memWrite s a bs).blk = s.blk := rfl
@[simp] theorem memWrite_result0 (s : State) (a : Nat) (bs : Bytes) : (memWrite s a bs).result0 = s.result0 := rfl
@[simp] theorem memWrite_result1 (s : State) (a : Nat) (bs : Bytes) : (memWrite s a bs).result1 = s.result1 := rfl
@[simp] theorem memWrite_bitcnt (s : State) (a : Nat) (bs : Bytes) : (memWrite s a bs).bitcnt = s.bitcnt := rfl
@[simp] theorem memWrite_v (s : State) (a : Nat) (bs : Bytes) : (memWrite s a bs).v = s.v := rfl
@[simp] theorem memWrite_digest (s : State) (a : Nat) (bs : Bytes) : (memWrite s a bs).digest = s.digest := rfl
@[simp] theorem memWrite_root (s : State) (a : Nat) (bs : Bytes) : (memWrite s a bs).root = s.root := rfl
@[simp] theorem memWrite_treeSealed (s : State) (a : Nat) (bs : Bytes) : (memWrite s a bs).treeSealed = s.treeSealed := rfl
@[simp] theorem memWrite_treeSorted (s : State) (a : Nat) (bs : Bytes) : (memWrite s a bs).treeSorted = s.treeSorted := rfl
@[simp] theorem memWrite_treeN (s : State) (a : Nat) (bs : Bytes) : (memWrite s a bs).treeN = s.treeN := rfl
@[simp] theorem memWrite_treeDesc (s : State) (a : Nat) (bs : Bytes) : (memWrite s a bs).treeDesc = s.treeDesc := rfl
@[simp] theorem memWrite_treeLda (s : State) (a : Nat) (bs : Bytes) : (memWrite s a bs).treeLda = s.treeLda := rfl
@[simp] theorem memWrite_mem (s : State) (a : Nat) (bs : Bytes) : (memWrite s a bs).mem = Memory.write s.mem a bs := rfl
@[simp] theorem memWrite_treeTouched (s : State) (a : Nat) (bs : Bytes) : (memWrite s a bs).treeTouched = (s.treeTouched || (treeMemory s).any fun r => r.meets ⟨a, bs.length⟩) := rfl
@[simp] theorem memWrite_hostReads (s : State) (a : Nat) (bs : Bytes) : (memWrite s a bs).hostReads = s.hostReads := rfl
@[simp] theorem memWrite_hostWrites (s : State) (a : Nat) (bs : Bytes) : (memWrite s a bs).hostWrites = s.hostWrites := rfl
@[simp] theorem memWrite_draws (s : State) (a : Nat) (bs : Bytes) : (memWrite s a bs).draws = s.draws := rfl
@[simp] theorem memWrite_rdata (s : State) (a : Nat) (bs : Bytes) : (memWrite s a bs).rdata = s.rdata := rfl
@[simp] theorem memWrite_mdata (s : State) (a : Nat) (bs : Bytes) : (memWrite s a bs).mdata = s.mdata := rfl
@[simp] theorem memWrite_inputs (s : State) (a : Nat) (bs : Bytes) : (memWrite s a bs).inputs = s.inputs := rfl

/-! ### The end of a host read (R27): `returned` -/

@[simp] theorem returned_params (s : State) (w : Word) : (returned s w).params = s.params := rfl
@[simp] theorem returned_inflight (s : State) (w : Word) : (returned s w).inflight = s.inflight := rfl
@[simp] theorem returned_errFlag (s : State) (w : Word) : (returned s w).errFlag = s.errFlag := rfl
@[simp] theorem returned_verdict (s : State) (w : Word) : (returned s w).verdict = s.verdict := rfl
@[simp] theorem returned_errcode (s : State) (w : Word) : (returned s w).errcode = s.errcode := rfl
@[simp] theorem returned_lastOp (s : State) (w : Word) : (returned s w).lastOp = s.lastOp := rfl
@[simp] theorem returned_irqStatus (s : State) (w : Word) : (returned s w).irqStatus = s.irqStatus := rfl
@[simp] theorem returned_irqEnable (s : State) (w : Word) : (returned s w).irqEnable = s.irqEnable := rfl
@[simp] theorem returned_ctxState (s : State) (w : Word) : (returned s w).ctxState = s.ctxState := rfl
@[simp] theorem returned_bufFill (s : State) (w : Word) : (returned s w).bufFill = s.bufFill := rfl
@[simp] theorem returned_buf (s : State) (w : Word) : (returned s w).buf = s.buf := rfl
@[simp] theorem returned_srcAddr (s : State) (w : Word) : (returned s w).srcAddr = s.srcAddr := rfl
@[simp] theorem returned_srcLen (s : State) (w : Word) : (returned s w).srcLen = s.srcLen := rfl
@[simp] theorem returned_auxAddr (s : State) (w : Word) : (returned s w).auxAddr = s.auxAddr := rfl
@[simp] theorem returned_auxLen (s : State) (w : Word) : (returned s w).auxLen = s.auxLen := rfl
@[simp] theorem returned_dstAddr (s : State) (w : Word) : (returned s w).dstAddr = s.dstAddr := rfl
@[simp] theorem returned_dstLen (s : State) (w : Word) : (returned s w).dstLen = s.dstLen := rfl
@[simp] theorem returned_arg0 (s : State) (w : Word) : (returned s w).arg0 = s.arg0 := rfl
@[simp] theorem returned_arg1 (s : State) (w : Word) : (returned s w).arg1 = s.arg1 := rfl
@[simp] theorem returned_bitcntIn (s : State) (w : Word) : (returned s w).bitcntIn = s.bitcntIn := rfl
@[simp] theorem returned_stateIn (s : State) (w : Word) : (returned s w).stateIn = s.stateIn := rfl
@[simp] theorem returned_blk (s : State) (w : Word) : (returned s w).blk = s.blk := rfl
@[simp] theorem returned_result0 (s : State) (w : Word) : (returned s w).result0 = s.result0 := rfl
@[simp] theorem returned_result1 (s : State) (w : Word) : (returned s w).result1 = s.result1 := rfl
@[simp] theorem returned_bitcnt (s : State) (w : Word) : (returned s w).bitcnt = s.bitcnt := rfl
@[simp] theorem returned_v (s : State) (w : Word) : (returned s w).v = s.v := rfl
@[simp] theorem returned_digest (s : State) (w : Word) : (returned s w).digest = s.digest := rfl
@[simp] theorem returned_root (s : State) (w : Word) : (returned s w).root = s.root := rfl
@[simp] theorem returned_treeSealed (s : State) (w : Word) : (returned s w).treeSealed = s.treeSealed := rfl
@[simp] theorem returned_treeSorted (s : State) (w : Word) : (returned s w).treeSorted = s.treeSorted := rfl
@[simp] theorem returned_treeN (s : State) (w : Word) : (returned s w).treeN = s.treeN := rfl
@[simp] theorem returned_treeDesc (s : State) (w : Word) : (returned s w).treeDesc = s.treeDesc := rfl
@[simp] theorem returned_treeLda (s : State) (w : Word) : (returned s w).treeLda = s.treeLda := rfl
@[simp] theorem returned_mem (s : State) (w : Word) : (returned s w).mem = s.mem := rfl
@[simp] theorem returned_treeTouched (s : State) (w : Word) : (returned s w).treeTouched = s.treeTouched := rfl
@[simp] theorem returned_hostReads (s : State) (w : Word) : (returned s w).hostReads = s.hostReads := rfl
@[simp] theorem returned_hostWrites (s : State) (w : Word) : (returned s w).hostWrites = s.hostWrites := rfl
@[simp] theorem returned_draws (s : State) (w : Word) : (returned s w).draws = s.draws := rfl
@[simp] theorem returned_rdata (s : State) (w : Word) : (returned s w).rdata = some w := rfl
@[simp] theorem returned_mdata (s : State) (w : Word) : (returned s w).mdata = s.mdata := rfl
@[simp] theorem returned_inputs (s : State) (w : Word) : (returned s w).inputs = s.inputs := rfl

/-! ### The end of a host read of a draw (R27, R29): `returnedDraw` -/

@[simp] theorem returnedDraw_params (s : State) : (returnedDraw s).params = s.params := rfl
@[simp] theorem returnedDraw_inflight (s : State) : (returnedDraw s).inflight = s.inflight := rfl
@[simp] theorem returnedDraw_errFlag (s : State) : (returnedDraw s).errFlag = s.errFlag := rfl
@[simp] theorem returnedDraw_verdict (s : State) : (returnedDraw s).verdict = s.verdict := rfl
@[simp] theorem returnedDraw_errcode (s : State) : (returnedDraw s).errcode = s.errcode := rfl
@[simp] theorem returnedDraw_lastOp (s : State) : (returnedDraw s).lastOp = s.lastOp := rfl
@[simp] theorem returnedDraw_irqStatus (s : State) : (returnedDraw s).irqStatus = s.irqStatus := rfl
@[simp] theorem returnedDraw_irqEnable (s : State) : (returnedDraw s).irqEnable = s.irqEnable := rfl
@[simp] theorem returnedDraw_ctxState (s : State) : (returnedDraw s).ctxState = s.ctxState := rfl
@[simp] theorem returnedDraw_bufFill (s : State) : (returnedDraw s).bufFill = s.bufFill := rfl
@[simp] theorem returnedDraw_buf (s : State) : (returnedDraw s).buf = s.buf := rfl
@[simp] theorem returnedDraw_srcAddr (s : State) : (returnedDraw s).srcAddr = s.srcAddr := rfl
@[simp] theorem returnedDraw_srcLen (s : State) : (returnedDraw s).srcLen = s.srcLen := rfl
@[simp] theorem returnedDraw_auxAddr (s : State) : (returnedDraw s).auxAddr = s.auxAddr := rfl
@[simp] theorem returnedDraw_auxLen (s : State) : (returnedDraw s).auxLen = s.auxLen := rfl
@[simp] theorem returnedDraw_dstAddr (s : State) : (returnedDraw s).dstAddr = s.dstAddr := rfl
@[simp] theorem returnedDraw_dstLen (s : State) : (returnedDraw s).dstLen = s.dstLen := rfl
@[simp] theorem returnedDraw_arg0 (s : State) : (returnedDraw s).arg0 = s.arg0 := rfl
@[simp] theorem returnedDraw_arg1 (s : State) : (returnedDraw s).arg1 = s.arg1 := rfl
@[simp] theorem returnedDraw_bitcntIn (s : State) : (returnedDraw s).bitcntIn = s.bitcntIn := rfl
@[simp] theorem returnedDraw_stateIn (s : State) : (returnedDraw s).stateIn = s.stateIn := rfl
@[simp] theorem returnedDraw_blk (s : State) : (returnedDraw s).blk = s.blk := rfl
@[simp] theorem returnedDraw_result0 (s : State) : (returnedDraw s).result0 = s.result0 := rfl
@[simp] theorem returnedDraw_result1 (s : State) : (returnedDraw s).result1 = s.result1 := rfl
@[simp] theorem returnedDraw_bitcnt (s : State) : (returnedDraw s).bitcnt = s.bitcnt := rfl
@[simp] theorem returnedDraw_v (s : State) : (returnedDraw s).v = s.v := rfl
@[simp] theorem returnedDraw_digest (s : State) : (returnedDraw s).digest = s.digest := rfl
@[simp] theorem returnedDraw_root (s : State) : (returnedDraw s).root = s.root := rfl
@[simp] theorem returnedDraw_treeSealed (s : State) : (returnedDraw s).treeSealed = s.treeSealed := rfl
@[simp] theorem returnedDraw_treeSorted (s : State) : (returnedDraw s).treeSorted = s.treeSorted := rfl
@[simp] theorem returnedDraw_treeN (s : State) : (returnedDraw s).treeN = s.treeN := rfl
@[simp] theorem returnedDraw_treeDesc (s : State) : (returnedDraw s).treeDesc = s.treeDesc := rfl
@[simp] theorem returnedDraw_treeLda (s : State) : (returnedDraw s).treeLda = s.treeLda := rfl
@[simp] theorem returnedDraw_mem (s : State) : (returnedDraw s).mem = s.mem := rfl
@[simp] theorem returnedDraw_treeTouched (s : State) : (returnedDraw s).treeTouched = s.treeTouched := rfl
@[simp] theorem returnedDraw_hostReads (s : State) : (returnedDraw s).hostReads = s.hostReads := rfl
@[simp] theorem returnedDraw_hostWrites (s : State) : (returnedDraw s).hostWrites = s.hostWrites := rfl
@[simp] theorem returnedDraw_draws (s : State) : (returnedDraw s).draws = s.draws + 1 := rfl
@[simp] theorem returnedDraw_rdata (s : State) : (returnedDraw s).rdata = some (Config.freeWord s.draws 0) := rfl
@[simp] theorem returnedDraw_mdata (s : State) : (returnedDraw s).mdata = s.mdata := rfl
@[simp] theorem returnedDraw_inputs (s : State) : (returnedDraw s).inputs = s.inputs := rfl

/-! ### Either reset (R45, R159, R160): `resetRegisters` -/

@[simp] theorem resetRegisters_params (s : State) : (resetRegisters s).params = s.params := rfl
@[simp] theorem resetRegisters_inflight (s : State) : (resetRegisters s).inflight = State.reset.inflight := rfl
@[simp] theorem resetRegisters_errFlag (s : State) : (resetRegisters s).errFlag = State.reset.errFlag := rfl
@[simp] theorem resetRegisters_verdict (s : State) : (resetRegisters s).verdict = State.reset.verdict := rfl
@[simp] theorem resetRegisters_errcode (s : State) : (resetRegisters s).errcode = State.reset.errcode := rfl
@[simp] theorem resetRegisters_lastOp (s : State) : (resetRegisters s).lastOp = State.reset.lastOp := rfl
@[simp] theorem resetRegisters_irqStatus (s : State) : (resetRegisters s).irqStatus = State.reset.irqStatus := rfl
@[simp] theorem resetRegisters_irqEnable (s : State) : (resetRegisters s).irqEnable = State.reset.irqEnable := rfl
@[simp] theorem resetRegisters_ctxState (s : State) : (resetRegisters s).ctxState = State.reset.ctxState := rfl
@[simp] theorem resetRegisters_bufFill (s : State) : (resetRegisters s).bufFill = State.reset.bufFill := rfl
@[simp] theorem resetRegisters_buf (s : State) : (resetRegisters s).buf = State.reset.buf := rfl
@[simp] theorem resetRegisters_srcAddr (s : State) : (resetRegisters s).srcAddr = State.reset.srcAddr := rfl
@[simp] theorem resetRegisters_srcLen (s : State) : (resetRegisters s).srcLen = State.reset.srcLen := rfl
@[simp] theorem resetRegisters_auxAddr (s : State) : (resetRegisters s).auxAddr = State.reset.auxAddr := rfl
@[simp] theorem resetRegisters_auxLen (s : State) : (resetRegisters s).auxLen = State.reset.auxLen := rfl
@[simp] theorem resetRegisters_dstAddr (s : State) : (resetRegisters s).dstAddr = State.reset.dstAddr := rfl
@[simp] theorem resetRegisters_dstLen (s : State) : (resetRegisters s).dstLen = State.reset.dstLen := rfl
@[simp] theorem resetRegisters_arg0 (s : State) : (resetRegisters s).arg0 = State.reset.arg0 := rfl
@[simp] theorem resetRegisters_arg1 (s : State) : (resetRegisters s).arg1 = State.reset.arg1 := rfl
@[simp] theorem resetRegisters_bitcntIn (s : State) : (resetRegisters s).bitcntIn = State.reset.bitcntIn := rfl
@[simp] theorem resetRegisters_stateIn (s : State) : (resetRegisters s).stateIn = State.reset.stateIn := rfl
@[simp] theorem resetRegisters_blk (s : State) : (resetRegisters s).blk = State.reset.blk := rfl
@[simp] theorem resetRegisters_result0 (s : State) : (resetRegisters s).result0 = State.reset.result0 := rfl
@[simp] theorem resetRegisters_result1 (s : State) : (resetRegisters s).result1 = State.reset.result1 := rfl
@[simp] theorem resetRegisters_bitcnt (s : State) : (resetRegisters s).bitcnt = State.reset.bitcnt := rfl
@[simp] theorem resetRegisters_v (s : State) : (resetRegisters s).v = State.reset.v := rfl
@[simp] theorem resetRegisters_digest (s : State) : (resetRegisters s).digest = State.reset.digest := rfl
@[simp] theorem resetRegisters_root (s : State) : (resetRegisters s).root = State.reset.root := rfl
@[simp] theorem resetRegisters_treeSealed (s : State) : (resetRegisters s).treeSealed = State.reset.treeSealed := rfl
@[simp] theorem resetRegisters_treeSorted (s : State) : (resetRegisters s).treeSorted = State.reset.treeSorted := rfl
@[simp] theorem resetRegisters_treeN (s : State) : (resetRegisters s).treeN = State.reset.treeN := rfl
@[simp] theorem resetRegisters_treeDesc (s : State) : (resetRegisters s).treeDesc = State.reset.treeDesc := rfl
@[simp] theorem resetRegisters_treeLda (s : State) : (resetRegisters s).treeLda = State.reset.treeLda := rfl
@[simp] theorem resetRegisters_mem (s : State) : (resetRegisters s).mem = s.mem := rfl
@[simp] theorem resetRegisters_treeTouched (s : State) : (resetRegisters s).treeTouched = State.reset.treeTouched := rfl
@[simp] theorem resetRegisters_hostReads (s : State) : (resetRegisters s).hostReads = State.reset.hostReads := rfl
@[simp] theorem resetRegisters_hostWrites (s : State) : (resetRegisters s).hostWrites = State.reset.hostWrites := rfl
@[simp] theorem resetRegisters_draws (s : State) : (resetRegisters s).draws = s.draws := rfl
@[simp] theorem resetRegisters_rdata (s : State) : (resetRegisters s).rdata = s.rdata := rfl
@[simp] theorem resetRegisters_mdata (s : State) : (resetRegisters s).mdata = s.mdata := rfl
@[simp] theorem resetRegisters_inputs (s : State) : (resetRegisters s).inputs = s.inputs := rfl

/-! ### The state after an error completion (R142): `errored` -/

@[simp] theorem errored_params (s : State) (e : Err) : (errored s e).params = s.params := rfl
@[simp] theorem errored_inflight (s : State) (e : Err) : (errored s e).inflight = none := rfl
@[simp] theorem errored_errFlag (s : State) (e : Err) : (errored s e).errFlag = true := rfl
@[simp] theorem errored_verdict (s : State) (e : Err) : (errored s e).verdict = s.verdict := rfl
@[simp] theorem errored_errcode (s : State) (e : Err) : (errored s e).errcode = e.code := rfl
@[simp] theorem errored_lastOp (s : State) (e : Err) : (errored s e).lastOp = s.lastOp := rfl
@[simp] theorem errored_irqStatus (s : State) (e : Err) : (errored s e).irqStatus = s.irqStatus ||| 0b011 := rfl
@[simp] theorem errored_irqEnable (s : State) (e : Err) : (errored s e).irqEnable = s.irqEnable := rfl
@[simp] theorem errored_ctxState (s : State) (e : Err) : (errored s e).ctxState = s.ctxState := rfl
@[simp] theorem errored_bufFill (s : State) (e : Err) : (errored s e).bufFill = s.bufFill := rfl
@[simp] theorem errored_buf (s : State) (e : Err) : (errored s e).buf = s.buf := rfl
@[simp] theorem errored_srcAddr (s : State) (e : Err) : (errored s e).srcAddr = s.srcAddr := rfl
@[simp] theorem errored_srcLen (s : State) (e : Err) : (errored s e).srcLen = s.srcLen := rfl
@[simp] theorem errored_auxAddr (s : State) (e : Err) : (errored s e).auxAddr = s.auxAddr := rfl
@[simp] theorem errored_auxLen (s : State) (e : Err) : (errored s e).auxLen = s.auxLen := rfl
@[simp] theorem errored_dstAddr (s : State) (e : Err) : (errored s e).dstAddr = s.dstAddr := rfl
@[simp] theorem errored_dstLen (s : State) (e : Err) : (errored s e).dstLen = s.dstLen := rfl
@[simp] theorem errored_arg0 (s : State) (e : Err) : (errored s e).arg0 = s.arg0 := rfl
@[simp] theorem errored_arg1 (s : State) (e : Err) : (errored s e).arg1 = s.arg1 := rfl
@[simp] theorem errored_bitcntIn (s : State) (e : Err) : (errored s e).bitcntIn = s.bitcntIn := rfl
@[simp] theorem errored_stateIn (s : State) (e : Err) : (errored s e).stateIn = s.stateIn := rfl
@[simp] theorem errored_blk (s : State) (e : Err) : (errored s e).blk = s.blk := rfl
@[simp] theorem errored_result0 (s : State) (e : Err) : (errored s e).result0 = s.result0 := rfl
@[simp] theorem errored_result1 (s : State) (e : Err) : (errored s e).result1 = s.result1 := rfl
@[simp] theorem errored_bitcnt (s : State) (e : Err) : (errored s e).bitcnt = s.bitcnt := rfl
@[simp] theorem errored_v (s : State) (e : Err) : (errored s e).v = s.v := rfl
@[simp] theorem errored_digest (s : State) (e : Err) : (errored s e).digest = s.digest := rfl
@[simp] theorem errored_root (s : State) (e : Err) : (errored s e).root = s.root := rfl
@[simp] theorem errored_treeSealed (s : State) (e : Err) : (errored s e).treeSealed = s.treeSealed := rfl
@[simp] theorem errored_treeSorted (s : State) (e : Err) : (errored s e).treeSorted = s.treeSorted := rfl
@[simp] theorem errored_treeN (s : State) (e : Err) : (errored s e).treeN = s.treeN := rfl
@[simp] theorem errored_treeDesc (s : State) (e : Err) : (errored s e).treeDesc = s.treeDesc := rfl
@[simp] theorem errored_treeLda (s : State) (e : Err) : (errored s e).treeLda = s.treeLda := rfl
@[simp] theorem errored_mem (s : State) (e : Err) : (errored s e).mem = s.mem := rfl
@[simp] theorem errored_treeTouched (s : State) (e : Err) : (errored s e).treeTouched = s.treeTouched := rfl
@[simp] theorem errored_hostReads (s : State) (e : Err) : (errored s e).hostReads = [] := rfl
@[simp] theorem errored_hostWrites (s : State) (e : Err) : (errored s e).hostWrites = [] := rfl
@[simp] theorem errored_draws (s : State) (e : Err) : (errored s e).draws = s.draws := rfl
@[simp] theorem errored_rdata (s : State) (e : Err) : (errored s e).rdata = s.rdata := rfl
@[simp] theorem errored_mdata (s : State) (e : Err) : (errored s e).mdata = s.mdata := rfl
@[simp] theorem errored_inputs (s : State) (e : Err) : (errored s e).inputs = s.inputs := rfl

/-! ### The state after a successful completion (R141): `succeeded` -/

@[simp] theorem succeeded_params (s : State) : (succeeded s).params = s.params := rfl
@[simp] theorem succeeded_inflight (s : State) : (succeeded s).inflight = none := rfl
@[simp] theorem succeeded_errFlag (s : State) : (succeeded s).errFlag = s.errFlag := rfl
@[simp] theorem succeeded_verdict (s : State) : (succeeded s).verdict = s.verdict := rfl
@[simp] theorem succeeded_errcode (s : State) : (succeeded s).errcode = s.errcode := rfl
@[simp] theorem succeeded_lastOp (s : State) : (succeeded s).lastOp = s.lastOp := rfl
@[simp] theorem succeeded_irqStatus (s : State) : (succeeded s).irqStatus = s.irqStatus ||| 0b001 := rfl
@[simp] theorem succeeded_irqEnable (s : State) : (succeeded s).irqEnable = s.irqEnable := rfl
@[simp] theorem succeeded_ctxState (s : State) : (succeeded s).ctxState = s.ctxState := rfl
@[simp] theorem succeeded_bufFill (s : State) : (succeeded s).bufFill = s.bufFill := rfl
@[simp] theorem succeeded_buf (s : State) : (succeeded s).buf = s.buf := rfl
@[simp] theorem succeeded_srcAddr (s : State) : (succeeded s).srcAddr = s.srcAddr := rfl
@[simp] theorem succeeded_srcLen (s : State) : (succeeded s).srcLen = s.srcLen := rfl
@[simp] theorem succeeded_auxAddr (s : State) : (succeeded s).auxAddr = s.auxAddr := rfl
@[simp] theorem succeeded_auxLen (s : State) : (succeeded s).auxLen = s.auxLen := rfl
@[simp] theorem succeeded_dstAddr (s : State) : (succeeded s).dstAddr = s.dstAddr := rfl
@[simp] theorem succeeded_dstLen (s : State) : (succeeded s).dstLen = s.dstLen := rfl
@[simp] theorem succeeded_arg0 (s : State) : (succeeded s).arg0 = s.arg0 := rfl
@[simp] theorem succeeded_arg1 (s : State) : (succeeded s).arg1 = s.arg1 := rfl
@[simp] theorem succeeded_bitcntIn (s : State) : (succeeded s).bitcntIn = s.bitcntIn := rfl
@[simp] theorem succeeded_stateIn (s : State) : (succeeded s).stateIn = s.stateIn := rfl
@[simp] theorem succeeded_blk (s : State) : (succeeded s).blk = s.blk := rfl
@[simp] theorem succeeded_result0 (s : State) : (succeeded s).result0 = s.result0 := rfl
@[simp] theorem succeeded_result1 (s : State) : (succeeded s).result1 = s.result1 := rfl
@[simp] theorem succeeded_bitcnt (s : State) : (succeeded s).bitcnt = s.bitcnt := rfl
@[simp] theorem succeeded_v (s : State) : (succeeded s).v = s.v := rfl
@[simp] theorem succeeded_digest (s : State) : (succeeded s).digest = s.digest := rfl
@[simp] theorem succeeded_root (s : State) : (succeeded s).root = s.root := rfl
@[simp] theorem succeeded_treeSealed (s : State) : (succeeded s).treeSealed = s.treeSealed := rfl
@[simp] theorem succeeded_treeSorted (s : State) : (succeeded s).treeSorted = s.treeSorted := rfl
@[simp] theorem succeeded_treeN (s : State) : (succeeded s).treeN = s.treeN := rfl
@[simp] theorem succeeded_treeDesc (s : State) : (succeeded s).treeDesc = s.treeDesc := rfl
@[simp] theorem succeeded_treeLda (s : State) : (succeeded s).treeLda = s.treeLda := rfl
@[simp] theorem succeeded_mem (s : State) : (succeeded s).mem = s.mem := rfl
@[simp] theorem succeeded_treeTouched (s : State) : (succeeded s).treeTouched = s.treeTouched := rfl
@[simp] theorem succeeded_hostReads (s : State) : (succeeded s).hostReads = [] := rfl
@[simp] theorem succeeded_hostWrites (s : State) : (succeeded s).hostWrites = [] := rfl
@[simp] theorem succeeded_draws (s : State) : (succeeded s).draws = s.draws := rfl
@[simp] theorem succeeded_rdata (s : State) : (succeeded s).rdata = s.rdata := rfl
@[simp] theorem succeeded_mdata (s : State) : (succeeded s).mdata = s.mdata := rfl
@[simp] theorem succeeded_inputs (s : State) : (succeeded s).inputs = s.inputs := rfl

end Sys2Proof.Machine
end

