-- ==== Sys2Proof/Laws/Ops.lean ====
section
/-! SUPPORT. What the shared operations of a completion can do (spec/60_exceptions.md R140 to R143): the two shapes of a
completion, the check-phase combinators, and a completion whose outcome is no draw. -/

namespace Sys2Proof.Machine

@[simp] theorem complete_error (s : State) (e : Err) : complete s (.error e) = errored s e := rfl

@[simp] theorem complete_ok (s : State) (e : Effect) : complete s (.ok e) = succeeded (applyEffect s e) := rfl

/-- Every command completes with the answer of its check phase, or with draws. -/
theorem exec_eq (i : Instr) (s : State) : exec i s = .next (finish i s (checkOf i s)) := by
  cases i <;> rfl

/-- Where nothing makes the outcome a draw, a command completes with its check phase's answer (R141). -/
theorem exec_undisturbed (i : Instr) (s : State) (h : undisturbed i s) :
    exec i s = .next (complete s (checkOf i s).res) := by
  obtain ⟨h1, h2, h3⟩ := h
  rw [exec_eq, finish, resolve, h1, h2, h3]
  rfl

/-- A command whose own ranges overlap completes with its check phase's answer, the values written being draws (R63). -/
theorem exec_selfOverlap (i : Instr) (s : State) (h1 : hostBreach s (checkOf i s) = false)
    (h2 : staleTree i s = false) (h3 : selfOverlap (checkOf i s) = true) :
    exec i s = .next (complete { s with draws := s.draws + 1 } ((checkOf i s).res.map (Effect.drawn s.draws))) := by
  rw [exec_eq, finish, resolve, h1, h2, h3]
  rfl

/-- After a broken duty, or on a changed tree, a command completes with a drawn outcome (R62, R64). -/
theorem exec_drawn (i : Instr) (s : State) (h : hostBreach s (checkOf i s) = true ∨ staleTree i s = true) :
    exec i s = .next (complete { s with draws := s.draws + 1 } (drawnOutcome i s s.draws)) := by
  rw [exec_eq, finish, resolve, if_pos (by simpa using h)]

/-- A drawn BITCNT and BUF_FILL keep R35 (a), as every undrawn pair does. -/
theorem drawnCount_aligned (d : Nat) : (drawnCount d).toNat % 512 = 8 * (drawnFill d).toNat := by
  have h := (drawnFill d).isLt
  rw [drawnCount, BitVec.toNat_ofNat]
  omega

/-- A check phase that reads a byte it then writes overlaps itself (R63). -/
theorem selfOverlap_of_mem (c : Check) (r : Range) (hr : r ∈ c.reads) (h : r.meets c.writeRange = true) :
    selfOverlap c = true := List.any_eq_true.mpr ⟨r, hr, h⟩

/-- The three ways a completion comes to its outcome (R62 to R64, R141). -/
theorem resolve_cases (i : Instr) (s : State) (c : Check) :
    ((hostBreach s c = true ∨ staleTree i s = true) ∧ resolve i s c = (drawnOutcome i s s.draws, 1)) ∨
    (hostBreach s c = false ∧ staleTree i s = false ∧ selfOverlap c = true ∧
      resolve i s c = (c.res.map (Effect.drawn s.draws), 1)) ∨
    (hostBreach s c = false ∧ staleTree i s = false ∧ selfOverlap c = false ∧ resolve i s c = (c.res, 0)) := by
  simp only [resolve]
  cases hostBreach s c <;> cases staleTree i s <;> cases selfOverlap c <;> simp

/-- A drawn outcome is an error the command can raise, or its drawn write phase (R62). -/
theorem drawnOutcome_cases (i : Instr) (s : State) (d : Nat) :
    (∃ e ∈ raises i, drawnOutcome i s d = .error e) ∨ drawnOutcome i s d = .ok (drawnEffect i s d) := by
  simp only [drawnOutcome]
  split
  · rename_i e he
    exact .inl ⟨e, List.mem_of_getElem? he, rfl⟩
  · exact .inr rfl

/-! ### The check phase -/

@[simp] theorem Check.raise_res (e : Err) : (Check.raise e).res = .error e := rfl

@[simp] theorem Check.raise_reads (e : Err) : (Check.raise e).reads = [] := rfl

@[simp] theorem Check.done_res (e : Effect) : (Check.done e).res = .ok e := rfl

@[simp] theorem Check.done_reads (e : Effect) : (Check.done e).reads = [] := rfl

theorem Check.raiseIf_pos {c : Prop} [Decidable c] (h : c) (e : Err) (k : Unit → Check) :
    Check.raiseIf c e k = .raise e := if_pos h

theorem Check.raiseIf_neg {c : Prop} [Decidable c] (h : ¬ c) (e : Err) (k : Unit → Check) :
    Check.raiseIf c e k = k () := if_neg h

theorem Check.raiseIf_res (c : Prop) [Decidable c] (e : Err) (k : Unit → Check) :
    (Check.raiseIf c e k).res = if c then .error e else (k ()).res := by
  simp only [Check.raiseIf]
  split <;> rfl

theorem Check.raiseIf_reads (c : Prop) [Decidable c] (e : Err) (k : Unit → Check) :
    (Check.raiseIf c e k).reads = if c then [] else (k ()).reads := by
  simp only [Check.raiseIf]
  split <;> rfl

theorem Check.raiseIf_writeRange (c : Prop) [Decidable c] (e : Err) (k : Unit → Check) :
    (Check.raiseIf c e k).writeRange = if c then ⟨0, 0⟩ else (k ()).writeRange := by
  simp only [Check.raiseIf]
  split <;> rfl

@[simp] theorem Check.raise_writeRange (e : Err) : (Check.raise e).writeRange = ⟨0, 0⟩ := rfl

@[simp] theorem Check.done_writeRange (e : Effect) : (Check.done e).writeRange = e.range := rfl

@[simp] theorem Effect.ofRegs_range (ws : List RegWrite) : (Effect.ofRegs ws).range = ⟨0, 0⟩ := rfl

theorem Check.memRead_res (s : State) (a n : Nat) (k : Bytes → Check) :
    (Check.memRead s a n k).res
      = if rangeOk s a n then (k (Memory.read s.mem a n)).res else .error .busError := by
  simp only [Check.memRead]
  split <;> rfl

theorem Check.memRead_reads (s : State) (a n : Nat) (k : Bytes → Check) :
    (Check.memRead s a n k).reads
      = if rangeOk s a n then ⟨a, n⟩ :: (k (Memory.read s.mem a n)).reads else [] := by
  simp only [Check.memRead]
  split <;> rfl

theorem Check.memRead_res_ok (s : State) (a n : Nat) (k : Bytes → Check) (h : rangeOk s a n = true) :
    (Check.memRead s a n k).res = (k (Memory.read s.mem a n)).res := by
  rw [Check.memRead_res, if_pos h]

theorem Check.memRead_res_bad (s : State) (a n : Nat) (k : Bytes → Check) (h : ¬ rangeOk s a n = true) :
    (Check.memRead s a n k).res = .error .busError := by
  rw [Check.memRead_res, if_neg h]

@[simp] theorem Check.except_error {α : Type} (e : Err) (k : α → Check) :
    Check.except (.error e) k = .raise e := rfl

@[simp] theorem Check.except_ok {α : Type} (a : α) (k : α → Check) : Check.except (.ok a) k = k a := rfl

theorem rangeOk_iff (s : State) (a n : Nat) : rangeOk s a n = true ↔ n = 0 ∨ a + n ≤ s.params.memBytes := by
  simp [rangeOk]

/-- A range inside a valid range is valid (R47). -/
theorem rangeOk_sub (s : State) (a n i k : Nat) (h : rangeOk s a n = true) (hk : i + k ≤ n) :
    rangeOk s (a + i) k = true := by
  rw [rangeOk_iff] at h ⊢
  omega

theorem rangeOk_congr (s t : State) (hp : t.params = s.params) (a n : Nat) : rangeOk t a n = rangeOk s a n := by
  rw [Bool.eq_iff_iff, rangeOk_iff, rangeOk_iff, hp]

/-- MemRead looks at memory and the memory size alone. -/
theorem Check.memRead_congr (s t : State) (hm : t.mem = s.mem) (hp : t.params = s.params) (a n : Nat)
    (k : Bytes → Check) : Check.memRead t a n k = Check.memRead s a n k := by
  rw [Check.memRead, Check.memRead, hm, rangeOk_congr s t hp]

/-- The leaves loop looks at memory and the memory size alone. -/
theorem Check.leaves_congr (s t : State) (hm : t.mem = s.mem) (hp : t.params = s.params) (table : Nat) :
    ∀ (count i : Nat) (k : List Bytes → Check), Check.leaves t table count i k = Check.leaves s table count i k := by
  intro count
  induction count with
  | zero => exact fun _ _ => rfl
  | succ count ih =>
    intro i k
    simp only [Check.leaves, Check.memRead_congr s t hm hp, ih]

/-- The leaves loop, when every descriptor is in range and every leaf passes its checks (R133). -/
theorem Check.leaves_res (s : State) (table : Nat) : ∀ (count i : Nat) (k : List Bytes → Check),
    (∀ j, i ≤ j → j < i + count → rangeOk s (table + 16 * j) 16 = true ∧ leafOk s table j) →
    (Check.leaves s table count i k).res = (k ((List.range' i count).map (leafOf s table))).res := by
  intro count
  induction count with
  | zero => exact fun _ _ _ => rfl
  | succ count ih =>
    intro i k h
    obtain ⟨h1, h2, h3⟩ := h i (Nat.le_refl i) (by omega)
    simp only [descriptor] at h2 h3
    rw [Check.leaves, Check.memRead_res_ok _ _ _ _ h1, Check.raiseIf_neg (by omega),
      Check.memRead_res_ok _ _ _ _ ((rangeOk_iff _ _ _).mpr h3), ih _ _ (fun j hj hj' => h j (by omega) (by omega))]
    rfl

/-- The leaves loop up to the first leaf that fails (R133). -/
theorem Check.leaves_fail (s : State) (table : Nat) (e : Err) : ∀ (count i f : Nat) (k : List Bytes → Check),
    i ≤ f → f < i + count →
    (∀ j, i ≤ j → j < f → rangeOk s (table + 16 * j) 16 = true ∧ leafOk s table j) →
    rangeOk s (table + 16 * f) 16 = true →
    (e = .lengthOverflow ∧ ¬ 8 * (descLen (descriptor s table f) + 1) ≤ maxBits ∨
      e = .busError ∧ 8 * (descLen (descriptor s table f) + 1) ≤ maxBits ∧
        rangeOk s (descAddr (descriptor s table f)) (descLen (descriptor s table f)) = false) →
    (Check.leaves s table count i k).res = .error e := by
  intro count
  induction count with
  | zero => intro i f k h1 h2; omega
  | succ count ih =>
    intro i f k h1 h2 hall hr he
    rcases Nat.eq_or_lt_of_le h1 with rfl | hlt
    · rw [Check.leaves, Check.memRead_res_ok _ _ _ _ hr]
      simp only [descriptor] at he
      rcases he with ⟨rfl, h3⟩ | ⟨rfl, h3, h4⟩
      · rw [Check.raiseIf_pos (by omega)]
        rfl
      · rw [Check.raiseIf_neg (by omega), Check.memRead_res_bad _ _ _ _ (by simp [h4])]
    · obtain ⟨g1, g2, g3⟩ := hall i (Nat.le_refl i) hlt
      simp only [descriptor] at g2 g3
      rw [Check.leaves, Check.memRead_res_ok _ _ _ _ g1, Check.raiseIf_neg (by omega),
        Check.memRead_res_ok _ _ _ _ ((rangeOk_iff _ _ _).mpr g3)]
      exact ih _ _ _ (by omega) (by omega) (fun j hj hj' => hall j (by omega) hj') hr he

/-! ### What makes the outcome a draw -/

@[simp] theorem Range.meets_zero_right (r : Range) (a : Nat) : r.meets ⟨a, 0⟩ = false := by simp [Range.meets]

@[simp] theorem Range.meets_zero_left (r : Range) (a : Nat) : Range.meets ⟨a, 0⟩ r = false := by simp [Range.meets]

/-- A command that writes no memory never overlaps itself. -/
theorem selfOverlap_of_writeRange (c : Check) (a : Nat) (h : c.writeRange = ⟨a, 0⟩) : selfOverlap c = false := by
  rw [selfOverlap, h, List.any_eq_false]
  simp

/-- A command that writes no memory breaks no duty while the host writes nothing. -/
theorem hostBreach_of_writeRange (s : State) (c : Check) (a : Nat) (h : c.writeRange = ⟨a, 0⟩)
    (hw : c.reads = [] ∨ s.hostWrites = []) : hostBreach s c = false := by
  rw [hostBreach, h, Bool.or_eq_false_iff, List.any_eq_false, List.any_eq_false]
  refine ⟨?_, by simp⟩
  rcases hw with hw | hw <;> simp [hw]

/-- The commands that touch no memory are never disturbed. -/
theorem undisturbed_of_no_memory (i : Instr) (s : State)
    (hi : i ∈ [Instr.nop, .sm3Init, .sm3Inject, .sm3Compress, .sm3Final]) : undisturbed i s := by
  have h : (checkOf i s).reads = [] ∧ (checkOf i s).writeRange = ⟨0, 0⟩ := by
    simp only [List.mem_cons, List.not_mem_nil, or_false] at hi
    rcases hi with rfl | rfl | rfl | rfl | rfl <;>
      simp [checkOf, checkNop, checkSm3Init, checkSm3Inject, checkSm3Compress, checkSm3Final, Check.raiseIf_reads,
        Check.raiseIf_writeRange]
  refine ⟨hostBreach_of_writeRange s _ 0 h.2 (.inl h.1), selfOverlap_of_writeRange _ 0 h.2, ?_⟩
  simp only [List.mem_cons, List.not_mem_nil, or_false] at hi
  rcases hi with rfl | rfl | rfl | rfl | rfl <;> rfl

/-! ### The write phase -/

/-- A MemWrite of no byte changes nothing (R16). -/
@[simp] theorem memWrite_nil (s : State) (a : Nat) : memWrite s a [] = s := by
  have h : ((treeMemory s).any fun r => r.meets ⟨a, ([] : Bytes).length⟩) = false :=
    List.any_eq_false.mpr fun r _ => by simp
  rw [memWrite, h, Bool.or_false]
  rfl

@[simp] theorem applyRegs_nil (s : State) : applyRegs s [] = s := rfl

@[simp] theorem applyRegs_cons (s : State) (w : RegWrite) (ws : List RegWrite) :
    applyRegs s (w :: ws) = applyRegs (w.apply s) ws := rfl

@[simp] theorem applyEffect_ofRegs (s : State) (ws : List RegWrite) :
    applyEffect s (.ofRegs ws) = applyRegs s ws := by
  simp [applyEffect, Effect.ofRegs]

/-- A property of one state that each register write of a list keeps is kept by the list. -/
theorem applyRegs_induct {P : State → Prop} (ws : List RegWrite) : ∀ s : State,
    (∀ w ∈ ws, ∀ t, P t → P (RegWrite.apply t w)) → P s → P (applyRegs s ws) := by
  induction ws with
  | nil => exact fun _ _ h => h
  | cons w ws ih =>
    intro s h hs
    exact ih _ (fun w' hw' => h w' (by simp [hw'])) (h w (by simp) s hs)

/-- A view of the state that no register write of a list changes is kept by the list. -/
theorem applyRegs_frame {α : Type} (f : State → α) (ws : List RegWrite)
    (h : ∀ w ∈ ws, ∀ t, f (RegWrite.apply t w) = f t) (s : State) : f (applyRegs s ws) = f s :=
  applyRegs_induct (P := fun t => f t = f s) ws s (fun w hw t ht => (h w hw t).trans ht) rfl

/-- A register write changes registers of the engine alone: no byte of memory. -/
@[simp] theorem RegWrite.apply_mem (s : State) (w : RegWrite) : (RegWrite.apply s w).mem = s.mem := by
  cases w <;> rfl

@[simp] theorem applyRegs_mem (s : State) (ws : List RegWrite) : (applyRegs s ws).mem = s.mem :=
  applyRegs_frame State.mem ws (fun w _ t => RegWrite.apply_mem t w) s

/-- A write phase writes memory by its one MemWrite (R143). -/
@[simp] theorem applyEffect_mem (s : State) (e : Effect) :
    (applyEffect s e).mem = Memory.write s.mem e.addr e.bytes := by
  simp [applyEffect]

/-- The BUF write of a context's opening or end: all zero (R102, R106). -/
@[simp] theorem bufStore_zeros (b : Vector Byte 64) : bufStore b (zeros 64) = Vector.replicate 64 0 := by
  apply Vector.toArray_inj.mp
  have h : b.toList.drop 64 = [] := List.drop_of_length_le (by simp)
  simp only [bufStore, length_zeros, h, List.append_nil]
  rfl

/-- The bytes of BUF after `BUF[0 : len] <- bytes` (R104). -/
theorem bufStore_toList (b : Vector Byte 64) (bytes : Bytes) (h : bytes.length ≤ 64) :
    (bufStore b bytes).toList = bytes ++ b.toList.drop bytes.length := by
  simp only [bufStore, Vector.toList, List.toList_toArray]
  rw [List.take_of_length_le]
  simp
  omega

end Sys2Proof.Machine
end

