-- ==== Sys2Proof/Laws/Effects.lean ====
section
/-! SUPPORT. What each write phase leaves (spec/60_exceptions.md R141, R143), for any values: one lemma per shape of write
phase. The values are variables here, so that no proof has to look inside a hash to see which field it lands in. -/

namespace Sys2Proof.Machine

/-- NOP (R101). -/
theorem complete_nop (s : State) : complete s (.ok (.ofRegs [])) = succeeded s := by simp

/-- SM3_INIT and SM3_INJECT (R102, R103). -/
theorem complete_open (s : State) (x : Words8) (y : U64) :
    complete s (.ok (.ofRegs (openContext x y)))
      = { succeeded s with v := x, bitcnt := y, buf := Vector.replicate 64 0, bufFill := 0, ctxState := .active } := by
  simp only [complete_ok, applyEffect_ofRegs, openContext, applyRegs_cons, applyRegs_nil, RegWrite.apply, bufStore_zeros]
  rfl

/-- SM3_UPDATE (R104). -/
theorem complete_update (s : State) (x : Words8) (y : U64) (b : Bytes) (n : BitVec 6) :
    complete s (.ok (.ofRegs [.v x, .bitcnt y, .buf b, .bufFill n]))
      = { succeeded s with v := x, bitcnt := y, buf := bufStore s.buf b, bufFill := n } := by
  rw [complete_ok, applyEffect_ofRegs]
  rfl

/-- SM3_COMPRESS (R105). -/
theorem complete_compress (s : State) (x : Words8) (y : U64) :
    complete s (.ok (.ofRegs [.v x, .bitcnt y])) = { succeeded s with v := x, bitcnt := y } := by
  rw [complete_ok, applyEffect_ofRegs]
  rfl

/-- SM3_FINAL (R106). -/
theorem complete_final (s : State) (x y : Words8) :
    complete s (.ok (.ofRegs [.v x, .digest y, .buf (zeros 64), .bufFill 0, .ctxState .finalized]))
      = { succeeded s with
          v := x, digest := y, buf := Vector.replicate 64 0, bufFill := 0, ctxState := .finalized } := by
  simp only [complete_ok, applyEffect_ofRegs, applyRegs_cons, applyRegs_nil, RegWrite.apply, bufStore_zeros]
  rfl

/-- SM3_HASH, MT_LEAF and MT_NODE (R107, R131, R132). -/
theorem complete_digest (s : State) (x : Words8) :
    complete s (.ok (.ofRegs [.digest x])) = { succeeded s with digest := x } := by
  rw [complete_ok, applyEffect_ofRegs]
  rfl

/-- SM3_PAD, MT_INCL_PROOF and MT_NONINCL_PROOF (R108, R134, R136). -/
theorem complete_results (s : State) (x y : U64) (a : Nat) (b : Bytes) :
    complete s (.ok { regs := [.result0 x, .result1 y], addr := a, bytes := b })
      = { succeeded (memWrite s a b) with result0 := x, result1 := y } := by
  simp only [complete_ok, applyEffect, applyRegs_cons, applyRegs_nil, RegWrite.apply]
  rfl

/-- LE_EXTEND (R111). -/
theorem complete_extend (s : State) (d : Words8) (x y : U64) (a : Nat) (b : Bytes) :
    complete s (.ok { regs := [.digest d, .result0 x, .result1 y], addr := a, bytes := b })
      = { succeeded (memWrite s a b) with digest := d, result0 := x, result1 := y } := by
  simp only [complete_ok, applyEffect, applyRegs_cons, applyRegs_nil, RegWrite.apply]
  rfl

/-- MT_BUILD (R133). -/
theorem complete_build (s : State) (r : Words8) (n d l x : U64) (p q : Bool) (a : Nat) (b : Bytes) :
    complete s (.ok
        { regs := [.root r, .treeN n, .treeDesc d, .treeLda l, .treeStatus p q, .result0 x], addr := a, bytes := b })
      = { succeeded (memWrite s a b) with
          root := r, treeN := n, treeDesc := d, treeLda := l, treeSealed := p, treeSorted := q, treeTouched := false,
          result0 := x } := by
  simp only [complete_ok, applyEffect, applyRegs_cons, applyRegs_nil, RegWrite.apply]
  rfl

/-- MT_VERIFY_INCL and MT_VERIFY_NONINCL (R135, R137). -/
theorem complete_verdict (s : State) (ok : Bool) :
    complete s (.ok (.ofRegs (verdictRegs ok)))
      = { succeeded s with verdict := ok, result0 := if ok then 1 else 0 } := by
  rw [complete_ok, applyEffect_ofRegs]
  rfl

end Sys2Proof.Machine
end

