-- ==== Sys2Proof/Laws/Sm3.lean ====
section
/-! SUPPORT. The laws of padding and chaining (spec/40_sm3_functions.md R94 to R98): lengths, and that chaining over
whole blocks composes. -/

namespace Sys2Proof.Machine

theorem padZeros_lt (l : Nat) : padZeros l < 64 := Nat.mod_lt _ (by omega)

@[simp] theorem length_pad (l : Nat) : (pad l).length = padLen l := by
  simp [pad, padLen]

theorem padLen_pos (l : Nat) : 0 < padLen l := Nat.succ_pos _

/-- A message of whole bytes with its padding is a whole number of blocks (R94). -/
theorem add_padLen_mod (n : Nat) : (n + padLen (8 * n)) % 64 = 0 := by
  simp only [padLen, padZeros]
  omega

@[simp] theorem length_sm3 (m : Bytes) : (sm3 m).length = 32 := rfl

@[simp] theorem chainBlocks_zero (v : Words8) (x : Bytes) : chainBlocks 0 v x = v := rfl

theorem chainBlocks_succ (q : Nat) (v : Words8) (x : Bytes) :
    chainBlocks (q + 1) v x = chainBlocks q (cf v (x.take 64)) (x.drop 64) := rfl

/-- Chaining looks at its blocks alone. -/
theorem chainBlocks_append (q : Nat) : ∀ (v : Words8) (x y : Bytes), 64 * q ≤ x.length →
    chainBlocks q v (x ++ y) = chainBlocks q v x := by
  induction q with
  | zero => exact fun _ _ _ _ => rfl
  | succ q ih =>
    intro v x y h
    rw [chainBlocks_succ, chainBlocks_succ, List.take_append_of_le_length (by omega),
      List.drop_append_of_le_length (by omega), ih _ _ _ (by simp; omega)]

/-- Chaining `p + q` blocks is chaining `p`, then `q`. -/
theorem chainBlocks_add (p q : Nat) : ∀ (v : Words8) (x : Bytes),
    chainBlocks (p + q) v x = chainBlocks q (chainBlocks p v x) (x.drop (64 * p)) := by
  induction p with
  | zero => intro v x; simp
  | succ p ih =>
    intro v x
    rw [show p + 1 + q = p + q + 1 by omega, chainBlocks_succ, chainBlocks_succ, ih, List.drop_drop]
    rw [show 64 + 64 * p = 64 * (p + 1) by omega]

@[simp] theorem chain_nil (v : Words8) : chain v [] = v := rfl

/-- Chaining over a whole number of blocks followed by more composes (R97, R113). -/
theorem chain_append (v : Words8) (x y : Bytes) (h : x.length % 64 = 0) :
    chain v (x ++ y) = chain (chain v x) y := by
  simp only [chain, List.length_append]
  rw [show (x.length + y.length) / 64 = x.length / 64 + y.length / 64 by omega, chainBlocks_add,
    chainBlocks_append _ _ _ _ (by omega), List.drop_left' (by omega)]

/-- One block (R97). -/
theorem chain_block (v : Words8) (b : Bytes) (h : b.length = 64) : chain v b = cf v b := by
  simp only [chain, h, show 64 / 64 = 1 from rfl, chainBlocks_succ, chainBlocks_zero]
  rw [List.take_of_length_le (by omega)]

end Sys2Proof.Machine
end

