-- ==== Sys2Proof/Laws/Merkle.lean ====
section
/-! SUPPORT. The laws of the Merkle functions (spec/43_merkle_functions.md R120 to R126): the split point's bounds, and
the recursion equations of MTH, PATH and EXPFLAGS as the spec writes them, without the model's depth bound. -/

namespace Sys2Proof.Machine

@[simp] theorem length_leafHash (x : Bytes) : (leafHash x).length = 32 := rfl

@[simp] theorem length_nodeHash (l r : Digest) : (nodeHash l r).length = 32 := rfl

@[simp] theorem length_emptyRoot : emptyRoot.length = 32 := rfl

theorem splitPoint_pos (n : Nat) : 0 < splitPoint n := Nat.pow_pos (by omega)

/-- k(n) < n (R120). -/
theorem splitPoint_lt (n : Nat) (h : 2 ≤ n) : splitPoint n < n := by
  have := Nat.log2_self_le (n := n - 1) (by omega)
  simp only [splitPoint]
  omega

/-- n <= 2 k(n) (R120). -/
theorem le_two_mul_splitPoint (n : Nat) : n ≤ 2 * splitPoint n := by
  have := Nat.lt_log2_self (n := n - 1)
  simp only [splitPoint]
  rw [Nat.pow_succ] at this
  omega

theorem log2_lt_of_le (n d : Nat) (h : n ≤ 2 ^ d) (hn : n ≠ 0) : Nat.log2 n ≤ d := by
  by_contra hc
  have h1 := Nat.log2_self_le hn
  have h2 : 2 ^ (d + 1) ≤ 2 ^ Nat.log2 n := Nat.pow_le_pow_right (by omega) (by omega)
  rw [Nat.pow_succ] at h2
  have := Nat.pow_pos (n := d) (show 0 < 2 by omega)
  omega

theorem le_two_pow_treeFuel (n : Nat) : n ≤ 2 ^ treeFuel n := by
  have := Nat.lt_log2_self (n := n)
  simp only [treeFuel]
  omega

/-- Both halves of a split fit half the depth. -/
theorem splitPoint_le_pow (n d : Nat) (hn : 2 ≤ n) (h : n ≤ 2 ^ (d + 1)) : splitPoint n ≤ 2 ^ d := by
  have h1 : Nat.log2 (n - 1) ≤ d := by
    by_contra hc
    have h2 := Nat.log2_self_le (n := n - 1) (by omega)
    have h3 : 2 ^ (d + 1) ≤ 2 ^ Nat.log2 (n - 1) := Nat.pow_le_pow_right (by omega) (by omega)
    omega
  exact Nat.pow_le_pow_right (by omega) h1

theorem sub_splitPoint_le_pow (n d : Nat) (hn : 2 ≤ n) (h : n ≤ 2 ^ (d + 1)) : n - splitPoint n ≤ 2 ^ d := by
  have h1 := le_two_mul_splitPoint n
  have h2 := splitPoint_le_pow n d hn h
  omega

/-! ### The recursion depth is enough -/

theorem mthTo_succ (d : Nat) (hs : List Digest) (h : 2 ≤ hs.length) :
    mthTo (d + 1) hs
      = nodeHash (mthTo d (hs.take (splitPoint hs.length))) (mthTo d (hs.drop (splitPoint hs.length))) := by
  rw [mthTo, if_neg (by omega)]

theorem mthTo_of_le_one (d : Nat) (hs : List Digest) (h : hs.length ≤ 1) : mthTo d hs = hs.headD emptyRoot := by
  cases d with
  | zero => rfl
  | succ d => rw [mthTo, if_pos h]

/-- A depth that holds the tree gives MTH. -/
theorem mthTo_fuel (d : Nat) : ∀ (e : Nat) (hs : List Digest), hs.length ≤ 2 ^ d → hs.length ≤ 2 ^ e →
    mthTo d hs = mthTo e hs := by
  induction d with
  | zero =>
    intro e hs h _
    rw [mthTo_of_le_one _ _ (by simpa using h), mthTo_of_le_one _ _ (by simpa using h)]
  | succ d ih =>
    intro e hs h he
    by_cases h1 : hs.length ≤ 1
    · rw [mthTo_of_le_one _ _ h1, mthTo_of_le_one _ _ h1]
    · cases e with
      | zero => simp at he; omega
      | succ e =>
        have a1 := splitPoint_le_pow hs.length d (by omega) h
        have a2 := splitPoint_le_pow hs.length e (by omega) he
        have b1 := sub_splitPoint_le_pow hs.length d (by omega) h
        have b2 := sub_splitPoint_le_pow hs.length e (by omega) he
        rw [mthTo_succ _ _ (by omega), mthTo_succ _ _ (by omega),
          ih e (hs.take _) (by simp; omega) (by simp; omega), ih e (hs.drop _) (by simp; omega) (by simp; omega)]

theorem mthTo_eq_mth (d : Nat) (hs : List Digest) (h : hs.length ≤ 2 ^ d) : mthTo d hs = mth hs :=
  mthTo_fuel d _ hs h (le_two_pow_treeFuel _)

@[simp] theorem mth_nil : mth [] = emptyRoot := rfl

@[simp] theorem mth_singleton (h : Digest) : mth [h] = h := rfl

/-- MTH of two leaves or more (R122). -/
theorem mth_split (hs : List Digest) (h : 2 ≤ hs.length) :
    mth hs = nodeHash (mth (hs.take (splitPoint hs.length))) (mth (hs.drop (splitPoint hs.length))) := by
  have a := splitPoint_le_pow hs.length (treeFuel hs.length) h
    (Nat.le_trans (le_two_pow_treeFuel _) (Nat.pow_le_pow_right (by omega) (by omega)))
  have b := sub_splitPoint_le_pow hs.length (treeFuel hs.length) h
    (Nat.le_trans (le_two_pow_treeFuel _) (Nat.pow_le_pow_right (by omega) (by omega)))
  rw [← mthTo_eq_mth (treeFuel hs.length + 1) hs
      (Nat.le_trans (le_two_pow_treeFuel _) (Nat.pow_le_pow_right (by omega) (by omega))),
    mthTo_succ _ _ h, mthTo_eq_mth _ _ (by simp; omega), mthTo_eq_mth _ _ (by simp; omega)]

theorem pathTo_of_le_one (d m : Nat) (hs : List Digest) (h : hs.length ≤ 1) : pathTo d m hs = [] := by
  cases d with
  | zero => rfl
  | succ d => rw [pathTo, if_pos h]

theorem pathTo_succ (d m : Nat) (hs : List Digest) (h : 2 ≤ hs.length) :
    pathTo (d + 1) m hs
      = if m < splitPoint hs.length then
          pathTo d m (hs.take (splitPoint hs.length)) ++ [(mth (hs.drop (splitPoint hs.length)), .right)]
        else pathTo d (m - splitPoint hs.length) (hs.drop (splitPoint hs.length))
          ++ [(mth (hs.take (splitPoint hs.length)), .left)] := by
  rw [pathTo, if_neg (by omega)]

theorem pathTo_fuel (d : Nat) : ∀ (e m : Nat) (hs : List Digest), hs.length ≤ 2 ^ d → hs.length ≤ 2 ^ e →
    pathTo d m hs = pathTo e m hs := by
  induction d with
  | zero =>
    intro e m hs h _
    rw [pathTo_of_le_one _ _ _ (by simpa using h), pathTo_of_le_one _ _ _ (by simpa using h)]
  | succ d ih =>
    intro e m hs h he
    by_cases h1 : hs.length ≤ 1
    · rw [pathTo_of_le_one _ _ _ h1, pathTo_of_le_one _ _ _ h1]
    · cases e with
      | zero => simp at he; omega
      | succ e =>
        have a1 := splitPoint_le_pow hs.length d (by omega) h
        have a2 := splitPoint_le_pow hs.length e (by omega) he
        have b1 := sub_splitPoint_le_pow hs.length d (by omega) h
        have b2 := sub_splitPoint_le_pow hs.length e (by omega) he
        rw [pathTo_succ _ _ _ (by omega), pathTo_succ _ _ _ (by omega),
          ih e m (hs.take _) (by simp; omega) (by simp; omega),
          ih e _ (hs.drop _) (by simp; omega) (by simp; omega)]

theorem pathTo_eq_path (d m : Nat) (hs : List Digest) (h : hs.length ≤ 2 ^ d) : pathTo d m hs = path m hs :=
  pathTo_fuel d _ m hs h (le_two_pow_treeFuel _)

theorem path_of_le_one (m : Nat) (hs : List Digest) (h : hs.length ≤ 1) : path m hs = [] :=
  pathTo_of_le_one _ _ _ h

/-- PATH of two leaves or more (R124). -/
theorem path_split (m : Nat) (hs : List Digest) (h : 2 ≤ hs.length) :
    path m hs
      = if m < splitPoint hs.length then
          path m (hs.take (splitPoint hs.length)) ++ [(mth (hs.drop (splitPoint hs.length)), .right)]
        else path (m - splitPoint hs.length) (hs.drop (splitPoint hs.length))
          ++ [(mth (hs.take (splitPoint hs.length)), .left)] := by
  have a := splitPoint_le_pow hs.length (treeFuel hs.length) h
    (Nat.le_trans (le_two_pow_treeFuel _) (Nat.pow_le_pow_right (by omega) (by omega)))
  have b := sub_splitPoint_le_pow hs.length (treeFuel hs.length) h
    (Nat.le_trans (le_two_pow_treeFuel _) (Nat.pow_le_pow_right (by omega) (by omega)))
  rw [← pathTo_eq_path (treeFuel hs.length + 1) m hs
      (Nat.le_trans (le_two_pow_treeFuel _) (Nat.pow_le_pow_right (by omega) (by omega))),
    pathTo_succ _ _ _ h, pathTo_eq_path _ _ _ (by simp; omega), pathTo_eq_path _ _ _ (by simp; omega)]

theorem expFlagsTo_of_le_one (d m n : Nat) (h : n ≤ 1) : expFlagsTo d m n = [] := by
  cases d with
  | zero => rfl
  | succ d => rw [expFlagsTo, if_pos h]

theorem expFlagsTo_succ (d m n : Nat) (h : 2 ≤ n) :
    expFlagsTo (d + 1) m n
      = if m < splitPoint n then expFlagsTo d m (splitPoint n) ++ [.right]
        else expFlagsTo d (m - splitPoint n) (n - splitPoint n) ++ [.left] := by
  rw [expFlagsTo, if_neg (by omega)]

theorem expFlagsTo_fuel (d : Nat) : ∀ (e m n : Nat), n ≤ 2 ^ d → n ≤ 2 ^ e →
    expFlagsTo d m n = expFlagsTo e m n := by
  induction d with
  | zero =>
    intro e m n h _
    rw [expFlagsTo_of_le_one _ _ _ (by simpa using h), expFlagsTo_of_le_one _ _ _ (by simpa using h)]
  | succ d ih =>
    intro e m n h he
    by_cases h1 : n ≤ 1
    · rw [expFlagsTo_of_le_one _ _ _ h1, expFlagsTo_of_le_one _ _ _ h1]
    · cases e with
      | zero => simp at he; omega
      | succ e =>
        have a1 := splitPoint_le_pow n d (by omega) h
        have a2 := splitPoint_le_pow n e (by omega) he
        have b1 := sub_splitPoint_le_pow n d (by omega) h
        have b2 := sub_splitPoint_le_pow n e (by omega) he
        rw [expFlagsTo_succ _ _ _ (by omega), expFlagsTo_succ _ _ _ (by omega), ih e m _ a1 a2, ih e _ _ b1 b2]

theorem expFlagsTo_eq_expFlags (d m n : Nat) (h : n ≤ 2 ^ d) : expFlagsTo d m n = expFlags m n :=
  expFlagsTo_fuel d _ m n h (le_two_pow_treeFuel _)

theorem expFlags_of_le_one (m n : Nat) (h : n ≤ 1) : expFlags m n = [] := expFlagsTo_of_le_one _ _ _ h

/-- EXPFLAGS of two leaves or more (R125). -/
theorem expFlags_split (m n : Nat) (h : 2 ≤ n) :
    expFlags m n
      = if m < splitPoint n then expFlags m (splitPoint n) ++ [.right]
        else expFlags (m - splitPoint n) (n - splitPoint n) ++ [.left] := by
  have a := splitPoint_le_pow n (treeFuel n) h
    (Nat.le_trans (le_two_pow_treeFuel _) (Nat.pow_le_pow_right (by omega) (by omega)))
  have b := sub_splitPoint_le_pow n (treeFuel n) h
    (Nat.le_trans (le_two_pow_treeFuel _) (Nat.pow_le_pow_right (by omega) (by omega)))
  rw [← expFlagsTo_eq_expFlags (treeFuel n + 1) m n
      (Nat.le_trans (le_two_pow_treeFuel _) (Nat.pow_le_pow_right (by omega) (by omega))),
    expFlagsTo_succ _ _ _ h, expFlagsTo_eq_expFlags _ _ _ a, expFlagsTo_eq_expFlags _ _ _ b]

theorem length_expFlagsTo_le (d : Nat) : ∀ m n : Nat, (expFlagsTo d m n).length ≤ d := by
  induction d with
  | zero => exact fun _ _ => Nat.le_refl _
  | succ d ih =>
    intro m n
    rw [expFlagsTo]
    split
    · simp
    · simp only []
      split <;> simp [ih]

/-- Two induction shapes in one: trees are one leaf, or split below and above k(n). -/
theorem tree_induction {P : Nat → Nat → Prop} (one : ∀ m n, n ≤ 1 → P m n)
    (low : ∀ m n, 2 ≤ n → m < splitPoint n → P m (splitPoint n) → P m n)
    (high : ∀ m n, 2 ≤ n → splitPoint n ≤ m → P (m - splitPoint n) (n - splitPoint n) → P m n) (m n : Nat) :
    P m n := by
  induction n using Nat.strong_induction_on generalizing m with
  | _ n ih =>
    by_cases h : n ≤ 1
    · exact one m n h
    · have h1 := splitPoint_lt n (by omega)
      have h2 := splitPoint_pos n
      by_cases hm : m < splitPoint n
      · exact low m n (by omega) hm (ih _ h1 m)
      · exact high m n (by omega) (by omega) (ih _ (by omega) _)

/-- The root of digests is a digest. -/
theorem length_mth (hs : List Digest) (h : ∀ d ∈ hs, d.length = 32) : (mth hs).length = 32 := by
  by_cases h2 : 2 ≤ hs.length
  · rw [mth_split hs h2]
    rfl
  · match hs with
    | [] => rfl
    | [d] => exact h d (by simp)
    | _ :: _ :: _ => simp at h2

end Sys2Proof.Machine
end

