-- ==== Sys2Proof/Laws/Commands.lean ====
section
/-! SUPPORT. Everything a command can do, said once: the errors its check phase can give are those of R139's table, its
write phase writes the registers and the bytes R74 names, and `exec_cases` puts both together with the draws. -/

namespace Sys2Proof.Machine

/-- Which register a register write writes; the value is forgotten. -/
def RegWrite.kind : RegWrite → Nat
  | .v _ => 0
  | .bitcnt _ => 1
  | .buf _ => 2
  | .bufFill _ => 3
  | .ctxState _ => 4
  | .digest _ => 5
  | .root _ => 6
  | .result0 _ => 7
  | .result1 _ => 8
  | .treeStatus _ _ => 9
  | .treeN _ => 10
  | .treeDesc _ => 11
  | .treeLda _ => 12
  | .verdict _ => 13

/-- The registers a list of register writes writes, in order. -/
def kinds (ws : List RegWrite) : List Nat := ws.map RegWrite.kind

@[simp] theorem RegWrite.kind_drawn (d : Nat) (w : RegWrite) : (RegWrite.drawn d w).kind = w.kind := by
  cases w <;> rfl

@[simp] theorem kinds_drawn (d : Nat) (ws : List RegWrite) : kinds (ws.map (RegWrite.drawn d)) = kinds ws := by
  simp [kinds, Function.comp_def]

@[simp] theorem length_freeBytes (d k n : Nat) : (Config.freeBytes d k n).length = n := by
  simp [Config.freeBytes]

/-! ### The check phase, combinator by combinator -/

/-- A property that holds of the error or of the write phase that a check phase gives. -/
structure Check.sat (E : Err → Prop) (W : Effect → Prop) (c : Check) : Prop where
  error : ∀ e, c.res = .error e → E e
  ok : ∀ w, c.res = .ok w → W w

theorem Check.sat_raise {E : Err → Prop} {W : Effect → Prop} {e : Err} (h : E e) : (Check.raise e).sat E W :=
  ⟨fun _ he => Except.error.inj he ▸ h, fun _ hw => nomatch hw⟩

theorem Check.sat_done {E : Err → Prop} {W : Effect → Prop} {w : Effect} (h : W w) : (Check.done w).sat E W :=
  ⟨fun _ he => (by cases he), fun _ hw => Except.ok.inj hw ▸ h⟩

theorem Check.sat_raiseIf {E : Err → Prop} {W : Effect → Prop} {c : Prop} [Decidable c] {e : Err}
    {k : Unit → Check} (he : E e) (h : ¬ c → (k ()).sat E W) : (Check.raiseIf c e k).sat E W := by
  by_cases hc : c
  · rw [Check.raiseIf_pos hc]
    exact Check.sat_raise he
  · rw [Check.raiseIf_neg hc]
    exact h hc

theorem Check.sat_memRead {E : Err → Prop} {W : Effect → Prop} {s : State} {a n : Nat} {k : Bytes → Check}
    (he : E .busError) (h : rangeOk s a n = true → (k (Memory.read s.mem a n)).sat E W) :
    (Check.memRead s a n k).sat E W := by
  by_cases hr : rangeOk s a n = true
  · have hk := h hr
    exact ⟨by rw [Check.memRead_res_ok _ _ _ _ hr]; exact hk.error,
      by rw [Check.memRead_res_ok _ _ _ _ hr]; exact hk.ok⟩
  · have hk : (Check.raise .busError).sat E W := Check.sat_raise he
    exact ⟨by rw [Check.memRead_res_bad _ _ _ _ hr]; exact hk.error,
      by rw [Check.memRead_res_bad _ _ _ _ hr]; exact hk.ok⟩

theorem Check.sat_leaves {E : Err → Prop} {W : Effect → Prop} {s : State} {table : Nat}
    (hb : E .busError) (hl : E .lengthOverflow) : ∀ (count i : Nat) (k : List Bytes → Check),
    (∀ ls : List Bytes, ls.length = count → (k ls).sat E W) → (Check.leaves s table count i k).sat E W := by
  intro count
  induction count with
  | zero => exact fun _ _ h => h [] rfl
  | succ count ih =>
    intro i k h
    exact Check.sat_memRead hb fun _ => Check.sat_raiseIf hl fun _ => Check.sat_memRead hb fun _ =>
      ih _ _ fun ls hls => h _ (by simp [hls])

theorem Check.sat_except {α : Type} {E : Err → Prop} {W : Effect → Prop} {x : Except Err α} {k : α → Check}
    (he : ∀ e, x = .error e → E e) (h : ∀ a, x = .ok a → (k a).sat E W) : (Check.except x k).sat E W := by
  cases x with
  | error e => exact Check.sat_raise (he e rfl)
  | ok a => exact h a rfl

/-! ### The errors of a record -/

theorem bind_error {α β : Type} {x : Except Err α} {f : α → Except Err β} {e : Err} (h : (x >>= f) = .error e) :
    x = .error e ∨ ∃ a, x = .ok a ∧ f a = .error e := by
  cases x with
  | error e' => exact .inl (by cases h; rfl)
  | ok a => exact .inr ⟨a, rfl, h⟩

theorem bind_ok {α β : Type} {x : Except Err α} {f : α → Except Err β} {b : β} (h : (x >>= f) = .ok b) :
    ∃ a, x = .ok a ∧ f a = .ok b := by
  cases x with
  | error e' => cases h
  | ok a => exact ⟨a, rfl, h⟩

theorem takeBytes_error {k : Nat} {r : Bytes} {e : Err} (h : takeBytes k r = .error e) : e = .malformedProof := by
  simp only [takeBytes] at h
  split at h
  · cases h
  · exact (Except.error.inj h).symm

theorem takeBytes_ok {k : Nat} {r : Bytes} {a : Bytes × Bytes} (h : takeBytes k r = .ok a) :
    r = a.1 ++ a.2 ∧ a.1.length = k := by
  simp only [takeBytes] at h
  split at h
  · cases h
    simp
    omega
  · cases h

theorem takeBytes_append (a r : Bytes) : takeBytes a.length (a ++ r) = .ok (a, r) := by
  simp [takeBytes]

theorem parseNeighbour_error {r : Bytes} {e : Err} (h : parseNeighbour r = .error e) : e = .malformedProof := by
  rcases bind_error h with h | ⟨_, _, h⟩
  · exact takeBytes_error h
  rcases bind_error h with h | ⟨_, _, h⟩
  · exact takeBytes_error h
  rcases bind_error h with h | ⟨_, _, h⟩
  · exact takeBytes_error h
  rcases bind_error h with h | ⟨_, _, h⟩
  · exact takeBytes_error h
  rcases bind_error h with h | ⟨_, _, h⟩
  · exact takeBytes_error h
  cases h

theorem parseNeighbours_error (nb : Nat) : ∀ {r : Bytes} {e : Err}, parseNeighbours nb r = .error e →
    e = .malformedProof := by
  induction nb with
  | zero => intro r e h; cases h
  | succ nb ih =>
    intro r e h
    rcases bind_error h with h | ⟨_, _, h⟩
    · exact parseNeighbour_error h
    rcases bind_error h with h | ⟨_, _, h⟩
    · exact ih h
    cases h

theorem checkNeighbour_error {root : Digest} {n : Nat} {b : Neighbour} {e : Err}
    (h : checkNeighbour root n b = .error e) : e ∈ [Err.invalidIndex, .malformedProof, .lengthOverflow] := by
  simp only [checkNeighbour] at h
  repeat (split at h; · cases h; decide)
  cases h

theorem checkNeighbours_error {root : Digest} {n : Nat} : ∀ {bs : List Neighbour} {e : Err},
    checkNeighbours root n bs = .error e → e ∈ [Err.invalidIndex, .malformedProof, .lengthOverflow]
  | [], _, h => by simp [checkNeighbours] at h
  | b :: bs, e, h => by
    simp only [checkNeighbours] at h
    split at h
    · rename_i e' h'
      cases h
      exact checkNeighbour_error h'
    · split at h
      · rename_i e' h'
        cases h
        exact checkNeighbours_error h'
      · cases h

theorem parseNir_error {r : Bytes} {e : Err} (h : parseNir r = .error e) : e = .malformedProof := by
  simp only [parseNir] at h
  rcases bind_error h with h | ⟨_, _, h⟩
  · exact takeBytes_error h
  · split at h
    · cases h
      rfl
    · rcases bind_error h with h | ⟨_, _, h⟩
      · exact parseNeighbours_error _ h
      · split at h
        · cases h
          rfl
        · cases h

theorem nirVerdict_error {root : Digest} {n : Nat} {y r : Bytes} {e : Err} (h : nirVerdict root n y r = .error e) :
    e ∈ [Err.invalidIndex, .malformedProof, .lengthOverflow] := by
  simp only [nirVerdict] at h
  split at h
  · rename_i e' h'
    cases h
    rw [parseNir_error h']
    decide
  · split at h
    · rename_i e' h'
      cases h
      exact checkNeighbours_error h'
    · split at h
      · cases h
      · cases h
        decide

/-! ### Every command -/

@[simp] theorem storeBound_sm3Pad (s : State) : storeBound .sm3Pad s = padLen s.arg0.toNat := rfl

@[simp] theorem storeBound_leExtend (s : State) : storeBound .leExtend s = padLen s.arg0.toNat := rfl

@[simp] theorem storeBound_mtBuild (s : State) : storeBound .mtBuild s = 32 * s.arg0.toNat := rfl

@[simp] theorem storeBound_mtNoninclProof (s : State) : storeBound .mtNoninclProof s = s.dstLen.toNat := rfl

theorem storeBound_mtInclProof (s : State) (h : s.arg0.toNat < s.treeN.toNat) :
    storeBound .mtInclProof s = 33 * depth s.arg0.toNat s.treeN.toNat := by
  rw [storeBound, storesKnownLength, decide_eq_true h]
  rfl

/-- A command that stores nothing has the bound 0. -/
theorem storeBound_of_not_storing (i : Instr) (s : State) (hi : i ∉ storingCommands) : storeBound i s = 0 := by
  cases i <;> first | exact absurd (by decide) hi | rfl

/-- A write phase of command `i`: it writes the registers R74 names, and its bytes go to DST_ADDR, are in memory (R47),
and are no more than its rule gives and DST_LEN allows. -/
structure Effect.fits (i : Instr) (s : State) (w : Effect) : Prop where
  regs : kinds w.regs = kinds (resultRegs i)
  addr : w.bytes = [] ∨ w.addr = s.dstAddr.toNat
  range : rangeOk s w.addr w.bytes.length = true
  bound : w.bytes.length ≤ storeBound i s
  capacity : w.bytes.length ≤ s.dstLen.toNat

theorem Effect.fits_ofRegs (i : Instr) (s : State) (ws : List RegWrite) (ks : List Nat) (h : kinds ws = ks)
    (hi : kinds (resultRegs i) = ks) : (Effect.ofRegs ws).fits i s :=
  ⟨h.trans hi.symm, .inl rfl, by simp [rangeOk_iff, Effect.ofRegs], by simp [Effect.ofRegs], by simp [Effect.ofRegs]⟩

theorem length_encPath (es : List (Digest × Side)) (h : ∀ e ∈ es, e.1.length = 32) :
    (encPath es).length = 33 * es.length := by
  induction es with
  | nil => rfl
  | cons e es ih =>
    have h1 := h e (by simp)
    have h2 := ih fun x hx => h x (by simp [hx])
    simp only [encPath, List.flatMap_cons, List.length_append, List.length_cons, List.length_nil] at h2 ⊢
    omega

theorem length_digestArray (a : Bytes) (n : Nat) : (digestArray a n).length = n := by simp [digestArray]

theorem digestArray_digest (a : Bytes) (n : Nat) (h : a.length = 32 * n) : ∀ d ∈ digestArray a n, d.length = 32 := by
  intro d hd
  simp only [digestArray, List.mem_map, List.mem_range] at hd
  obtain ⟨j, hj, rfl⟩ := hd
  exact length_slice _ _ _ (by omega)

/-- The siblings of a path over digests are digests. -/
theorem path_digest (d : Nat) : ∀ (m : Nat) (hs : List Digest), (∀ x ∈ hs, x.length = 32) →
    ∀ e ∈ pathTo d m hs, e.1.length = 32 := by
  induction d with
  | zero => intro m hs _ e he; simp [pathTo] at he
  | succ d ih =>
    intro m hs h e he
    by_cases h1 : hs.length ≤ 1
    · rw [pathTo_of_le_one _ _ _ h1] at he
      simp at he
    · rw [pathTo_succ _ _ _ (by omega)] at he
      split at he
      · rcases List.mem_append.mp he with he | he
        · exact ih _ _ (fun x hx => h x (List.mem_of_mem_take hx)) e he
        · rw [List.mem_singleton] at he
          rw [he]
          exact length_mth _ fun x hx => h x (List.mem_of_mem_drop hx)
      · rcases List.mem_append.mp he with he | he
        · exact ih _ _ (fun x hx => h x (List.mem_of_mem_drop hx)) e he
        · rw [List.mem_singleton] at he
          rw [he]
          exact length_mth _ fun x hx => h x (List.mem_of_mem_take hx)

/-- A path has as many entries as there are expected flags. -/
theorem length_pathTo (d : Nat) : ∀ (m : Nat) (hs : List Digest),
    (pathTo d m hs).length = (expFlagsTo d m hs.length).length := by
  induction d with
  | zero => exact fun _ _ => rfl
  | succ d ih =>
    intro m hs
    by_cases h1 : hs.length ≤ 1
    · rw [pathTo_of_le_one _ _ _ h1, expFlagsTo_of_le_one _ _ _ h1]
      rfl
    · have hk := splitPoint_lt hs.length (by omega)
      rw [pathTo_succ _ _ _ (by omega), expFlagsTo_succ _ _ _ (by omega)]
      split
      · simp only [List.length_append, ih, List.length_take, List.length_cons, List.length_nil]
        rw [Nat.min_eq_left (by omega)]
      · simp only [List.length_append, ih, List.length_drop, List.length_cons, List.length_nil]

theorem length_path (m : Nat) (hs : List Digest) : (path m hs).length = depth m hs.length :=
  length_pathTo _ _ _

/-- The bytes of an inclusion proof over digests (R78). -/
theorem length_encPath_path (m : Nat) (hs : List Digest) (h : ∀ x ∈ hs, x.length = 32) :
    (encPath (path m hs)).length = 33 * depth m hs.length := by
  rw [length_encPath (path m hs) (path_digest _ m hs h), length_path]

theorem length_flatten_digests (hs : List Digest) (h : ∀ x ∈ hs, x.length = 32) :
    hs.flatten.length = 32 * hs.length := by
  induction hs with
  | nil => rfl
  | cons d hs ih =>
    have h1 := h d (by simp)
    have h2 := ih fun x hx => h x (by simp [hx])
    simp only [List.flatten_cons, List.length_append, List.length_cons]
    omega

/-- Everything the check phase of a command can give: an error of R139's table, or a write phase that fits (R74). -/
theorem checkOf_sat (i : Instr) (s : State) : (checkOf i s).sat (· ∈ raises i) (Effect.fits i s) := by
  cases i with
  | nop =>
    rw [checkOf, checkNop]
    exact Check.sat_done (Effect.fits_ofRegs _ _ _ [] rfl rfl)
  | sm3Init =>
    rw [checkOf, checkSm3Init]
    exact Check.sat_done (Effect.fits_ofRegs _ _ _ [0, 1, 2, 3, 4] rfl rfl)
  | sm3Inject =>
    rw [checkOf, checkSm3Inject]
    exact Check.sat_raiseIf (by decide) fun _ => Check.sat_done (Effect.fits_ofRegs _ _ _ [0, 1, 2, 3, 4] rfl rfl)
  | sm3Update =>
    rw [checkOf, checkSm3Update]
    exact Check.sat_raiseIf (by decide) fun _ => Check.sat_raiseIf (by decide) fun _ =>
      Check.sat_memRead (by decide) fun _ => Check.sat_done (Effect.fits_ofRegs _ _ _ [0, 1, 2, 3] rfl rfl)
  | sm3Compress =>
    rw [checkOf, checkSm3Compress]
    exact Check.sat_raiseIf (by decide) fun _ => Check.sat_raiseIf (by decide) fun _ =>
      Check.sat_raiseIf (by decide) fun _ => Check.sat_done (Effect.fits_ofRegs _ _ _ [0, 1] rfl rfl)
  | sm3Final =>
    rw [checkOf, checkSm3Final]
    exact Check.sat_raiseIf (by decide) fun _ => Check.sat_done (Effect.fits_ofRegs _ _ _ [0, 5, 2, 3, 4] rfl rfl)
  | sm3Hash =>
    rw [checkOf, checkSm3Hash]
    exact Check.sat_raiseIf (by decide) fun _ => Check.sat_memRead (by decide) fun _ =>
      Check.sat_done (Effect.fits_ofRegs _ _ _ [5] rfl rfl)
  | sm3Pad =>
    rw [checkOf, checkSm3Pad]
    exact Check.sat_raiseIf (by decide) fun _ => Check.sat_raiseIf (by decide) fun _ =>
      Check.sat_raiseIf (by decide) fun h => Check.sat_raiseIf (by decide) fun hr =>
        Check.sat_done ⟨(rfl : _ = [7, 8]), .inr rfl, by simpa using hr, by simp, by simp at h; simpa using h⟩
  | leExtend =>
    rw [checkOf, checkLeExtend]
    exact Check.sat_raiseIf (by decide) fun _ => Check.sat_raiseIf (by decide) fun _ =>
      Check.sat_raiseIf (by decide) fun _ => Check.sat_raiseIf (by decide) fun h =>
        Check.sat_memRead (by decide) fun _ => Check.sat_raiseIf (by decide) fun hr =>
          Check.sat_done ⟨(rfl : _ = [5, 7, 8]), .inr rfl, by simpa using hr, by simp, by simp at h; simpa using h⟩
  | mtLeaf =>
    rw [checkOf, checkMtLeaf]
    exact Check.sat_raiseIf (by decide) fun _ => Check.sat_memRead (by decide) fun _ =>
      Check.sat_done (Effect.fits_ofRegs _ _ _ [5] rfl rfl)
  | mtNode =>
    rw [checkOf, checkMtNode]
    refine Check.sat_memRead (by decide) fun _ => Check.sat_memRead (by decide) fun _ => ?_
    exact Check.sat_done (Effect.fits_ofRegs _ _ _ [5] rfl rfl)
  | mtBuild =>
    rw [checkOf, checkMtBuild]
    exact Check.sat_raiseIf (by decide) fun _ => Check.sat_raiseIf (by decide) fun h =>
      Check.sat_raiseIf (by decide) fun hr => Check.sat_raiseIf (by decide) fun _ =>
        Check.sat_leaves (by decide) (by decide) _ _ _ fun ls hls => by
          have hlen : ((ls.map leafHash).flatten).length = 32 * s.arg0.toNat := by
            rw [length_flatten_digests, List.length_map, hls]
            intro x hx
            obtain ⟨y, _, rfl⟩ := List.mem_map.mp hx
            rfl
          exact Check.sat_done ⟨(rfl : _ = [6, 10, 11, 12, 9, 7]), .inr rfl, by simpa [buildEffect, hlen] using hr,
            by simp [buildEffect, hlen], by simp at h; simpa [buildEffect, hlen] using h⟩
  | mtInclProof =>
    rw [checkOf, checkMtInclProof]
    exact Check.sat_raiseIf (by decide) fun _ => Check.sat_raiseIf (by decide) fun _ =>
      Check.sat_raiseIf (by decide) fun hi => Check.sat_raiseIf (by decide) fun h =>
        Check.sat_raiseIf (by decide) fun hr => Check.sat_memRead (by decide) fun _ => by
          have hlen := length_encPath_path s.arg0.toNat
            (digestArray (Memory.read s.mem s.treeLda.toNat (32 * s.treeN.toNat)) s.treeN.toNat)
            (digestArray_digest _ _ (by simp))
          rw [length_digestArray] at hlen
          exact Check.sat_done ⟨(rfl : _ = [7, 8]), .inr rfl, by simpa [hlen] using hr,
            by rw [storeBound_mtInclProof s (by omega)]; exact Nat.le_of_eq hlen, by simp at h; simpa [hlen] using h⟩
  | mtVerifyIncl =>
    rw [checkOf, checkMtVerifyIncl]
    exact Check.sat_raiseIf (by decide) fun _ => Check.sat_raiseIf (by decide) fun _ =>
      Check.sat_raiseIf (by decide) fun _ => Check.sat_raiseIf (by decide) fun _ =>
        Check.sat_memRead (by decide) fun _ => Check.sat_memRead (by decide) fun _ =>
          Check.sat_raiseIf (by decide) fun _ => Check.sat_done (Effect.fits_ofRegs _ _ _ [13, 7] rfl rfl)
  | mtNoninclProof =>
    rw [checkOf, checkMtNoninclProof]
    exact Check.sat_raiseIf (by decide) fun _ => Check.sat_raiseIf (by decide) fun _ =>
      Check.sat_raiseIf (by decide) fun _ => Check.sat_memRead (by decide) fun _ =>
        Check.sat_raiseIf (by decide) fun _ => Check.sat_leaves (by decide) (by decide) _ _ _ fun ls hls =>
          Check.sat_memRead (by decide) fun _ => Check.sat_raiseIf (by decide) fun _ =>
            Check.sat_raiseIf (by decide) fun h => Check.sat_raiseIf (by decide) fun hr =>
              Check.sat_done ⟨(rfl : _ = [7, 8]), .inr rfl, by simpa using hr, by simp at h; simpa using h, by simpa using h⟩
  | mtVerifyNonincl =>
    rw [checkOf, checkMtVerifyNonincl]
    exact Check.sat_raiseIf (by decide) fun _ => Check.sat_memRead (by decide) fun _ =>
      Check.sat_memRead (by decide) fun _ => Check.sat_except
        (fun e he => by
          have h := nirVerdict_error he
          simp only [List.mem_cons, List.not_mem_nil, or_false] at h
          rcases h with rfl | rfl | rfl <;> decide)
        fun _ _ => Check.sat_done (Effect.fits_ofRegs _ _ _ [13, 7] rfl rfl)

/-- The write phase of a drawn outcome fits as well (R62, R64). -/
theorem drawnEffect_fits (i : Instr) (s : State) (d : Nat) : (drawnEffect i s d).fits i s := by
  have hb : min (dstBytes i s d) (dstRoom s) ≤ storeBound i s := by
    simp only [dstBytes, storeBound, dstRoom]
    split <;> omega
  refine ⟨by simp [drawnEffect], .inr rfl, ?_, ?_, ?_⟩
  · rw [rangeOk_iff]
    simp only [drawnEffect, length_freeBytes, dstRoom]
    omega
  · simpa only [drawnEffect, length_freeBytes] using hb
  · simp only [drawnEffect, length_freeBytes, dstRoom]
    omega

/-- Everything a completion can do (R141): an error of R139's table with nothing else changed, or a write phase that
fits; `n` counts the draws it took. -/
theorem exec_cases (i : Instr) (s t : State) (h : exec i s = .next t) :
    ∃ n, (∃ e ∈ raises i, t = errored { s with draws := s.draws + n } e) ∨
      ∃ w, Effect.fits i s w ∧ t = succeeded (applyEffect { s with draws := s.draws + n } w) := by
  have hs := checkOf_sat i s
  rw [exec_eq] at h
  cases h
  rcases resolve_cases i s (checkOf i s) with ⟨_, hr⟩ | ⟨_, _, _, hr⟩ | ⟨_, _, _, hr⟩
  · refine ⟨1, ?_⟩
    rw [finish, hr]
    rcases drawnOutcome_cases i s s.draws with ⟨e, he, hd⟩ | hd
    · exact .inl ⟨e, he, by rw [hd]; rfl⟩
    · exact .inr ⟨_, drawnEffect_fits i s s.draws, by rw [hd]; rfl⟩
  · refine ⟨1, ?_⟩
    rw [finish, hr]
    cases hc : (checkOf i s).res with
    | error e =>
      exact .inl ⟨e, hs.error e hc, rfl⟩
    | ok w =>
      have hs := hs.ok w hc
      refine .inr ⟨w.drawn s.draws, ⟨?_, ?_, ?_, ?_, ?_⟩, rfl⟩
      · simpa [Effect.drawn] using hs.regs
      · rcases hs.addr with h | h
        · exact .inl (by simp [Effect.drawn, h, Config.freeBytes])
        · exact .inr h
      · simpa [Effect.drawn] using hs.range
      · simpa [Effect.drawn] using hs.bound
      · simpa [Effect.drawn] using hs.capacity
  · refine ⟨0, ?_⟩
    rw [finish, hr]
    cases hc : (checkOf i s).res with
    | error e =>
      exact .inl ⟨e, hs.error e hc, rfl⟩
    | ok w =>
      exact .inr ⟨w, hs.ok w hc, rfl⟩

/-- What a list of register writes leaves alone: a view of the state that only some kinds of register write change. -/
theorem applyRegs_frame_kinds {α : Type} (f : State → α) (ks : List Nat)
    (hf : ∀ (w : RegWrite) (t : State), w.kind ∉ ks → f (w.apply t) = f t) (ws : List RegWrite)
    (h : ∀ k ∈ kinds ws, k ∉ ks) (s : State) : f (applyRegs s ws) = f s :=
  applyRegs_frame f ws (fun w hw t => hf w t (h _ (List.mem_map_of_mem hw))) s

/-- What a write phase leaves alone. -/
theorem applyEffect_frame {α : Type} (f : State → α) (ks : List Nat)
    (hf : ∀ (w : RegWrite) (t : State), w.kind ∉ ks → f (w.apply t) = f t) (i : Instr) (s : State) (w : Effect)
    (hw : Effect.fits i s w) (h : ∀ k ∈ kinds (resultRegs i), k ∉ ks) (hm : ∀ a b t, f (memWrite t a b) = f t)
    (t : State) : f (applyEffect t w) = f t := by
  rw [applyEffect, applyRegs_frame_kinds f ks hf _ (by rw [hw.regs]; exact h), hm]

end Sys2Proof.Machine
end

