-- ==== Sys2Proof/Laws/PerInstr.lean ====
section
/-! SUPPORT. The laws stated for every command, one lemma per constructor of Instr. -/

namespace Sys2Proof.Laws

/-- The encoder's word of a command: MBZ zero, the opcode in the low byte, no reserved opcode (R69, R71, R72). -/
def EncodingWellFormed.Statement (i : Instr) : Prop :=
  Instr.wf i = true ∧ mbzField (encode i) = 0 ∧ opcodeField (encode i) = i.opcode

theorem EncodingWellFormed.nop : EncodingWellFormed.Statement .nop := by
  unfold Statement; decide
theorem EncodingWellFormed.sm3Init : EncodingWellFormed.Statement .sm3Init := by
  unfold Statement; decide
theorem EncodingWellFormed.sm3Inject : EncodingWellFormed.Statement .sm3Inject := by
  unfold Statement; decide
theorem EncodingWellFormed.sm3Update : EncodingWellFormed.Statement .sm3Update := by
  unfold Statement; decide
theorem EncodingWellFormed.sm3Compress : EncodingWellFormed.Statement .sm3Compress := by
  unfold Statement; decide
theorem EncodingWellFormed.sm3Final : EncodingWellFormed.Statement .sm3Final := by
  unfold Statement; decide
theorem EncodingWellFormed.sm3Hash : EncodingWellFormed.Statement .sm3Hash := by
  unfold Statement; decide
theorem EncodingWellFormed.sm3Pad : EncodingWellFormed.Statement .sm3Pad := by
  unfold Statement; decide
theorem EncodingWellFormed.leExtend : EncodingWellFormed.Statement .leExtend := by
  unfold Statement; decide
theorem EncodingWellFormed.mtLeaf : EncodingWellFormed.Statement .mtLeaf := by
  unfold Statement; decide
theorem EncodingWellFormed.mtNode : EncodingWellFormed.Statement .mtNode := by
  unfold Statement; decide
theorem EncodingWellFormed.mtBuild : EncodingWellFormed.Statement .mtBuild := by
  unfold Statement; decide
theorem EncodingWellFormed.mtInclProof : EncodingWellFormed.Statement .mtInclProof := by
  unfold Statement; decide
theorem EncodingWellFormed.mtVerifyIncl : EncodingWellFormed.Statement .mtVerifyIncl := by
  unfold Statement; decide
theorem EncodingWellFormed.mtNoninclProof : EncodingWellFormed.Statement .mtNoninclProof := by
  unfold Statement; decide
theorem EncodingWellFormed.mtVerifyNonincl : EncodingWellFormed.Statement .mtVerifyNonincl := by
  unfold Statement; decide

end Sys2Proof.Laws
end

