-- ==== Sys2Proof/Laws/Records.lean ====
section
/-! SUPPORT. The record formats read back what was laid out in them (spec/30_encoding.md R75 to R79), the ranges a loop
over leaves reads, and when a command that stores nothing is undisturbed (spec/20_memory.md R62, R63). -/

namespace Sys2Proof.Machine

@[simp] theorem slice_append_left (a b : Bytes) (n : Nat) (h : a.length = n) : slice (a ++ b) 0 n = a := by
  simp [slice, ← h]

theorem slice_append_right (a b : Bytes) (i n : Nat) : slice (a ++ b) (a.length + i) n = slice b i n := by
  rw [slice, slice, List.drop_append, List.drop_of_length_le (by omega), List.nil_append, Nat.add_sub_cancel_left]

/-- A leaf-digest array read back (R76). -/
theorem digestArray_flatten (hs : List Digest) (h : ∀ d ∈ hs, d.length = 32) :
    digestArray hs.flatten hs.length = hs := by
  induction hs with
  | nil => rfl
  | cons d hs ih =>
    have h1 := h d (by simp)
    have h2 := ih fun x hx => h x (by simp [hx])
    simp only [digestArray, List.flatten_cons, List.length_cons, List.range_succ_eq_map, List.map_cons, List.map_map]
    congr 1
    · exact slice_append_left _ _ _ h1
    · conv_rhs => rw [← h2, digestArray]
      apply List.map_congr_left
      intro j _
      simp only [Function.comp_def]
      rw [show 32 * j.succ = d.length + 32 * j by omega, slice_append_right]

theorem getD_append_cons (a b : Bytes) (x : Byte) : (a ++ x :: b).getD a.length 0 = x := by
  simp [List.getD_eq_getElem?_getD]

/-- The entries of an encoded path (R77, R78). -/
theorem proofEntries_encPath (es : List (Digest × Side)) (h : ∀ e ∈ es, e.1.length = 32) :
    proofEntries (encPath es) es.length = es.map fun e => (e.1, e.2.byte) := by
  induction es with
  | nil => rfl
  | cons e es ih =>
    have h1 := h e (by simp)
    have h2 := ih fun x hx => h x (by simp [hx])
    have hb : encPath (e :: es) = (e.1 ++ [e.2.byte]) ++ encPath es := rfl
    rw [hb, List.map_cons, ← h2]
    simp only [proofEntries, List.length_cons, List.range_succ_eq_map, List.map_cons, List.map_map]
    congr 1
    · simp only [Nat.mul_zero, Nat.zero_add, List.append_assoc]
      rw [slice_append_left _ _ _ h1, ← h1, List.cons_append, getD_append_cons]
    · apply List.map_congr_left
      intro j _
      simp only [Function.comp_def]
      rw [show 33 * j.succ = (e.1 ++ [e.2.byte]).length + 33 * j by simp; omega, slice_append_right]
      congr 1
      rw [List.getD_eq_getElem?_getD, List.getD_eq_getElem?_getD, Nat.add_assoc, List.getElem?_append_right (by omega),
        Nat.add_sub_cancel_left]

/-- Flags written and read back (R77). -/
@[simp] theorem Side.ofByte_byte (s : Side) : Side.ofByte s.byte = s := by cases s <;> rfl

theorem sidedEntries_bytes (es : List (Digest × Side)) :
    sidedEntries (es.map fun e => (e.1, e.2.byte)) = es := by
  simp [sidedEntries, Function.comp_def]

/-- A path, encoded as a proof and read back (R77, R78). -/
theorem proofOf_encPath (es : List (Digest × Side)) (h : ∀ e ∈ es, e.1.length = 32) :
    proofOf (encPath es) es.length = es := by
  rw [proofOf, proofEntries_encPath es h, sidedEntries_bytes]

theorem proofFlags_encPath (es : List (Digest × Side)) (h : ∀ e ∈ es, e.1.length = 32) :
    proofFlags (encPath es) es.length = es.map fun e => e.2.byte := by
  simp [proofFlags, proofEntries_encPath es h]

/-- The ranges the loop over leaves reads, when every leaf passes its checks (R63, R133). -/
theorem Check.leaves_reads (s : State) (table : Nat) : ∀ (count i : Nat) (k : List Bytes → Check),
    (∀ j, i ≤ j → j < i + count → rangeOk s (table + 16 * j) 16 = true ∧ leafOk s table j) →
    (Check.leaves s table count i k).reads
      = (List.range' i count).flatMap (fun j =>
          [⟨table + 16 * j, 16⟩, ⟨descAddr (descriptor s table j), descLen (descriptor s table j)⟩])
        ++ (k ((List.range' i count).map (leafOf s table))).reads := by
  intro count
  induction count with
  | zero => exact fun _ _ _ => rfl
  | succ count ih =>
    intro i k h
    obtain ⟨h1, h2, h3⟩ := h i (Nat.le_refl i) (by omega)
    simp only [descriptor] at h2 h3
    rw [Check.leaves, Check.memRead_reads, if_pos h1, Check.raiseIf_neg (by omega), Check.memRead_reads,
      if_pos ((rangeOk_iff _ _ _).mpr h3), ih _ _ (fun j hj hj' => h j (by omega) (by omega))]
    rfl

/-- Depths fit the COUNT byte of a neighbour block (R78, R79). -/
theorem depth_le (m n : Nat) (h : n < 2 ^ 64) : depth m n ≤ 64 := by
  rw [depth, ← expFlagsTo_eq_expFlags 64 m n (by omega)]
  exact length_expFlagsTo_le 64 m n

theorem foldFrom_append (h : Digest) (a b : List (Digest × Side)) :
    foldFrom h (a ++ b) = foldFrom (foldFrom h a) b := by
  simp [foldFrom]

/-- A command that stores nothing writes no range. -/
theorem writeRange_of_not_storing (i : Instr) (s : State) (hi : i ∉ storingCommands) :
    (checkOf i s).writeRange.len = 0 := by
  have h := checkOf_sat i s
  simp only [Check.writeRange]
  cases hr : (checkOf i s).res with
  | error e => rfl
  | ok e =>
    have hb := (h.ok e hr).bound
    show e.bytes.length = 0
    rw [storeBound_of_not_storing i s hi] at hb
    omega

/-- A command that stores nothing is undisturbed while the host touches no memory. -/
theorem undisturbed_of_not_storing (i : Instr) (s : State) (hi : i ∉ storingCommands) (hr : s.hostReads = [])
    (hw : s.hostWrites = []) : undisturbed i s := by
  have h := writeRange_of_not_storing i s hi
  refine ⟨by rw [hostBreach, hr, hw]; simp, ?_, ?_⟩
  · rw [selfOverlap, List.any_eq_false]
    intro r _
    simp [Range.meets, h]
  · cases i <;> first | exact absurd (by decide) hi | rfl

/-- A BUF write of no byte changes nothing (R104). -/
@[simp] theorem bufStore_nil (b : Vector Byte 64) : bufStore b [] = b := by
  apply Vector.toArray_inj.mp
  have h : b.toList.take 64 = b.toList := List.take_of_length_le (by simp)
  simp only [bufStore, List.length_nil, List.drop_zero, List.nil_append, h]
  rfl

end Sys2Proof.Machine
end

