-- ==== Sys2Proof/Tests/Slice0.lean ====
section
/-! SUPPORT. The model's own tests: words written out from the opcode map, ill-formed terms each check refuses, small
vectors of spec/95_test_vectors.md (the table each comes from is named), and, for every statement with hypotheses, a
concrete state that meets them, clause by clause at the edges of each range. -/

namespace Sys2Proof.Tests

-- The tests evaluate in the kernel; one after another, or they take too much memory at once.
set_option Elab.async false


open Sys2Proof.Machine

/-! ### States the tests are about -/

/-- The next state of a step; the reset state if it stopped. -/
def nextOf (o : Host.Outcome State Fault Refusal) : State :=
  match o with
  | .next t => t
  | .fault _ => State.reset
  | .refused _ => State.reset

/-- `s` with bytes stored at an address. -/
def put (a : Nat) (bytes : Bytes) (s : State) : State := { s with mem := Memory.write s.mem a bytes }

/-- `s` with the source operand at `a`, `n` bytes. -/
def src (a n : Nat) (s : State) : State := { s with srcAddr := BitVec.ofNat 64 a, srcLen := BitVec.ofNat 64 n }

/-- `s` with the destination at `a`, `n` bytes. -/
def dst (a n : Nat) (s : State) : State := { s with dstAddr := BitVec.ofNat 64 a, dstLen := BitVec.ofNat 64 n }

/-- `s` with the auxiliary operand at `a`, `n` bytes. -/
def aux (a n : Nat) (s : State) : State := { s with auxAddr := BitVec.ofNat 64 a, auxLen := BitVec.ofNat 64 n }

/-- `s` with ARG0 and ARG1. -/
def args (x y : Nat) (s : State) : State := { s with arg0 := BitVec.ofNat 64 x, arg1 := BitVec.ofNat 64 y }

/-- An open context of `bits` bits, nothing buffered. -/
def opened (bits : Nat) : State := { State.reset with ctxState := .active, v := iv, bitcnt := BitVec.ofNat 64 bits }

/-- A command in flight. -/
def busyWith (w : Word) : State := { State.reset with inflight := some w, lastOp := opcodeField w }

/-- "abc". -/
def abc : Bytes := [0x61, 0x62, 0x63]

/-! ### Decoding: every command's word, written out bit by bit from the opcode map (R71) -/

theorem test_decode_nop : decode 0b00000000000000000000000000000000 = .ok .nop := by rfl
theorem test_decode_sm3Init : decode 0b00000000000000000000000000000001 = .ok .sm3Init := by rfl
theorem test_decode_sm3Inject : decode 0b00000000000000000000000000000010 = .ok .sm3Inject := by rfl
theorem test_decode_sm3Update : decode 0b00000000000000000000000000000011 = .ok .sm3Update := by rfl
theorem test_decode_sm3Compress : decode 0b00000000000000000000000000000100 = .ok .sm3Compress := by rfl
theorem test_decode_sm3Final : decode 0b00000000000000000000000000000101 = .ok .sm3Final := by rfl
theorem test_decode_sm3Hash : decode 0b00000000000000000000000000000110 = .ok .sm3Hash := by rfl
theorem test_decode_sm3Pad : decode 0b00000000000000000000000000000111 = .ok .sm3Pad := by rfl
theorem test_decode_leExtend : decode 0b00000000000000000000000000010000 = .ok .leExtend := by rfl
theorem test_decode_mtLeaf : decode 0b00000000000000000000000000100000 = .ok .mtLeaf := by rfl
theorem test_decode_mtNode : decode 0b00000000000000000000000000100001 = .ok .mtNode := by rfl
theorem test_decode_mtBuild : decode 0b00000000000000000000000000100010 = .ok .mtBuild := by rfl
theorem test_decode_mtInclProof : decode 0b00000000000000000000000000100011 = .ok .mtInclProof := by rfl
theorem test_decode_mtVerifyIncl : decode 0b00000000000000000000000000100100 = .ok .mtVerifyIncl := by rfl
theorem test_decode_mtNoninclProof : decode 0b00000000000000000000000000100101 = .ok .mtNoninclProof := by rfl
theorem test_decode_mtVerifyNonincl : decode 0b00000000000000000000000000100110 = .ok .mtVerifyNonincl := by rfl

/-- R72: the edges of the reserved opcodes, and MBZ. -/
theorem test_decode_reserved :
    decode 0x08 = .error .unassignedOpcode ∧ decode 0x0F = .error .unassignedOpcode ∧
    decode 0x11 = .error .unassignedOpcode ∧ decode 0x1F = .error .unassignedOpcode ∧
    decode 0x27 = .error .unassignedOpcode ∧ decode 0xFF = .error .unassignedOpcode ∧
    decode 0x00000100 = .error .mbzNonzero ∧ decode 0x80000001 = .error .mbzNonzero := by
  refine ⟨?_, ?_, ?_, ?_, ?_, ?_, ?_, ?_⟩ <;> rfl

/-- The host's numbering: 32 bits, and a word that needs more is none. -/
theorem test_decodeTableWord :
    decodeTableWord 32 0x26 = some .mtVerifyNonincl ∧ decodeTableWord 8 0x05 = some .sm3Final ∧
    decodeTableWord 32 0x08 = none ∧ decodeTableWord 40 0x100000000 = none := by decide

/-- The next step after `withFetchWord` is the command's completion. -/
theorem test_withFetchWord :
    (nextOf (step (State.reset.withFetchWord 32 0x05))).errcode = 0x11 ∧
    (nextOf (step (State.reset.withFetchWord 32 0x01))).ctxState = .active := by decide +kernel

/-! ### Well-formedness: an ill-formed term for each check -/

theorem smoke_commandWord_mbz : CommandWord.wf 0x00000100 = false := by decide
theorem smoke_commandWord_gap1 : CommandWord.wf 0x08 = false ∧ CommandWord.wf 0x0F = false := by decide
theorem smoke_commandWord_gap2 : CommandWord.wf 0x11 = false ∧ CommandWord.wf 0x1F = false := by decide
theorem smoke_commandWord_top : CommandWord.wf 0x27 = false ∧ CommandWord.wf 0xFF = false := by decide
theorem smoke_params_noMemory : Config.Params.wf ⟨0, 100000, 0⟩ = false := by decide
theorem smoke_params_tooMuchMemory : Config.Params.wf ⟨2 ^ 64 + 1, 100000, 0⟩ = false := by decide
theorem smoke_params_fewLeaves : Config.Params.wf ⟨1, 99999, 0⟩ = false := by decide
theorem smoke_access_width : accessOk 0x010 2 = false := by decide
theorem smoke_access_alignment : accessOk 0x012 4 = false := by decide
theorem smoke_input_write : Input.wf Config.Params.vectors (.regWrite 0x011 4 0) = false := by decide
theorem smoke_input_read : Input.wf Config.Params.vectors (.regRead 0x010 1) = false := by decide
theorem smoke_input_memWrite : Input.wf Config.Params.vectors (.memWrite (2 ^ 20) [0]) = false := by decide
theorem smoke_input_memRead : Input.wf Config.Params.vectors (.memRead (2 ^ 20 - 1) 2) = false := by decide

/-- The same checks accept the edges of what is well-formed. -/
theorem smoke_accepts :
    CommandWord.wf 0x26 = true ∧ Config.Params.wf ⟨2 ^ 64, 100000, 0⟩ = true ∧ accessOk 0xFFC 4 = true ∧
    Input.wf Config.Params.vectors (.memWrite (2 ^ 20 - 1) [0]) = true ∧
    Input.wf Config.Params.vectors (.memRead (2 ^ 40) 0) = true := by decide

/-! ### Instructions, on vectors of spec/95_test_vectors.md -/

/-- Tables 3a and 3e: padding lengths, and the bytes of Pad(24). -/
theorem test_pad : padLen 24 = 61 ∧ padLen 448 = 72 ∧ padLen 0 = 64 ∧
    pad 24 = 0x80 :: zeros 52 ++ [0, 0, 0, 0, 0, 0, 0, 0x18] := by decide +kernel

theorem test_nop : (nextOf (exec .nop State.reset)).irqStatus = 0b001 := by decide +kernel

/-- Table 2a, through SM3_INIT: the last word of the IV. -/
theorem test_sm3Init : (nextOf (exec .sm3Init State.reset)).v.w7 = 0xB0FB0E4E := by decide +kernel

/-- Table 3d, S10 and S5: a bit count off a block boundary, and the largest on one. -/
theorem test_sm3Inject :
    (nextOf (exec .sm3Inject { State.reset with bitcntIn := 8 })).errcode = 0x12 ∧
    (nextOf (exec .sm3Inject { State.reset with bitcntIn := BitVec.ofNat 64 (2 ^ 64 - 512) })).errFlag = false := by
  decide +kernel

/-- Table 3b: one byte of "aaa…" waits in the buffer. -/
theorem test_sm3Update :
    (nextOf (exec .sm3Update (src 0x1000 1 (put 0x1000 [0x61] (opened 0))))).bitcnt = 8 ∧
    (nextOf (exec .sm3Update (src 0x1000 1 (put 0x1000 [0x61] (opened 0))))).bufFill = 1 := by decide +kernel

/-- Table 3c, S4: the padded block of "abc" through BLK. -/
theorem test_sm3Compress :
    (nextOf (exec .sm3Compress
      { opened 0 with blk := (Vector.replicate 16 0).set 0 0x61626380 |>.set 15 0x18 })).v.w0 = 0x66c7f0f4 := by
  decide +kernel

/-- Table 4a, E4: a second SM3_FINAL is BAD_STATE. -/
theorem test_sm3Final :
    (nextOf (exec .sm3Final { State.reset with ctxState := .finalized })).errcode = 0x11 := by decide +kernel

/-- Table 1a: "abc". -/
theorem test_sm3Hash : (nextOf (exec .sm3Hash (src 0x1000 3 (put 0x1000 abc State.reset)))).digest
    = ⟨0x66c7f0f4, 0x62eeedd9, 0xd1f2d46b, 0xdc10e4e2, 0x4167c487, 0x5cf2f7a2, 0x297da02b, 0x8f4ba8e0⟩ := by
  decide +kernel

/-- Table 3e, S14: the largest length that can be padded. -/
theorem test_sm3Pad :
    Memory.read (nextOf (exec .sm3Pad (dst 0x2000 72 (args (2 ^ 64 - 584) 0 State.reset)))).mem 0x2000 9
      = [0x80, 0xFF, 0xFF, 0xFF, 0xFF, 0xFF, 0xFF, 0xFD, 0xB8] := by decide +kernel

/-- Table 6a, X1: extending SM3("abc") by "def". -/
theorem test_leExtend :
    (nextOf (exec .leExtend (dst 0x2000 72 (src 0x1100 3 (put 0x1100 [0x64, 0x65, 0x66] (args 24 0
      { State.reset with stateIn := ⟨0x66c7f0f4, 0x62eeedd9, 0xd1f2d46b, 0xdc10e4e2, 0x4167c487, 0x5cf2f7a2,
          0x297da02b, 0x8f4ba8e0⟩ })))))).digest.w0 = 0xdb971139 := by
  decide +kernel

/-- Tables 7a and 7b: the leaf hash of "a". -/
theorem test_mtLeaf :
    (nextOf (exec .mtLeaf (src 0x1000 1 (put 0x1000 [0x61] State.reset)))).digest.w0 = 0xc688f41b := by
  decide +kernel

/-- Table 4a, E30: the right child's last byte is outside the memory. -/
theorem test_mtNode :
    (nextOf (exec .mtNode (aux (2 ^ 20 - 31) 0 State.reset))).errcode = 0x13 := by decide +kernel

/-- Table 4a, E39 and E40: the leaf-digest array does not fit. -/
theorem test_mtBuild :
    (nextOf (exec .mtBuild (dst 0 95 (args 3 0 State.reset)))).errcode = 0x14 ∧
    (nextOf (exec .mtBuild (dst (2 ^ 20 - 95) 96 (args 3 0 State.reset)))).errcode = 0x13 := by decide +kernel

/-- Table 7c: leaf 4 of 5 has depth 1 and flag L; leaf 0 has RRR. -/
theorem test_path : depth 4 5 = 1 ∧ expFlags 4 5 = [.left] ∧ expFlags 0 5 = [.right, .right, .right] := by
  decide +kernel

/-- R134 on a sealed tree of two leaves: RESULT0 is the depth, RESULT1 its bytes. -/
theorem test_mtInclProof :
    (nextOf (exec .mtInclProof (dst 0x3000 33 { State.reset with treeSealed := true, treeN := 2 }))).result1
      = 33 := by decide +kernel

/-- Table 4a, E42 and E43. -/
theorem test_mtVerifyIncl :
    (nextOf (exec .mtVerifyIncl (args 3 3 State.reset))).errcode = 0x01 ∧
    (nextOf (exec .mtVerifyIncl (aux 0 65 (args 0 3 State.reset)))).errcode = 0x02 := by decide +kernel

/-- Table 8a, tree of "m", key "c": the whole record, and 18 bytes are too few for it. -/
theorem test_mtNoninclProof :
    let s := src 0x6000 1 (put 0x6000 [0x63] (put 0x8000 [0x6D] (put 0x100 (be64 0x8000 ++ be64 1)
      { State.reset with treeSealed := true, treeSorted := true, treeN := 1, treeDesc := 0x100 })))
    Memory.read (nextOf (exec .mtNoninclProof (dst 0x3000 512 s))).mem 0x3000 19
      = [1] ++ zeros 8 ++ [0, 0, 0, 0, 0, 0, 0, 1, 0x6D, 0] ∧
    (nextOf (exec .mtNoninclProof (dst 0x3000 18 s))).errcode = 0x14 := by decide +kernel

/-- Table 4a, E45 and E46. -/
theorem test_mtVerifyNonincl :
    (nextOf (exec .mtVerifyNonincl State.reset)).errcode = 0x03 ∧
    (nextOf (exec .mtVerifyNonincl (args 0 3 State.reset))).errcode = 0x02 := by decide +kernel

/-! ### Witnesses: states that meet the hypotheses of the statements, clause by clause -/

/-- SM3_FINAL in flight, nothing to come. -/
def busyFinal : State := busyWith 0x05

theorem witness_DecodeEncode_Agree : decode 0x26 = .ok .mtVerifyNonincl := by rfl

theorem witness_ReservedWords_Rejected :
    (∀ w ∈ [(0x08 : Word), 0x0F, 0x11, 0x1F, 0x27, 0xFF, 0x100, 0xFFFFFFFF], ∀ i, decode w ≠ .ok i) ∧
    State.reset.busy = false ∧ (busyWith 0xFF).inflight = some 0xFF := by
  refine ⟨fun w hw i => ?_, rfl, rfl⟩
  simp only [List.mem_cons, List.not_mem_nil, or_false] at hw
  rcases hw with rfl | rfl | rfl | rfl | rfl | rfl | rfl | rfl <;> cases i <;> intro h <;> cases h

theorem witness_Step_CompletesCommandInFlight :
    (busyFinal.inflight = some 0x05 ∧ decode 0x05 = .ok .sm3Final ∧ busyFinal.inputs = []) ∧
    { busyFinal with inputs := [.engine, .wait] }.inputs = .engine :: [.wait] ∧
    ((busyWith 0xFF).inflight = some 0xFF ∧ (∀ i, decode 0xFF ≠ .ok i) ∧ (busyWith 0xFF).inputs = []) ∧
    (State.reset.inflight = none ∧ State.reset.inputs = []) ∧
    { State.reset with inputs := [.engine] }.inputs = .engine :: [] := by
  exact ⟨⟨rfl, rfl, rfl⟩, rfl, ⟨rfl, (fun i => by cases i <;> intro h <;> cases h), rfl⟩, ⟨rfl, rfl⟩, rfl⟩

/-- SM3_PAD of the empty message in flight, its 64 bytes at 0x2000. -/
def busyPad : State := dst 0x2000 64 (busyWith 0x07)

/-- The ranges of a host memory access at their edges, and a command in flight whose write range is precise, one whose
duty the host broke, one on a changed tree, and a reserved word. -/
theorem witness_Step_HostTurns :
    (2 ^ 20 - 1 + [(0 : Byte)].length ≤ State.reset.params.memBytes ∧
      ¬ ([(0 : Byte), 0].length = 0 ∨ 2 ^ 20 - 1 + [(0 : Byte), 0].length ≤ State.reset.params.memBytes)) ∧
    (busyPad.busy = true ∧ State.reset.busy = false) ∧
    (busyPad.inflight = some 0x07 ∧ decode 0x07 = .ok .sm3Pad ∧ hostBreach busyPad (checkOf .sm3Pad busyPad) = false ∧
      staleTree .sm3Pad busyPad = false) ∧
    (let s := { busyPad with hostReads := [⟨0x203F, 1⟩] }
     hostBreach s (checkOf .sm3Pad s) = true) ∧
    (let s := { busyWith 0x23 with treeSealed := true, treeTouched := true }
     s.inflight = some 0x23 ∧ decode 0x23 = .ok .mtInclProof ∧ staleTree .mtInclProof s = true) ∧
    (busyWith 0xFF).inflight = some 0xFF := by decide +kernel

/-- A host read of the bytes on the two sides of the destination's last one: the byte outside is memory's own. -/
theorem test_hostMemRead :
    (pendingRange busyPad).has 0x203F = true ∧ (pendingRange busyPad).has 0x2040 = false ∧
    (hostMemRead (put 0x2040 [0x61] busyPad) 0x2040 1).mdata = [0x61] := by decide +kernel

theorem witness_RunCommand_AcceptsAndCompletes : State.reset.busy = false ∧ State.reset.inputs = [] := ⟨rfl, rfl⟩

theorem witness_Accept_SetsExactly : State.reset.busy = false := rfl

theorem witness_Overrun_SetsOvrOnly : busyFinal.busy = true := rfl

theorem witness_ErrorCompletion_IsPrecise :
    ∃ t, busyFinal.errFlag = false ∧ exec .sm3Final busyFinal = .next t ∧ t.errFlag = true := ⟨_, rfl, rfl, rfl⟩

theorem witness_Sm3Inject_Outcome :
    { State.reset with bitcntIn := 511 }.bitcntIn.toNat % 512 ≠ 0 ∧
    { State.reset with bitcntIn := BitVec.ofNat 64 (2 ^ 64 - 512) }.bitcntIn.toNat % 512 = 0 := by decide

/-- A context 512 bits below the largest bit count, with the source operand at `a`, `n` bytes. -/
def nearlyFull (a n : Nat) : State := src a n (opened (2 ^ 64 - 512))

theorem witness_Sm3Update_Outcome :
    (undisturbed .sm3Update State.reset ∧ State.reset.ctxState ≠ .active) ∧
    (let s := nearlyFull 0 64
     undisturbed .sm3Update s ∧ s.ctxState = .active ∧ s.bitcnt.toNat + 8 * s.srcLen.toNat > 2 ^ 64 - 1) ∧
    (let s := nearlyFull (2 ^ 20 - 62) 63
     undisturbed .sm3Update s ∧ s.ctxState = .active ∧ s.bitcnt.toNat + 8 * s.srcLen.toNat ≤ 2 ^ 64 - 1 ∧
       ¬ validRange s s.srcAddr s.srcLen.toNat) ∧
    (let s := nearlyFull (2 ^ 20 - 63) 63
     undisturbed .sm3Update s ∧ s.ctxState = .active ∧ s.bitcnt.toNat + 8 * s.srcLen.toNat ≤ 2 ^ 64 - 1 ∧
       validRange s s.srcAddr s.srcLen.toNat) := by decide +kernel

theorem witness_Sm3Compress_Outcome :
    State.reset.ctxState ≠ .active ∧
    (let s := { opened 8 with bufFill := 1 }
     s.ctxState = .active ∧ s.bufFill ≠ 0) ∧
    (let s := opened (2 ^ 64 - 512)
     s.ctxState = .active ∧ s.bufFill = 0 ∧ s.bitcnt.toNat + 512 > 2 ^ 64 - 1) ∧
    (let s := opened (2 ^ 64 - 1024)
     s.ctxState = .active ∧ s.bufFill = 0 ∧ s.bitcnt.toNat + 512 ≤ 2 ^ 64 - 1) := by decide +kernel

theorem witness_Sm3Final_Outcome :
    State.reset.ctxState ≠ .active ∧
    (let s := { opened 504 with bufFill := 63 }
     s.ctxState = .active ∧ s.bitcnt.toNat % 512 = 8 * s.bufFill.toNat) ∧
    (let s := { opened 8 with bufFill := 0 }
     s.ctxState = .active ∧ s.bitcnt.toNat % 512 ≠ 8 * s.bufFill.toNat) := by decide

theorem witness_Sm3Hash_Outcome :
    (let s := src 0 (2 ^ 61) State.reset
     undisturbed .sm3Hash s ∧ 8 * s.srcLen.toNat > 2 ^ 64 - 1) ∧
    (let s := src 0 (2 ^ 61 - 1) State.reset
     undisturbed .sm3Hash s ∧ 8 * s.srcLen.toNat ≤ 2 ^ 64 - 1 ∧ ¬ validRange s s.srcAddr s.srcLen.toNat) ∧
    (let s := src (2 ^ 20 - 1) 1 State.reset
     undisturbed .sm3Hash s ∧ 8 * s.srcLen.toNat ≤ 2 ^ 64 - 1 ∧ validRange s s.srcAddr s.srcLen.toNat) ∧
    (let s := src (2 ^ 40) 0 State.reset
     undisturbed .sm3Hash s ∧ validRange s s.srcAddr s.srcLen.toNat) := by decide +kernel

theorem witness_Sm3Pad_Outcome :
    (let s := args 7 0 State.reset
     undisturbed .sm3Pad s ∧ s.arg0.toNat % 8 ≠ 0) ∧
    (let s := args (2 ^ 64 - 576) 0 State.reset
     let l := s.arg0.toNat
     undisturbed .sm3Pad s ∧ l % 8 = 0 ∧ l + 8 * padLen l > 2 ^ 64 - 1) ∧
    (let s := dst 0 60 (args 24 0 State.reset)
     let l := s.arg0.toNat
     undisturbed .sm3Pad s ∧ l % 8 = 0 ∧ l + 8 * padLen l ≤ 2 ^ 64 - 1 ∧ padLen l > s.dstLen.toNat) ∧
    (let s := dst (2 ^ 20 - 60) 61 (args 24 0 State.reset)
     let l := s.arg0.toNat
     undisturbed .sm3Pad s ∧ l % 8 = 0 ∧ l + 8 * padLen l ≤ 2 ^ 64 - 1 ∧ padLen l ≤ s.dstLen.toNat ∧
       ¬ validRange s s.dstAddr (padLen l)) ∧
    (let s := dst (2 ^ 20 - 9) 9 (args (2 ^ 64 - 584) 0 State.reset)
     let l := s.arg0.toNat
     undisturbed .sm3Pad s ∧ l % 8 = 0 ∧ l + 8 * padLen l ≤ 2 ^ 64 - 1 ∧ padLen l ≤ s.dstLen.toNat ∧
       validRange s s.dstAddr (padLen l)) := by decide +kernel

/-- LE_EXTEND of a known length of `l` bits and a suffix of `n` bytes at `a`, glue at `d` with room for `m` bytes. -/
def forging (l a n d m : Nat) : State := dst d m (src a n (args l 0 State.reset))

theorem witness_LeExtend_Outcome :
    (let s := forging 12 0 0 0 0
     undisturbed .leExtend s ∧ s.arg0.toNat % 8 ≠ 0) ∧
    (let s := forging (2 ^ 64 - 584) 0 64 0x2000 72
     let l := s.arg0.toNat
     undisturbed .leExtend s ∧ l % 8 = 0 ∧ l + 8 * padLen l + 8 * s.srcLen.toNat > 2 ^ 64 - 1) ∧
    (let s := forging (2 ^ 64 - 584) 0 63 0x2000 8
     let l := s.arg0.toNat
     undisturbed .leExtend s ∧ l % 8 = 0 ∧ l + 8 * padLen l + 8 * s.srcLen.toNat ≤ 2 ^ 64 - 1 ∧
       padLen l > s.dstLen.toNat) ∧
    (let s := forging 24 (2 ^ 20 - 2) 3 0x2000 61
     let l := s.arg0.toNat
     undisturbed .leExtend s ∧ l % 8 = 0 ∧ l + 8 * padLen l + 8 * s.srcLen.toNat ≤ 2 ^ 64 - 1 ∧
       padLen l ≤ s.dstLen.toNat ∧
       ¬ (validRange s s.srcAddr s.srcLen.toNat ∧ validRange s s.dstAddr (padLen l))) ∧
    (let s := forging 24 (2 ^ 20 - 3) 3 0x2000 61
     let l := s.arg0.toNat
     undisturbed .leExtend s ∧ l % 8 = 0 ∧ l + 8 * padLen l + 8 * s.srcLen.toNat ≤ 2 ^ 64 - 1 ∧
       padLen l ≤ s.dstLen.toNat ∧ validRange s s.srcAddr s.srcLen.toNat ∧
       validRange s s.dstAddr (padLen l)) := by decide +kernel

theorem witness_MtLeaf_Outcome :
    (let s := src 0 (2 ^ 61 - 1) State.reset
     undisturbed .mtLeaf s ∧ 8 * (s.srcLen.toNat + 1) > 2 ^ 64 - 1) ∧
    (let s := src 0 (2 ^ 61 - 2) State.reset
     undisturbed .mtLeaf s ∧ 8 * (s.srcLen.toNat + 1) ≤ 2 ^ 64 - 1 ∧ ¬ validRange s s.srcAddr s.srcLen.toNat) ∧
    (let s := src (2 ^ 20 - 1) 1 State.reset
     undisturbed .mtLeaf s ∧ 8 * (s.srcLen.toNat + 1) ≤ 2 ^ 64 - 1 ∧ validRange s s.srcAddr s.srcLen.toNat) := by
  decide +kernel

theorem witness_MtNode_Outcome :
    (let s := aux (2 ^ 20 - 31) 0 State.reset
     undisturbed .mtNode s ∧ ¬ (validRange s s.srcAddr 32 ∧ validRange s s.auxAddr 32)) ∧
    (let s := aux (2 ^ 20 - 32) 0 State.reset
     undisturbed .mtNode s ∧ validRange s s.srcAddr 32 ∧ validRange s s.auxAddr 32) := by decide +kernel

/-- MT_BUILD of `n` leaves whose descriptor table is at `t`, with room for `m` bytes at `d`. -/
def building (n t d m : Nat) : State := dst d m (src t 0 (args n 0 State.reset))

/-- Two descriptors at 0x100: an empty leaf, then a leaf of `n` bytes at `a`. -/
def twoLeaves (a n : Nat) : State :=
  put 0x100 (be64 0 ++ be64 0 ++ be64 (BitVec.ofNat 64 a) ++ be64 (BitVec.ofNat 64 n)) (building 2 0x100 0x2000 64)

theorem witness_MtBuild_Outcome :
    (let s := building (2 ^ 20 + 1) 0 0 0
     undisturbed .mtBuild s ∧ s.arg0.toNat > s.params.maxLeaves) ∧
    (let s := building (2 ^ 20) 0 0 (2 ^ 25 - 1)
     undisturbed .mtBuild s ∧ s.arg0.toNat ≤ s.params.maxLeaves ∧ 32 * s.arg0.toNat > s.dstLen.toNat) ∧
    (let s := building 3 0 (2 ^ 20 - 95) 96
     let n := s.arg0.toNat
     undisturbed .mtBuild s ∧ n ≤ s.params.maxLeaves ∧ 32 * n ≤ s.dstLen.toNat ∧
       ¬ (validRange s s.dstAddr (32 * n) ∧ validRange s s.srcAddr (16 * n))) ∧
    (∀ s ∈ [twoLeaves 0 (2 ^ 61 - 1), twoLeaves (2 ^ 20) 1],
     let n := s.arg0.toNat
     undisturbed .mtBuild s ∧ n ≤ s.params.maxLeaves ∧ 32 * n ≤ s.dstLen.toNat ∧
       validRange s s.dstAddr (32 * n) ∧ validRange s s.srcAddr (16 * n) ∧
       1 < n ∧ (∀ i, i < 1 → leafOk s s.srcAddr.toNat i) ∧ ¬ leafOk s s.srcAddr.toNat 1) ∧
    (let s := twoLeaves (2 ^ 20 - 1) 1
     let n := s.arg0.toNat
     undisturbed .mtBuild s ∧ n ≤ s.params.maxLeaves ∧ 32 * n ≤ s.dstLen.toNat ∧
       validRange s s.dstAddr (32 * n) ∧ validRange s s.srcAddr (16 * n) ∧
       ∀ i, i < n → leafOk s s.srcAddr.toNat i) ∧
    (let s := building 0 (2 ^ 30) (2 ^ 30) 0
     undisturbed .mtBuild s ∧ validRange s s.dstAddr (32 * s.arg0.toNat) ∧
       validRange s s.srcAddr (16 * s.arg0.toNat)) := by decide +kernel

/-- A sealed tree of `n` leaves with its leaf-digest array at `a`, leaf `i` asked for, room for `m` bytes at 0x3000. -/
def proving (n a i m : Nat) : State :=
  { dst 0x3000 m (args i 0 State.reset) with
    treeSealed := true, treeN := BitVec.ofNat 64 n, treeLda := BitVec.ofNat 64 a }

theorem witness_MtInclProof_Outcome :
    (undisturbed .mtInclProof State.reset ∧ State.reset.treeSealed = false) ∧
    (let s := proving 0 0 0 0
     undisturbed .mtInclProof s ∧ s.treeSealed = true ∧ s.treeN.toNat = 0) ∧
    (let s := proving 3 0 3 99
     undisturbed .mtInclProof s ∧ s.treeSealed = true ∧ s.treeN.toNat ≠ 0 ∧ s.arg0.toNat ≥ s.treeN.toNat) ∧
    (let s := proving 3 0 1 65
     let n := s.treeN.toNat
     let i := s.arg0.toNat
     undisturbed .mtInclProof s ∧ s.treeSealed = true ∧ i < n ∧ 33 * depth i n > s.dstLen.toNat) ∧
    (let s := proving 3 (2 ^ 20 - 95) 2 33
     let n := s.treeN.toNat
     let i := s.arg0.toNat
     undisturbed .mtInclProof s ∧ s.treeSealed = true ∧ i < n ∧ 33 * depth i n ≤ s.dstLen.toNat ∧
       ¬ (validRange s s.dstAddr (33 * depth i n) ∧ validRange s s.treeLda (32 * n))) ∧
    (let s := proving 3 (2 ^ 20 - 96) 2 33
     let n := s.treeN.toNat
     let i := s.arg0.toNat
     undisturbed .mtInclProof s ∧ s.treeSealed = true ∧ i < n ∧ 33 * depth i n ≤ s.dstLen.toNat ∧
       validRange s s.dstAddr (33 * depth i n) ∧ validRange s s.treeLda (32 * n)) := by decide +kernel

/-- Verifying leaf `i` of `n`, leaf of `l` bytes at `a`, proof of `b` bytes at 0x5000. -/
def verifying (i n a l b : Nat) : State := aux 0x5000 b (src a l (args i n State.reset))

theorem witness_MtVerifyIncl_Outcome_stops :
    (let s := verifying 0 0 0 0 0
     undisturbed .mtVerifyIncl s ∧ s.arg1.toNat = 0) ∧
    (let s := verifying 3 3 0 0 0
     undisturbed .mtVerifyIncl s ∧ s.arg1.toNat ≠ 0 ∧ s.arg0.toNat ≥ s.arg1.toNat) ∧
    (∀ s ∈ [verifying 0 3 0 0 65, verifying 2 3 0 0 66],
     undisturbed .mtVerifyIncl s ∧ s.arg0.toNat < s.arg1.toNat ∧
       s.auxLen.toNat ≠ 33 * depth s.arg0.toNat s.arg1.toNat) ∧
    (let s := verifying 2 3 0 (2 ^ 61 - 1) 33
     undisturbed .mtVerifyIncl s ∧ s.arg0.toNat < s.arg1.toNat ∧
       s.auxLen.toNat = 33 * depth s.arg0.toNat s.arg1.toNat ∧ 8 * (s.srcLen.toNat + 1) > 2 ^ 64 - 1) ∧
    (let s := verifying 2 3 0 (2 ^ 61 - 2) 33
     undisturbed .mtVerifyIncl s ∧ s.arg0.toNat < s.arg1.toNat ∧
       s.auxLen.toNat = 33 * depth s.arg0.toNat s.arg1.toNat ∧ 8 * (s.srcLen.toNat + 1) ≤ 2 ^ 64 - 1 ∧
       ¬ (validRange s s.srcAddr s.srcLen.toNat ∧ validRange s s.auxAddr s.auxLen.toNat)) := by decide +kernel

/-- The expected flag of leaf 2 of 3 is L, 0x00. -/
theorem witness_MtVerifyIncl_Outcome_flags :
    ∀ p ∈ [((0x01 : Byte), false), (0x02, false), (0x00, true)],
     let s := put 0x5020 [p.1] (verifying 2 3 (2 ^ 20 - 1) 1 33)
     undisturbed .mtVerifyIncl s ∧ s.arg0.toNat < s.arg1.toNat ∧
       s.auxLen.toNat = 33 * depth s.arg0.toNat s.arg1.toNat ∧ 8 * (s.srcLen.toNat + 1) ≤ 2 ^ 64 - 1 ∧
       validRange s s.srcAddr s.srcLen.toNat ∧ validRange s s.auxAddr s.auxLen.toNat ∧
       decide (proofFlags (auxBytes s) (s.auxLen.toNat / 33) = expFlagBytes s.arg0.toNat s.arg1.toNat) = p.2 := by
  decide +kernel

/-- A sealed sorted tree of the leaves "b" and "d" (leaf table at 0x100, leaves at 0x8000, digest array at `lda`), asked
for a key of one byte `k` at 0x6000, with room for `m` bytes at `d`. -/
def absent (k : Byte) (lda d m : Nat) : State :=
  { put 0x6000 [k] (put 0x8000 [0x62, 0x64] (put 0x100 (be64 0x8000 ++ be64 1 ++ be64 0x8001 ++ be64 1)
      (dst d m (src 0x6000 1 State.reset)))) with
    treeSealed := true, treeSorted := true, treeN := 2, treeDesc := 0x100, treeLda := BitVec.ofNat 64 lda }

/-- A sealed sorted tree of `n` leaves with its descriptor table at `t`, and no byte of memory but descriptor 0, which
names a leaf of `l` bytes at `a`. -/
def absentFrom (n t a l : Nat) : State :=
  { put t (be64 (BitVec.ofNat 64 a) ++ be64 (BitVec.ofNat 64 l)) State.reset with
    treeSealed := true, treeSorted := true, treeN := BitVec.ofNat 64 n, treeDesc := BitVec.ofNat 64 t }

theorem witness_MtNoninclProof_Outcome_stops :
    (undisturbed .mtNoninclProof State.reset ∧ State.reset.treeSealed = false) ∧
    (let s := absentFrom 0 0x100 0 0
     undisturbed .mtNoninclProof s ∧ s.treeSealed = true ∧ s.treeN.toNat = 0) ∧
    (let s := { absentFrom 1 0x100 0 0 with treeSorted := false }
     undisturbed .mtNoninclProof s ∧ s.treeSealed = true ∧ s.treeN.toNat ≠ 0 ∧ s.treeSorted = false) ∧
    (let s := absentFrom 1 (2 ^ 20 - 15) 0 0
     undisturbed .mtNoninclProof s ∧ s.treeSealed = true ∧ s.treeN.toNat ≠ 0 ∧ s.treeSorted = true ∧
       ¬ (validRange s s.srcAddr s.srcLen.toNat ∧ validRange s s.treeDesc (16 * s.treeN.toNat))) ∧
    (∀ s ∈ [absentFrom 1 0x100 0 (2 ^ 61 - 1), absentFrom 1 0x100 (2 ^ 20 - 1) 2],
     undisturbed .mtNoninclProof s ∧ s.treeSealed = true ∧ s.treeN.toNat ≠ 0 ∧ s.treeSorted = true ∧
       validRange s s.srcAddr s.srcLen.toNat ∧ validRange s s.treeDesc (16 * s.treeN.toNat) ∧
       0 < s.treeN.toNat ∧ ¬ leafOk s s.treeDesc.toNat 0) ∧
    (let s := absent 0x63 (2 ^ 20 - 63) 0x3000 512
     undisturbed .mtNoninclProof s ∧ s.treeSealed = true ∧ s.treeN.toNat ≠ 0 ∧ s.treeSorted = true ∧
       validRange s s.srcAddr s.srcLen.toNat ∧ validRange s s.treeDesc (16 * s.treeN.toNat) ∧
       (∀ i, i < s.treeN.toNat → leafOk s s.treeDesc.toNat i) ∧
       ¬ validRange s s.treeLda (32 * s.treeN.toNat)) := by decide +kernel

/-- The key is present ("d"); absent with one byte of room too few, with a last byte outside the memory, and with just
enough room, for each of the three kinds ("c", "a", "e"). The record is 103 bytes, or 52 with one neighbour. -/
theorem witness_MtNoninclProof_Outcome_leaves :
    ∀ p ∈ [((0x64 : Byte), 0x3000, 103, 1), (0x63, 0x3000, 102, 1), (0x63, 2 ^ 20 - 102, 103, 1),
      (0x63, 2 ^ 20 - 103, 103, 1), (0x61, 2 ^ 20 - 52, 52, 0), (0x65, 2 ^ 20 - 52, 52, 2)],
     let s := absent p.1 0x2000 p.2.1 p.2.2.1
     undisturbed .mtNoninclProof s ∧ s.treeSealed = true ∧ s.treeN.toNat ≠ 0 ∧ s.treeSorted = true ∧
       validRange s s.srcAddr s.srcLen.toNat ∧ validRange s s.treeDesc (16 * s.treeN.toNat) ∧
       (∀ i, i < s.treeN.toNat → leafOk s s.treeDesc.toNat i) ∧ validRange s s.treeLda (32 * s.treeN.toNat) ∧
       keyPos (leavesOf s s.treeDesc.toNat s.treeN.toNat) (srcBytes s) = p.2.2.2 ∧
       (p.1 = 0x64 ↔ leafOf s s.treeDesc.toNat p.2.2.2 = srcBytes s) := by decide +kernel

/-- A non-inclusion record: its kind, and blocks of an index, a leaf, and the flags of a proof of zero siblings. -/
def record (kind : Byte) (blocks : List (Nat × Bytes × Bytes)) : Bytes :=
  kind :: blocks.flatMap fun b =>
    be64 (BitVec.ofNat 64 b.1) ++ be64 (BitVec.ofNat 64 b.2.1.length) ++ b.2.1
      ++ [BitVec.ofNat 8 b.2.2.length] ++ b.2.2.flatMap fun f => zeros 32 ++ [f]

/-- The neighbour that such a block parses to. -/
def neighbour (b : Nat × Bytes × Bytes) : Neighbour :=
  ⟨b.1, b.2.1, b.2.2.length, b.2.2.flatMap fun f => zeros 32 ++ [f]⟩

/-- Verifying a record against `n` leaves, the key of one byte `k` at 0x6000. -/
def refuting (n : Nat) (k : Byte) (r : Bytes) : State :=
  put 0x6000 [k] (put 0x5000 r (aux 0x5000 r.length (src 0x6000 1 (args 0 n State.reset))))

theorem witness_MtVerifyNonincl_Outcome_stops :
    (let s := refuting 0 0 []
     undisturbed .mtVerifyNonincl s ∧ s.arg1.toNat = 0) ∧
    (let s := aux (2 ^ 20 - 18) 19 (refuting 1 0 [])
     undisturbed .mtVerifyNonincl s ∧ s.arg1.toNat ≠ 0 ∧
       ¬ (validRange s s.srcAddr s.srcLen.toNat ∧ validRange s s.auxAddr s.auxLen.toNat)) ∧
    (∀ r ∈ [[], record 3 [(0, [], [])], record 1 [(0, [], [])] ++ [0], (record 1 [(0, [], [0])]).take 50],
     let s := refuting 1 0x63 r
     undisturbed .mtVerifyNonincl s ∧ s.arg1.toNat ≠ 0 ∧ validRange s s.srcAddr s.srcLen.toNat ∧
       validRange s s.auxAddr s.auxLen.toNat ∧ parseNir (auxBytes s) = .error .malformedProof) := by decide +kernel

/-- Blocks that do not pass, first and second of their record: an index out of range, a wrong count, wrong flags. -/
theorem witness_MtVerifyNonincl_Outcome_blocks :
    (∀ b ∈ [(2, [0x62], []), (0, [0x62], []), (0, [0x62], [0x00]), (0, [0x62], [0x02])],
     let s := refuting 2 0x63 (record 1 [b])
     undisturbed .mtVerifyNonincl s ∧ s.arg1.toNat ≠ 0 ∧ validRange s s.srcAddr s.srcLen.toNat ∧
       validRange s s.auxAddr s.auxLen.toNat ∧ parseNir (auxBytes s) = .ok (.beforeFirst, [neighbour b]) ∧
       ¬ Neighbour.ok 2 (neighbour b)) ∧
    (let a := (0, [0x62], [0x01])
     let b := (1, [0x64], [0x01])
     let s := refuting 2 0x63 (record 0 [a, b])
     undisturbed .mtVerifyNonincl s ∧ s.arg1.toNat ≠ 0 ∧ validRange s s.srcAddr s.srcLen.toNat ∧
       validRange s s.auxAddr s.auxLen.toNat ∧ parseNir (auxBytes s) = .ok (.bracket, [neighbour a, neighbour b]) ∧
       Neighbour.ok 2 (neighbour a) ∧ ¬ Neighbour.ok 2 (neighbour b)) := by decide +kernel

/-- Blocks that pass, with the index the kind asks for and another. -/
theorem witness_MtVerifyNonincl_Outcome_kinds :
    (∀ p ∈ [((0x01 : Byte), NirKind.beforeFirst, 0, (0x01 : Byte)), (0x01, .beforeFirst, 1, 0x00),
        (0x02, .afterLast, 0, 0x01), (0x02, .afterLast, 1, 0x00)],
     let b := (p.2.2.1, [0x62], [p.2.2.2])
     let s := refuting 2 0x63 (record p.1 [b])
     undisturbed .mtVerifyNonincl s ∧ s.arg1.toNat ≠ 0 ∧ validRange s s.srcAddr s.srcLen.toNat ∧
       validRange s s.auxAddr s.auxLen.toNat ∧ parseNir (auxBytes s) = .ok (p.2.1, [neighbour b]) ∧
       Neighbour.ok 2 (neighbour b) ∧ (neighbour b).index = p.2.2.1) ∧
    (∀ p ∈ [(0, (0x01 : Byte), 1, (0x00 : Byte)), (1, 0x00, 0, 0x01)],
     let a := (p.1, [0x62], [p.2.1])
     let b := (p.2.2.1, [0x64], [p.2.2.2])
     let s := refuting 2 0x63 (record 0 [a, b])
     undisturbed .mtVerifyNonincl s ∧ s.arg1.toNat ≠ 0 ∧ validRange s s.srcAddr s.srcLen.toNat ∧
       validRange s s.auxAddr s.auxLen.toNat ∧ parseNir (auxBytes s) = .ok (.bracket, [neighbour a, neighbour b]) ∧
       Neighbour.ok 2 (neighbour a) ∧ Neighbour.ok 2 (neighbour b) ∧
       (p.1 = 0 ↔ (neighbour b).index = (neighbour a).index + 1)) := by decide +kernel

/-- The verdict's hypothesis is met by the verdict itself. -/
theorem witness_MtVerifyNonincl_Outcome_verdict (p : Prop) [Decidable p] : ∃ ok : Bool, (ok = true ↔ p) :=
  ⟨decide p, by simp⟩

theorem witness_ParseNir_AcceptsRecordLayout : parseNir [] = .error .malformedProof := by rfl

theorem witness_frames : ∃ t, exec .sm3Pad (dst 0 64 State.reset) = .next t := ⟨_, rfl⟩

theorem witness_ResultRegisters_WrittenOnlyByTheirCommands :
    Instr.nop ∉ contextCommands ∧ Instr.mtVerifyIncl ≠ .mtBuild ∧
    Instr.nop ∉ [Instr.sm3Final, .sm3Hash, .leExtend, .mtLeaf, .mtNode] ∧
    Instr.nop ∉ [Instr.sm3Pad, .leExtend, .mtBuild, .mtInclProof, .mtVerifyIncl, .mtNoninclProof, .mtVerifyNonincl] ∧
    Instr.nop ∉ [Instr.mtVerifyIncl, .mtVerifyNonincl] := by decide

theorem witness_Stores_StayInDestination :
    (let s := dst 0x2000 64 State.reset
     (∃ t, exec .sm3Pad s = .next t) ∧ Memory.wf s.mem = true ∧ 0x1FFF < s.dstAddr.toNat ∧
       s.dstAddr.toNat + min (storeBound .sm3Pad s) s.dstLen.toNat ≤ 0x2040) ∧
    Instr.mtNode ∉ storingCommands := by
  exact ⟨⟨⟨_, rfl⟩, rfl, by decide, by decide +kernel⟩, by decide⟩

theorem witness_OneShotCommands_IgnoreContextAndTree :
    Instr.leExtend ∉ contextCommands ∧ Instr.mtVerifyNonincl ∉ storingCommands := by decide

theorem witness_MemWrite_ReadsBack :
    Memory.wf [] = true ∧ Memory.wf (Memory.write [] 7 [0, 1]) = true ∧
    (7 ≤ 8 ∧ 8 < 7 + [(0 : Byte), 1].length) ∧ ¬ (7 ≤ 9 ∧ 9 < 7 + [(0 : Byte), 1].length) := by decide

/-- A host write of the last byte read, a host read of the last byte written, and a proof from a touched tree: of its
last leaf, of the index after it, and a non-inclusion proof. -/
theorem witness_BrokenDuty_OutcomeIsDrawn :
    (let s := { src 0x1000 3 State.reset with hostWrites := [⟨0x1002, 1⟩] }
     hostBreach s (checkOf .sm3Hash s) = true) ∧
    (let s := { src 0x1000 3 (opened 0) with hostWrites := [⟨0x1002, 1⟩] }
     hostBreach s (checkOf .sm3Update s) = true) ∧
    (let s := { dst 0x2000 64 State.reset with hostReads := [⟨0x203F, 1⟩] }
     hostBreach s (checkOf .sm3Pad s) = true) ∧
    (let s := { twoLeaves 0x8000 1 with hostWrites := [⟨0x8000, 1⟩] }
     hostBreach s (checkOf .mtBuild s) = true) ∧
    (∀ i ∈ [1, 2],
     let s := { proving 2 0x2000 i 33 with treeTouched := true }
     s.treeSealed = true ∧ s.treeTouched = true ∧ (i = 1 ↔ s.arg0.toNat < s.treeN.toNat)) ∧
    Instr.sm3Hash ∉ storingCommands := by decide +kernel

/-- A drawn success stores as many bytes as its rule gives, and none past DST_LEN (log 21). -/
theorem test_drawnEffect :
    (drawnEffect .sm3Pad (dst 0x2000 64 State.reset) 0).bytes.length = 64 ∧
    (drawnEffect .sm3Pad (dst 0x2000 63 State.reset) 0).bytes.length = 63 ∧
    (drawnEffect .mtVerifyIncl (dst 0x2000 64 State.reset) 0).bytes = [] := by decide +kernel

/-- The last byte of the suffix is the first of the glue. -/
theorem witness_SelfOverlap_leExtend :
    let s := forging 24 0x203C 3 0x2000 61
    let l := s.arg0.toNat
    let p := padLen l
    hostBreach s (checkOf .leExtend s) = false ∧ l % 8 = 0 ∧ l + 8 * p + 8 * s.srcLen.toNat ≤ 2 ^ 64 - 1 ∧
      p ≤ s.dstLen.toNat ∧ validRange s s.srcAddr s.srcLen.toNat ∧ validRange s s.dstAddr p ∧
      Range.meets ⟨s.srcAddr.toNat, s.srcLen.toNat⟩ ⟨s.dstAddr.toNat, p⟩ = true := by decide +kernel

/-- MT_BUILD whose array ends on the first byte of the table, and one whose array ends on the second leaf. -/
theorem witness_SelfOverlap_mtBuild :
    ∀ d ∈ [0x100 - 63, 0x8000 - 63],
    let s := dst d 64 (twoLeaves 0x8000 1)
    let n := s.arg0.toNat
    let w : Range := ⟨s.dstAddr.toNat, 32 * n⟩
    hostBreach s (checkOf .mtBuild s) = false ∧ n ≤ s.params.maxLeaves ∧ 32 * n ≤ s.dstLen.toNat ∧
      validRange s s.dstAddr (32 * n) ∧ validRange s s.srcAddr (16 * n) ∧
      (∀ i, i < n → leafOk s s.srcAddr.toNat i) ∧
      (d = 0x100 - 63 ↔ Range.meets ⟨s.srcAddr.toNat + 16 * 0, 16⟩ w = true) ∧
      (d = 0x8000 - 63 ↔ Range.meets ⟨descAddr (descriptor s s.srcAddr.toNat 1),
        descLen (descriptor s s.srcAddr.toNat 1)⟩ w = true) := by decide +kernel

/-- A proof of one entry that ends on the first byte of the leaf-digest array. -/
theorem witness_SelfOverlap_mtInclProof :
    let s := proving 2 0x3020 1 33
    let n := s.treeN.toNat
    let b := 33 * depth s.arg0.toNat n
    hostBreach s (checkOf .mtInclProof s) = false ∧ s.treeTouched = false ∧ s.treeSealed = true ∧
      s.arg0.toNat < n ∧ b ≤ s.dstLen.toNat ∧ validRange s s.dstAddr b ∧ validRange s s.treeLda (32 * n) ∧
      Range.meets ⟨s.treeLda.toNat, 32 * n⟩ ⟨s.dstAddr.toNat, b⟩ = true := by decide +kernel

/-- The record of 103 bytes for the absent key "c" ends on the key, on descriptor 0, on leaf 0, and on the array. -/
theorem witness_SelfOverlap_mtNoninclProof :
    ∀ d ∈ [0x6000 - 102, 0x100 - 102, 0x8000 - 102, 0x2000 - 102],
    let s := absent 0x63 0x2000 d 103
    let n := s.treeN.toNat
    let p := keyPosition s
    let w : Range := ⟨s.dstAddr.toNat, (recordOf s).length⟩
    (hostBreach s (checkOf .mtNoninclProof s) = false ∧ s.treeTouched = false ∧ s.treeSealed = true ∧ n ≠ 0 ∧
      s.treeSorted = true ∧ validRange s s.srcAddr s.srcLen.toNat ∧ validRange s s.treeDesc (16 * n)) ∧
    ((∀ i, i < n → leafOk s s.treeDesc.toNat i) ∧ validRange s s.treeLda (32 * n) ∧
      ¬ (p < n ∧ leafOf s s.treeDesc.toNat p = srcBytes s) ∧ (recordOf s).length ≤ s.dstLen.toNat ∧
      validRange s s.dstAddr (recordOf s).length) ∧
    (d = 0x6000 - 102 ↔ Range.meets ⟨s.srcAddr.toNat, s.srcLen.toNat⟩ w = true) ∧
    (d = 0x100 - 102 ↔ Range.meets ⟨s.treeDesc.toNat + 16 * 0, 16⟩ w = true) ∧
    (d = 0x8000 - 102 ↔ Range.meets ⟨descAddr (descriptor s s.treeDesc.toNat 0),
      descLen (descriptor s s.treeDesc.toNat 0)⟩ w = true) ∧
    (d = 0x2000 - 102 ↔ Range.meets ⟨s.treeLda.toNat, 32 * n⟩ w = true) := by decide +kernel

/-- SM3_PAD whose last byte is the first of the leaf-digest array of a sealed tree. -/
def touching : State := { proving 1 0x2000 0 0 with dstAddr := 0x1FC1, dstLen := 64 }

/-- A WAIT poll and a write of an argument register on a touched tree. -/
theorem witness_TreeMemory_hostTurns :
    ∀ x ∈ [Input.wait, .regWrite 0x020 4 1, .regWrite 0x008 4 0],
    let s := { State.reset with treeTouched := true }
    s.treeTouched = true ∧ x ≠ .engine ∧ x ≠ .hardReset ∧ x ≠ .regWrite 0x008 4 1 ∧
      ∃ t, step { s with inputs := [x] } = .next t := by
  intro x h
  simp only [List.mem_cons, List.not_mem_nil, or_false] at h
  rcases h with rfl | rfl | rfl <;> exact ⟨rfl, by decide, by decide, by decide, _, rfl⟩

theorem witness_TreeMemory_TouchedUntilNextBuild :
    (let s := proving 1 0x2000 0 0
     (∃ r ∈ treeMemory s, r.meets ⟨0x201F, 2⟩ = true) ∧ [(0 : Byte), 0].length = 2) ∧
    (∃ e t, (resolve .sm3Pad touching (checkOf .sm3Pad touching)).1 = .ok e ∧
      (∃ r ∈ treeMemory touching, r.meets ⟨e.addr, e.bytes.length⟩ = true) ∧ exec .sm3Pad touching = .next t) ∧
    (let s := { State.reset with treeTouched := true }
     Instr.nop ≠ .mtBuild ∧ s.treeTouched = true ∧ ∃ t, exec .nop s = .next t) ∧
    (let s := building 0 0 0 0
     s.errFlag = false ∧ ∃ t, exec .mtBuild s = .next t ∧ t.errFlag = false) := by
  refine ⟨by decide +kernel, ⟨⟨[.result0 64, .result1 512], 0x1FC1, pad 0⟩, _, ?_, by decide +kernel, rfl⟩, ⟨by decide, rfl, _, rfl⟩, rfl, _, rfl,
    ?_⟩
  · rfl
  decide +kernel

/-- R26: SRC_ADDR written in two halves, LO at 0x020 and HI at 0x024. -/
theorem test_pair_halves :
    (hostWrite (hostWrite State.reset 0x020 4 1) 0x024 4 2).srcAddr = 0x0000000200000001 := by decide +kernel

theorem witness_registers :
    Reg.ofOffset 0x15C = some (.hi .treeLda) ∧
    (State.reset.busy = false ∧ Pair.isResult .bitcntIn = false) ∧ Pair.isResult .treeLda = true ∧
    (0x144 % 4 = 0 ∧ 0x144 ≠ Reg.offset .treeStatus) ∧ (0x146 % 4 ≠ 0) ∧
    (busyFinal.busy = true ∧ Reg.blk 15 ∉ [Reg.ctrl, .irqStatus, .irqEnable, .cmd]) := by decide

theorem witness_OutsideTheMap_ReadsAndWrites :
    ∀ off ∈ [(0x144 : BitVec 12), 0x160, 0xFFC], off.toNat % 4 = 0 ∧ ∀ r : Reg, off.toNat ≠ r.offset := by
  intro off h
  simp only [List.mem_cons, List.not_mem_nil, or_false] at h
  rcases h with rfl | rfl | rfl <;> refine ⟨by decide, fun r => ?_⟩ <;>
    cases r with
    | lo p => cases p <;> decide
    | hi p => cases p <;> decide
    | stateIn i => revert i; decide
    | v i => revert i; decide
    | digest i => revert i; decide
    | root i => revert i; decide
    | blk i => revert i; decide
    | id => decide
    | version => decide
    | ctrl => decide
    | status => decide
    | cmd => decide
    | irqStatus => decide
    | irqEnable => decide
    | ctxStatus => decide
    | treeStatus => decide

theorem witness_resets :
    (1 : Word).getLsbD 0 = true ∧ Memory.wf State.reset.mem = true ∧ State.reset.inflight = none ∧
    (busyWith 0xFF).inflight = some 0xFF ∧ decode 0xFF = .error .unassignedOpcode ∧
    (busyWith 0x07).inflight = some 0x07 ∧ decode 0x07 = .ok .sm3Pad ∧
    (∃ u, exec .sm3Pad (busyWith 0x07) = .next u) ∧
    ∃ t, t = hardReset State.reset := by
  exact ⟨by decide, rfl, rfl, rfl, rfl, rfl, rfl, ⟨_, rfl⟩, _, rfl⟩

/-- SM3_UPDATE in flight in a context with one byte buffered. -/
def busyUpdate : State := { opened 8 with bufFill := 1, inflight := some 0x03, lastOp := 0x03 }

theorem witness_Step_KeepsInvariant :
    Inv busyUpdate ∧ ∃ t, step busyUpdate = .next t := by
  refine ⟨?_, _, rfl⟩
  exact
    { memWf := rfl
      memWithin := fun c h => by cases h
      ctxActive := fun _ => by decide
      ctxClosed := fun h => absurd rfl h
      ctxIdle := fun h => by cases h
      codeOk := by decide
      errIff := by decide
      busyClear := fun _ => ⟨rfl, rfl⟩
      busyLastOp := fun w h => by cases h; rfl
      verdictOp := fun h => by cases h }

/-- Three parts: one byte, the last hundred bytes of memory, and none. -/
def threeParts : List (U64 × U64) :=
  [(0x1000, 1), (BitVec.ofNat 64 (2 ^ 20 - 100), 100), (BitVec.ofNat 64 (2 ^ 40), 0)]

theorem threeParts_length : (partsBytes State.reset threeParts).length = 101 := by decide +kernel

theorem witness_Streaming_EqualsOneShot :
    (∀ p ∈ threeParts, validRange State.reset p.1 p.2.toNat) ∧
      8 * (partsBytes State.reset threeParts).length ≤ 2 ^ 64 - 1 :=
  ⟨fun p hp => by
      simp only [threeParts, List.mem_cons, List.not_mem_nil, or_false] at hp
      rcases hp with rfl | rfl | rfl <;> decide,
    by rw [threeParts_length]; decide⟩

theorem witness_Compress_EqualsUpdateOfBlock :
    let s := src (2 ^ 20 - 64) 64 (opened 0)
    undisturbed .sm3Update s ∧ s.bufFill = 0 ∧ s.srcLen = 64 ∧ validRange s s.srcAddr 64 ∧
      srcBytes s = s.blk.toList.flatMap be32 := by decide +kernel

theorem witness_LengthExtension :
    let s := { forging 24 0x1100 3 0x2000 61 with stateIn := deser (sm3 abc) }
    undisturbed .leExtend s ∧ s.stateIn = deser (sm3 abc) ∧ s.arg0.toNat = 8 * abc.length ∧
      8 * abc.length + 8 * padLen (8 * abc.length) + 8 * s.srcLen.toNat ≤ 2 ^ 64 - 1 ∧
      padLen (8 * abc.length) ≤ s.dstLen.toNat ∧ validRange s s.srcAddr s.srcLen.toNat ∧
      validRange s s.dstAddr (padLen (8 * abc.length)) ∧ Memory.wf s.mem = true := by
  exact ⟨by decide +kernel, rfl, by decide, by decide, by decide, by decide, by decide, rfl⟩

theorem witness_Path_FlagsAndDepth :
    4 < (List.replicate 5 (zeros 32)).length ∧ (2 ≤ 2 ∧ 1 < 2) ∧ 5 ≤ 2 ^ 3 ∧ 7 < 2 ^ 3 := by decide

theorem witness_Path_FoldsToRoot :
    [leafHash abc, leafHash []][1]? = some (leafHash []) := by rfl

/-- Table 8a: SM3(0x00 ‖ "b"), a sibling of its records. -/
def hashB : Bytes :=
  [0x72, 0x4a, 0xf6, 0x79, 0xdb, 0x01, 0x96, 0x24, 0x45, 0x26, 0xc0, 0x13, 0x8b, 0x43, 0x8a, 0x44,
   0x45, 0x8c, 0x32, 0x0e, 0x7e, 0x61, 0x0e, 0x75, 0xe1, 0x3f, 0x3d, 0xec, 0x5f, 0x0c, 0xcb, 0xb9]

/-- Table 8a: SM3(0x00 ‖ "d"). -/
def hashD : Bytes :=
  [0x28, 0xfd, 0x62, 0x09, 0x86, 0xd7, 0x00, 0xef, 0xfe, 0x94, 0x21, 0x61, 0xaa, 0x92, 0xc1, 0xe6,
   0x32, 0xca, 0x00, 0xdd, 0x3d, 0xcb, 0xd6, 0x0a, 0xd0, 0xd3, 0xb4, 0x54, 0x50, 0x15, 0xb4, 0xfe]

theorem test_leafHash_b : leafHash [0x62] = hashB := by decide +kernel

theorem test_leafHash_d : leafHash [0x64] = hashD := by decide +kernel

/-- The sealed tree of "b" and "d", asked for a key of one byte, with room for `m` bytes at 0x3000. -/
def twoTree (k : Byte) (m : Nat) : State :=
  { put 0x2000 (hashB ++ hashD) (absent k 0x2000 0x3000 m) with root := deser (mth [leafHash [0x62], leafHash [0x64]]) }

theorem twoTree_leaves (m : Nat) :
    leavesOf (twoTree 0x63 m) (twoTree 0x63 m).treeDesc.toNat (twoTree 0x63 m).treeN.toNat = [[0x62], [0x64]] := by
  show leavesOf (twoTree 0x63 0) 0x100 2 = _
  decide +kernel

theorem twoTree_intact (m : Nat) : treeIntact (twoTree 0x63 m) := by
  have hl := twoTree_leaves m
  refine ⟨rfl, ?_, ?_, ?_, ?_⟩
  · show ∀ i, i < 2 → leafOk (twoTree 0x63 0) 0x100 i
    decide +kernel
  · rw [hl, List.map_cons, List.map_cons, test_leafHash_b, test_leafHash_d]
    show treeDigests (twoTree 0x63 0) = _
    decide +kernel
  · rw [hl]; rfl
  · rw [hl]; rfl

theorem witness_Build_SealsIntactTree :
    let s := twoLeaves 0x8000 1
    undisturbed .mtBuild s ∧ Memory.wf s.mem = true ∧ s.errFlag = false ∧
      ∃ t, exec .mtBuild s = .next t ∧ t.errFlag = false :=
  ⟨by decide +kernel, by decide +kernel, rfl, _, rfl, by decide +kernel⟩

theorem witness_InclusionProof_Verifies :
    let s := twoTree 0x63 33
    treeIntact s ∧ undisturbed .mtInclProof s ∧ Memory.wf s.mem = true ∧ s.errFlag = false ∧
      ∃ u, exec .mtInclProof s = .next u ∧ u.errFlag = false ∧ validRange u 0x8000 1 ∧
        Memory.read u.mem 0x8000 1 = leafOf s s.treeDesc.toNat s.arg0.toNat :=
  ⟨twoTree_intact 33, by decide +kernel, by decide +kernel, rfl, _, rfl, by decide +kernel, by decide +kernel,
    by decide +kernel⟩

/-- The tree of the one leaf "m": its inclusion proof is empty. -/
def oneLeaf : State :=
  { put 0x8000 [0x6D] (verifying 0 1 0x8000 1 0) with stateIn := deser (mth [leafHash [0x6D]]) }

theorem witness_InclusionProof_BindsTheLeaf :
    undisturbed .mtVerifyIncl oneLeaf ∧ oneLeaf.errFlag = false ∧ oneLeaf.verdict = false ∧
      oneLeaf.stateIn = deser (mth ([[0x6D]].map leafHash)) ∧ oneLeaf.arg1.toNat = [[(0x6D : Byte)]].length ∧
      ∃ t, exec .mtVerifyIncl oneLeaf = .next t ∧ t.verdict = true :=
  ⟨by decide +kernel, rfl, rfl, rfl, rfl, _, rfl, by decide +kernel⟩

theorem witness_NonInclusion_IsComplete :
    let s := twoTree 0x63 103
    treeIntact s ∧ undisturbed .mtNoninclProof s ∧ Memory.wf s.mem = true ∧ s.errFlag = false ∧
      ∃ u, exec .mtNoninclProof s = .next u ∧ u.errFlag = false ∧ validRange u 0x6000 1 ∧
        Memory.read u.mem 0x6000 1 = srcBytes s :=
  ⟨twoTree_intact 103, by decide +kernel, by decide +kernel, rfl, _, rfl, by decide +kernel, by decide +kernel,
    by decide +kernel⟩

/-- The record that the key "c" lies before the one leaf "m", as table 8a gives it. -/
def beforeM : State :=
  { refuting 1 0x63 (record 1 [(0, [0x6D], [])]) with stateIn := deser (mth [leafHash [0x6D]]) }

theorem witness_NonInclusion_IsSound :
    undisturbed .mtVerifyNonincl beforeM ∧ beforeM.errFlag = false ∧ beforeM.verdict = false ∧
      sortedLeaves [[0x6D]] = true ∧ beforeM.stateIn = deser (mth ([[0x6D]].map leafHash)) ∧
      beforeM.arg1.toNat = [[(0x6D : Byte)]].length ∧
      ∃ t, exec .mtVerifyNonincl beforeM = .next t ∧ t.verdict = true :=
  ⟨by decide +kernel, rfl, rfl, rfl, rfl, rfl, _, rfl, by decide +kernel⟩

end Sys2Proof.Tests
end

section
/-! The proofs of the statements of spec/00_scope.md: the DMA memory as data, the fields of the registers as a host
reads them, and the turns of the host and the platform. -/

namespace Sys2Proof.Machine

/-! ### The DMA memory as data (R16, R49) -/

/-- What every byte reads as after MemWrite: `get_write_of_mem` and `get_write_of_not_mem` as one equation. -/
theorem Memory.get_write (m : List Host.Cell) (a : Nat) (bs : Bytes) (x : Nat) (h : Memory.wf m = true) :
    Memory.get (Memory.write m a bs) x
      = if a ≤ x ∧ x < a + bs.length then bs.getD (x - a) 0 else Memory.get m x := by
  split
  case isTrue hx =>
    have hmem := Memory.get_write_of_mem bs m a (x - a) h (by omega)
    rwa [Nat.add_sub_cancel' hx.1] at hmem
  case isFalse hx => exact Memory.get_write_of_not_mem bs m a x h (by omega)

/-- A canonical memory that lists a byte does not read like the empty one. -/
theorem Memory.exists_get_ne_of_cons (a : Nat) (b : Byte) (m : List Host.Cell)
    (h : Memory.wf ((a, b) :: m) = true) : ∃ x, Memory.get ((a, b) :: m) x ≠ Memory.get [] x := by
  refine ⟨a, ?_⟩
  obtain ⟨hb, -, -⟩ := (Memory.wf_cons a b m).mp h
  rwa [Memory.get_cons, if_pos rfl, Memory.get_nil]

/-- Canonical memories whose heads have the same address and that read alike have alike tails. -/
theorem Memory.get_tail_eq (a : Nat) (b b' : Byte) (m m' : List Host.Cell) (h : Memory.wf ((a, b) :: m) = true)
    (h' : Memory.wf ((a, b') :: m') = true)
    (hg : ∀ x, Memory.get ((a, b) :: m) x = Memory.get ((a, b') :: m') x) (x : Nat) :
    Memory.get m x = Memory.get m' x := by
  obtain ⟨-, hlow, -⟩ := (Memory.wf_cons a b m).mp h
  obtain ⟨-, hlow', -⟩ := (Memory.wf_cons a b' m').mp h'
  by_cases hx : a = x
  · subst hx
    rw [Memory.get_of_lt m a hlow, Memory.get_of_lt m' a hlow']
  · simpa only [Memory.get_cons, if_neg hx] using hg x

/-- The canonical form is one: memories that read alike are the same list (log 5). -/
theorem Memory.ext_get (m : List Host.Cell) : ∀ m' : List Host.Cell, Memory.wf m = true → Memory.wf m' = true →
    (∀ x, Memory.get m x = Memory.get m' x) → m = m' := by
  induction m with
  | nil =>
    rintro (_ | ⟨⟨a, b⟩, m'⟩) _ h' hg
    · rfl
    · obtain ⟨x, hx⟩ := Memory.exists_get_ne_of_cons a b m' h'
      exact absurd (hg x).symm hx
  | cons c m ih =>
    obtain ⟨a, b⟩ := c
    rintro (_ | ⟨⟨a', b'⟩, m'⟩) h h' hg
    · obtain ⟨x, hx⟩ := Memory.exists_get_ne_of_cons a b m h
      exact absurd (hg x) hx
    · obtain ⟨-, -, hm⟩ := (Memory.wf_cons a b m).mp h
      obtain ⟨-, -, hm'⟩ := (Memory.wf_cons a' b' m').mp h'
      have hle := Memory.ext_head a a' b b' m m' h h' hg
      have hge := Memory.ext_head a' a b' b m' m h' h fun x => (hg x).symm
      obtain rfl : a = a' := by omega
      have hb : b = b' := by simpa [Memory.get_cons] using hg a
      rw [hb, ih m' hm hm' (Memory.get_tail_eq a b b' m m' h h' hg)]

/-- Settles O34: MemWrite stores byte `k` at `a + k`, and reads determine a canonical memory. -/
theorem memWrite_ReadsBack : Obligations.MemWrite_ReadsBack :=
  ⟨fun m a bytes h => ⟨Memory.wf_write bytes m a h, fun x => Memory.get_write m a bytes x h⟩, Memory.ext_get⟩

/-! ### The fields of the registers (R24, R26, R34, R36 to R38, R40) -/

/-- The value of two fields side by side, the high one first. -/
theorem toNat_append_fields {m n : Nat} (x : BitVec m) (y : BitVec n) :
    (x ++ y).toNat = x.toNat * 2 ^ n + y.toNat := by
  rw [BitVec.toNat_append, ← Nat.shiftLeft_add_eq_or_of_lt y.isLt, Nat.shiftLeft_eq]

theorem toNat_zero_append {m n : Nat} (x : BitVec n) : ((0 : BitVec m) ++ x).toNat = x.toNat := by
  rw [toNat_append_fields]
  simp

@[simp] theorem toNat_bit (b : Bool) : (bit b).toNat = b.toNat := BitVec.toNat_ofBool b

theorem CtxState.toNat_code (c : CtxState) :
    c.code.toNat = match c with | .idle => 0 | .active => 1 | .finalized => 2 := by
  cases c <;> rfl

/-- STATUS of an idle engine: BUSY in [0], ERR in [1], VERDICT in [2], ERRCODE in [15:8], LAST_OP in [23:16] (R40). -/
theorem toNat_statusWord_idle (s : State) (h : s.busy = false) :
    (statusWord s).toNat
      = 2 * s.errFlag.toNat + 4 * s.verdict.toNat + 2 ^ 8 * s.errcode.toNat + 2 ^ 16 * s.lastOp.toNat := by
  simp only [statusWord, h, toNat_append_fields, toNat_bit, BitVec.ofNat_eq_ofNat, BitVec.toNat_ofNat,
    Bool.false_eq_true, if_false]
  omega

theorem toNat_ctxStatusWord (s : State) :
    (ctxStatusWord s).toNat
      = (match s.ctxState with | .idle => 0 | .active => 1 | .finalized => 2) + 2 ^ 8 * s.bufFill.toNat := by
  rw [← CtxState.toNat_code]
  simp only [ctxStatusWord, toNat_append_fields, BitVec.ofNat_eq_ofNat, BitVec.toNat_ofNat]
  omega

theorem toNat_treeStatusWord (s : State) :
    (treeStatusWord s).toNat = s.treeSealed.toNat + 2 * s.treeSorted.toNat := by
  simp only [treeStatusWord, toNat_append_fields, toNat_bit, BitVec.ofNat_eq_ofNat, BitVec.toNat_ofNat]
  omega

theorem toNat_irqStatusWord (s : State) : (irqStatusWord s).toNat = s.irqStatus.toNat :=
  toNat_zero_append s.irqStatus

theorem toNat_irqEnableWord (s : State) : (irqEnableWord s).toNat = s.irqEnable.toNat :=
  toNat_zero_append s.irqEnable

/-- A 64-bit value is its HI half above its LO half (R26). -/
theorem toNat_eq_halves (x : U64) : x.toNat = (hiHalf x).toNat * 2 ^ 32 + (loHalf x).toNat := by
  have hx := x.isLt
  simp only [hiHalf, loHalf, BitVec.extractLsb'_toNat, Nat.shiftRight_eq_div_pow]
  omega

/-- The two registers of a pair hold the value a command reads and writes (R15, R26). -/
theorem toNat_pairValue (s : State) (p : Pair) :
    (pairValue s p).toNat = (regValue s (.hi p)).toNat * 2 ^ 32 + (regValue s (.lo p)).toNat :=
  toNat_eq_halves (pairValue s p)

/-- Settles O43: each status register is the sum of its fields, each pair its two halves, each array its words. -/
theorem statusRegisters_Fields : Obligations.StatusRegisters_Fields := by
  intro s
  have hp := toNat_pairValue s
  refine ⟨toNat_statusWord_idle s, toNat_ctxStatusWord s, toNat_treeStatusWord s, toNat_irqStatusWord s,
    toNat_irqEnableWord s, ?arguments, ?results, ⟨rfl, rfl, rfl, rfl⟩, fun _ => rfl⟩
  case arguments =>
    exact ⟨hp .srcAddr, hp .srcLen, hp .auxAddr, hp .auxLen, hp .dstAddr, hp .dstLen, hp .arg0, hp .arg1,
      hp .bitcntIn⟩
  case results =>
    exact ⟨hp .result0, hp .result1, hp .bitcnt, hp .treeN, hp .treeDesc, hp .treeLda⟩

/-! ### The turns of the host and the platform (R21, R46, R62, R64, R151) -/

/-- A step takes the first turn given and uses it up (R151). -/
theorem step_cons (s : State) (x : Input) (rest : List Input) :
    step { s with inputs := x :: rest } = turn { s with inputs := rest } x := rfl

/-- A host write of memory, as one update: what MemWrite does, and the write is counted while busy (R62). -/
theorem hostMemWrite_eq (s : State) (a : Nat) (bytes : Bytes) :
    hostMemWrite s a bytes =
      { memWrite s a bytes with
        hostWrites := if s.busy then ⟨a, bytes.length⟩ :: s.hostWrites else s.hostWrites } := by
  unfold hostMemWrite
  cases s.busy <;> rfl

/-- A memory write inside [0, MEM_BYTES) is one step, and any other stops the machine (R46, log 12). -/
theorem turn_memWrite (s : State) (a : Nat) (bytes : Bytes) :
    turn s (.memWrite a bytes)
      = if bytes.length = 0 ∨ a + bytes.length ≤ s.params.memBytes then .next (hostMemWrite s a bytes)
        else .fault .hostMemoryRange := by
  simp only [turn, rangeOk_iff]

/-- A memory read inside [0, MEM_BYTES) is one step, and any other stops the machine (R46, log 12). -/
theorem turn_memRead (s : State) (a n : Nat) :
    turn s (.memRead a n)
      = if n = 0 ∨ a + n ≤ s.params.memBytes then .next (hostMemRead s a n) else .fault .hostMemoryRange := by
  simp only [turn, rangeOk_iff]

/-- The range a command in flight may write, by whether its outcome is a draw (R62, log 18). -/
theorem pendingRange_of_decode (s : State) (w : Word) (i : Instr) (hw : s.inflight = some w)
    (hd : decode w = .ok i) :
    pendingRange s =
      if hostBreach s (checkOf i s) = true ∨ staleTree i s = true
      then ⟨s.dstAddr.toNat, min (storeBound i s) (dstRoom s)⟩ else (checkOf i s).writeRange := by
  simp only [pendingRange, hw, hd, Bool.or_eq_true]

/-- Where no duty was broken and no tree changed, it is the check phase's write range. -/
theorem pendingRange_of_kept (s : State) (w : Word) (i : Instr) (hw : s.inflight = some w) (hd : decode w = .ok i)
    (hb : hostBreach s (checkOf i s) = false) (ht : staleTree i s = false) :
    pendingRange s = (checkOf i s).writeRange := by
  rw [pendingRange_of_decode s w i hw hd, hb, ht, if_neg (by decide)]

/-- Where the outcome is a draw, it is the most a drawn success may store. -/
theorem pendingRange_of_drawn (s : State) (w : Word) (i : Instr) (hw : s.inflight = some w) (hd : decode w = .ok i)
    (h : hostBreach s (checkOf i s) = true ∨ staleTree i s = true) :
    pendingRange s = ⟨s.dstAddr.toNat, min (storeBound i s) (dstRoom s)⟩ := by
  rw [pendingRange_of_decode s w i hw hd, if_pos h]

/-- A reserved word in flight writes no byte (R144). -/
theorem pendingRange_of_reserved (s : State) (w : Word) (hw : s.inflight = some w) (hd : ∀ i, decode w ≠ .ok i) :
    pendingRange s = ⟨0, 0⟩ := by
  cases h : decode w with
  | ok i => exact absurd h (hd i)
  | error e => simp only [pendingRange, hw, h]

theorem Range.has_zero (a x : Nat) : Range.has ⟨a, 0⟩ x = false := by
  simp only [Range.has, decide_eq_false_iff_not]
  omega

/-- Settles O5: each host access or reset is the step of its turn, and `pendingRange` is read off case by case. -/
theorem step_HostTurns : Obligations.Step_HostTurns := by
  intro s rest t
  refine ⟨fun _ _ _ => rfl, fun _ _ => rfl, fun a bytes => ?memWrite, fun a n => ?memRead, rfl,
    fun w i hw hd => ⟨?kept, ?drawn⟩, fun w hw hd x => ?reserved⟩
  case memWrite =>
    rw [step_cons, turn_memWrite, hostMemWrite_eq]
    rfl
  case memRead =>
    rw [step_cons, turn_memRead]
    rfl
  case kept => exact pendingRange_of_kept t w i hw hd
  case drawn => exact pendingRange_of_drawn t w i hw hd
  case reserved => rw [pendingRange_of_reserved t w hw hd, Range.has_zero]

end Sys2Proof.Machine
end

section
/-! The proofs of the statements of spec/10_state.md: what a completion leaves alone, the invariant of every reached
state, the register map, the host's accesses of the register block, the resets, and the tree MT_BUILD seals. -/

namespace Sys2Proof.Machine

/-! ### What a completion leaves alone (R30, R31, R39, R141) -/

/-- A view of the state that the bookkeeping of a completion does not touch changes only by a register write of a kind
in `ks`, so a command that writes no register of those kinds keeps it, whatever its outcome. -/
theorem exec_frame {α : Type} (f : State → α) (ks : List Nat) {i : Instr} {s t : State} (h : exec i s = .next t)
    (hf : ∀ (w : RegWrite) (u : State), w.kind ∉ ks → f (w.apply u) = f u)
    (hi : ∀ k ∈ kinds (resultRegs i), k ∉ ks)
    (herr : ∀ u e, f (errored u e) = f u := by intros; rfl) (hsucc : ∀ u, f (succeeded u) = f u := by intros; rfl)
    (hdraw : ∀ u n, f { u with draws := n } = f u := by intros; rfl)
    (hmem : ∀ a b u, f (memWrite u a b) = f u := by intros; rfl) : f t = f s := by
  obtain ⟨n, ⟨e, -, rfl⟩ | ⟨w, hw, rfl⟩⟩ := exec_cases i s t h
  · rw [herr, hdraw]
  · rw [hsucc, applyEffect_frame f ks hf i s w hw hi hmem, hdraw]

/-- The registers the host alone writes, the parameters, and the model's record of host reads and turns to come. -/
def hostSide (s : State) :=
  ((s.srcAddr, s.srcLen, s.auxAddr, s.auxLen, s.dstAddr, s.dstLen, s.arg0, s.arg1, s.bitcntIn, s.stateIn, s.blk),
    s.irqEnable, s.lastOp, s.params, s.rdata, s.mdata, s.inputs)

theorem RegWrite.apply_hostSide (w : RegWrite) (u : State) : hostSide (w.apply u) = hostSide u := by
  cases w <;> rfl

theorem exec_hostSide {i : Instr} {s t : State} (h : exec i s = .next t) : hostSide t = hostSide s :=
  exec_frame hostSide [] h (fun w u _ => w.apply_hostSide u) (fun _ _ => List.not_mem_nil)

/-- Settles O29: no register write of a write phase is one of the host's registers. -/
theorem argumentRegisters_NeverWritten : Obligations.ArgumentRegisters_NeverWritten := by
  intro i s t h
  simpa only [hostSide, Prod.mk.injEq] using exec_hostSide h

/-- The tree registers (R38). -/
def treeRegs (s : State) := (s.root, s.treeSealed, s.treeSorted, s.treeN, s.treeDesc, s.treeLda)

/-- What a register write leaves alone, register by register: each is changed by writes of its own kind only. -/
structure RegWrite.Frame (w : RegWrite) (u : State) : Prop where
  v : w.kind ∉ [0] → (w.apply u).v = u.v
  bitcnt : w.kind ∉ [1] → (w.apply u).bitcnt = u.bitcnt
  buf : w.kind ∉ [2] → (w.apply u).buf = u.buf
  bufFill : w.kind ∉ [3] → (w.apply u).bufFill = u.bufFill
  ctxState : w.kind ∉ [4] → (w.apply u).ctxState = u.ctxState
  digest : w.kind ∉ [5] → (w.apply u).digest = u.digest
  result0 : w.kind ∉ [7] → (w.apply u).result0 = u.result0
  result1 : w.kind ∉ [8] → (w.apply u).result1 = u.result1
  tree : w.kind ∉ [6, 9, 10, 11, 12] → treeRegs (w.apply u) = treeRegs u
  verdict : w.kind ∉ [13] → (w.apply u).verdict = u.verdict

theorem RegWrite.apply_frame (w : RegWrite) (u : State) : w.Frame u := by
  cases w <;> constructor <;> simp [RegWrite.kind, RegWrite.apply, treeRegs]

/-- Settles O30: each register is changed by one kind of register write, and R74 lists the kinds each command writes. -/
theorem resultRegisters_WrittenOnlyByTheirCommands : Obligations.ResultRegisters_WrittenOnlyByTheirCommands := by
  intro i s t h
  have frame := RegWrite.apply_frame
  refine ⟨fun hi => exec_frame State.v [0] h (fun w u => (frame w u).v) ?_,
    fun hi => exec_frame State.bitcnt [1] h (fun w u => (frame w u).bitcnt) ?_,
    fun hi => ⟨exec_frame State.buf [2] h (fun w u => (frame w u).buf) ?_,
      exec_frame State.bufFill [3] h (fun w u => (frame w u).bufFill) ?_⟩,
    fun hi => exec_frame State.ctxState [4] h (fun w u => (frame w u).ctxState) ?_,
    fun hi => exec_frame State.digest [5] h (fun w u => (frame w u).digest) ?_,
    fun hi => ?tree,
    fun hi => exec_frame State.result0 [7] h (fun w u => (frame w u).result0) ?_,
    fun hi => exec_frame State.result1 [8] h (fun w u => (frame w u).result1) ?_,
    fun hi => exec_frame State.verdict [13] h (fun w u => (frame w u).verdict) ?_⟩
  case tree =>
    have ht := exec_frame treeRegs [6, 9, 10, 11, 12] h (fun w u => (frame w u).tree)
      (by revert hi; cases i <;> decide)
    simpa only [treeRegs, Prod.mk.injEq] using ht
  all_goals
    revert hi
    cases i <;> decide

/-! ### The invariant, in three parts (R35, R40, R46, R139, R140) -/

/-- The memory part of `Inv`. -/
structure MemInv (s : State) : Prop where
  wf : Memory.wf s.mem = true
  within : Memory.within s.mem s.params.memBytes

/-- The context part of `Inv`. -/
structure CtxInv (s : State) : Prop where
  active : s.ctxState = .active → contextAligned s
  closed : s.ctxState ≠ .active → s.bufFill = 0
  idle : s.ctxState = .idle → s.v = Words8.zero ∧ s.bitcnt = 0

/-- The STATUS part of `Inv`. -/
structure StatusInv (s : State) : Prop where
  codeOk : codeRecorded s.errcode
  errIff : s.errFlag = true ↔ s.errcode ≠ 0
  busyClear : s.busy = true → s.errFlag = false ∧ s.verdict = false
  busyLastOp : ∀ w, s.inflight = some w → s.lastOp = opcodeField w
  verdictOp : s.verdict = true → s.errFlag = false ∧ (s.lastOp = 0x24 ∨ s.lastOp = 0x26)

theorem inv_iff (s : State) : Inv s ↔ MemInv s ∧ CtxInv s ∧ StatusInv s :=
  ⟨fun h => ⟨⟨h.memWf, h.memWithin⟩, ⟨h.ctxActive, h.ctxClosed, h.ctxIdle⟩,
      ⟨h.codeOk, h.errIff, h.busyClear, h.busyLastOp, h.verdictOp⟩⟩,
    fun ⟨m, c, f⟩ => ⟨m.wf, m.within, c.active, c.closed, c.idle, f.codeOk, f.errIff, f.busyClear, f.busyLastOp,
      f.verdictOp⟩⟩

/-- What the memory part is about. -/
def memView (s : State) := (s.params, s.mem)

/-- What the context part is about. -/
def ctxView (s : State) := (s.ctxState, s.bufFill, s.v, s.bitcnt)

/-- What the STATUS part is about. -/
def statusView (s : State) := (s.inflight, s.errFlag, s.verdict, s.errcode, s.lastOp)

theorem CtxInv.of_view {s t : State} (hs : CtxInv s) (h : ctxView t = ctxView s) : CtxInv t := by
  cases s
  cases t
  simp only [ctxView, Prod.mk.injEq] at h
  obtain ⟨rfl, rfl, rfl, rfl⟩ := h
  exact ⟨hs.active, hs.closed, hs.idle⟩

theorem StatusInv.of_view {s t : State} (hs : StatusInv s) (h : statusView t = statusView s) : StatusInv t := by
  cases s
  cases t
  simp only [statusView, Prod.mk.injEq] at h
  obtain ⟨rfl, rfl, rfl, rfl, rfl⟩ := h
  exact ⟨hs.codeOk, hs.errIff, hs.busyClear, hs.busyLastOp, hs.verdictOp⟩

/-- A MemWrite of a valid range keeps the memory part (R47). -/
theorem MemInv.of_write {s t : State} (hs : MemInv s) {a : Nat} {bs : Bytes} (hr : rangeOk s a bs.length = true)
    (h : memView t = (s.params, Memory.write s.mem a bs)) : MemInv t := by
  obtain ⟨hp, hm⟩ := Prod.mk.inj h
  refine ⟨?wf, ?within⟩
  case wf =>
    rw [hm]
    exact Memory.wf_write bs _ _ hs.wf
  case within =>
    rw [hm, hp]
    exact Memory.within_write bs _ _ _ hs.within ((rangeOk_iff _ _ _).mp hr)

theorem MemInv.of_view {s t : State} (hs : MemInv s) (h : memView t = memView s) : MemInv t :=
  hs.of_write (a := 0) (bs := []) rfl h

/-- A turn that changes nothing `Inv` is about keeps it. -/
theorem Inv.of_view {s t : State} (hs : Inv s) (hm : memView t = memView s) (hc : ctxView t = ctxView s)
    (hf : statusView t = statusView s) : Inv t := by
  obtain ⟨m, c, f⟩ := (inv_iff s).mp hs
  exact (inv_iff t).mpr ⟨m.of_view hm, c.of_view hc, f.of_view hf⟩

/-! ### A completion keeps the invariant (R141, R142) -/

theorem exec_params {i : Instr} {s t : State} (h : exec i s = .next t) : t.params = s.params := by
  obtain ⟨-, -, -, hp, -⟩ := argumentRegisters_NeverWritten i s t h
  exact hp

theorem exec_lastOp {i : Instr} {s t : State} (h : exec i s = .next t) : t.lastOp = s.lastOp := by
  obtain ⟨-, -, hop, -⟩ := argumentRegisters_NeverWritten i s t h
  exact hop

/-- A command stores inside the memory alone, drawn outcomes included (R47, R143). -/
theorem exec_memInv {i : Instr} {s t : State} (h : exec i s = .next t) (hs : MemInv s) : MemInv t := by
  have hp := exec_params h
  obtain ⟨n, ⟨e, -, rfl⟩ | ⟨w, hw, rfl⟩⟩ := exec_cases i s t h
  · exact hs.of_view rfl
  · exact hs.of_write hw.range (Prod.ext hp (applyEffect_mem _ w))

/-- The code of an error is one of the table, and none of them is 0 (R139). -/
theorem Err.code_recorded (e : Err) : codeRecorded e.code ∧ e.code ≠ 0 := by
  cases e <;> decide

theorem errored_statusInv (s : State) (e : Err) (hv : s.verdict = false) : StatusInv (errored s e) where
  codeOk := e.code_recorded.1
  errIff := iff_of_true rfl e.code_recorded.2
  busyClear h := nomatch h
  busyLastOp _ h := nomatch h
  verdictOp h := absurd (hv.symm.trans h) Bool.false_ne_true

theorem opcode_of_decodeOpcode {op : BitVec 8} {i : Instr} (h : decodeOpcode op = some i) : op = i.opcode := by
  simp only [decodeOpcode] at h
  split at h <;> cases h <;> exact BitVec.eq_of_toNat_eq ‹_›

/-- A word that decodes to a command has the command's opcode (R71). -/
theorem opcodeField_of_decode {w : Word} {i : Instr} (h : decode w = .ok i) : opcodeField w = i.opcode := by
  simp only [decode] at h
  split at h
  · split at h
    · next hop =>
      cases h
      exact opcode_of_decodeOpcode hop
    · cases h
  · cases h

/-- A write phase writes neither ERR nor ERRCODE (R142). -/
theorem applyEffect_error (s : State) (w : Effect) :
    (applyEffect s w).errFlag = s.errFlag ∧ (applyEffect s w).errcode = s.errcode := by
  have h := applyRegs_frame (fun u => (u.errFlag, u.errcode)) w.regs (fun r _ u => by cases r <;> rfl)
    (memWrite s w.addr w.bytes)
  exact Prod.mk.inj h

theorem exec_statusInv {i : Instr} {w : Word} {s t : State} (h : exec i s = .next t) (hw : s.inflight = some w)
    (hd : decode w = .ok i) (hs : StatusInv s) : StatusInv t := by
  obtain ⟨herr, hverd⟩ := hs.busyClear (by rw [State.busy, hw]; rfl)
  have hop : t.lastOp = i.opcode := by
    rw [exec_lastOp h, hs.busyLastOp w hw, opcodeField_of_decode hd]
  obtain ⟨-, -, -, -, -, -, -, -, hkeep⟩ := resultRegisters_WrittenOnlyByTheirCommands i s t h
  obtain ⟨n, ⟨e, -, rfl⟩ | ⟨eff, -, rfl⟩⟩ := exec_cases i s t h
  · exact errored_statusInv _ e hverd
  · obtain ⟨hflag, hcode⟩ := applyEffect_error { s with draws := s.draws + n } eff
    refine ⟨?code, ?err, (fun h => nomatch h), (fun _ h => nomatch h), fun hv => ⟨hflag.trans herr, ?verify⟩⟩
    case code =>
      rw [succeeded_errcode, hcode]
      exact hs.codeOk
    case err =>
      rw [succeeded_errFlag, succeeded_errcode, hflag, hcode]
      exact hs.errIff
    case verify =>
      have hi : ¬ i ∉ [Instr.mtVerifyIncl, .mtVerifyNonincl] := fun hi =>
        absurd ((hkeep hi).symm.trans hv) (by rw [hverd]; decide)
      rw [hop]
      revert hi
      cases i <;> decide

/-- STATUS with no error, no verdict and the LAST_OP of the word in flight, as the accept and a reset leave it. -/
theorem clear_statusInv {s : State} (herr : s.errFlag = false) (hcode : s.errcode = 0) (hverd : s.verdict = false)
    (hop : ∀ w, s.inflight = some w → s.lastOp = opcodeField w) : StatusInv s where
  codeOk := by
    rw [hcode]
    decide
  errIff := by simp [herr, hcode]
  busyClear _ := ⟨herr, hverd⟩
  busyLastOp := hop
  verdictOp h := absurd (hverd.symm.trans h) Bool.false_ne_true

/-! The context registers, command by command (R35). -/

/-- A command outside the streaming unit keeps the whole context (R74). -/
theorem exec_ctxView {i : Instr} {s t : State} (h : exec i s = .next t) (hi : i ∉ contextCommands) :
    ctxView t = ctxView s := by
  obtain ⟨hv, hbit, hbuf, hctx, -⟩ := resultRegisters_WrittenOnlyByTheirCommands i s t h
  simp only [contextCommands, List.mem_cons, List.not_mem_nil, or_false, not_or] at hi
  simp only [ctxView, Prod.mk.injEq]
  exact ⟨hctx (by simp [hi]), (hbuf (by simp [hi])).2, hv (by simp [hi]), hbit (by simp [hi])⟩

theorem succeeded_ctxInv {s : State} (hs : CtxInv s) : CtxInv (succeeded s) := hs.of_view rfl

/-- Where no draw decides the outcome, a command keeps the context part if its write phase does. -/
theorem CtxInv.exec_of_undisturbed {i : Instr} {s t : State} (hs : CtxInv s) (hu : undisturbed i s)
    (hc : (checkOf i s).sat (fun _ => True) (fun w => CtxInv (applyEffect s w))) (h : exec i s = .next t) :
    CtxInv t := by
  rw [exec_undisturbed i s hu] at h
  cases h
  cases hr : (checkOf i s).res with
  | error e => exact hs.of_view rfl
  | ok w => exact succeeded_ctxInv (hc.ok w hr)

/-- A context just opened on a whole number of blocks (R102, R103). -/
theorem openContext_ctxInv (s : State) (x : Words8) (y : U64) (hy : y.toNat % 512 = 0) :
    CtxInv (applyEffect s (.ofRegs (openContext x y))) where
  active _ := hy
  closed h := absurd rfl h
  idle h := nomatch h

theorem checkSm3Init_ctx (s : State) :
    (checkOf .sm3Init s).sat (fun _ => True) (fun w => CtxInv (applyEffect s w)) :=
  Check.sat_done (openContext_ctxInv s _ _ rfl)

theorem checkSm3Inject_ctx (s : State) :
    (checkOf .sm3Inject s).sat (fun _ => True) (fun w => CtxInv (applyEffect s w)) := by
  rw [checkOf, checkSm3Inject]
  exact Check.sat_raiseIf trivial fun h => Check.sat_done (openContext_ctxInv s _ _ (not_not.mp h))

/-- What SM3_COMPRESS writes, for any values that keep R35 (a) (R105). -/
theorem compressRegs_ctxInv (s : State) (x : Words8) (y : U64) (hact : s.ctxState = .active)
    (h : y.toNat % 512 = 8 * s.bufFill.toNat) : CtxInv (applyRegs s [.v x, .bitcnt y]) where
  active _ := h
  closed hc := absurd hact hc
  idle hc := nomatch hact.symm.trans hc

/-- What SM3_UPDATE writes, for any values that keep R35 (a), drawn ones too (R62, R104). -/
theorem updateRegs_ctxInv (s : State) (x : Words8) (y : U64) (b : Bytes) (n : BitVec 6) (hact : s.ctxState = .active)
    (h : y.toNat % 512 = 8 * n.toNat) : CtxInv (applyRegs s [.v x, .bitcnt y, .buf b, .bufFill n]) where
  active _ := h
  closed hc := absurd hact hc
  idle hc := nomatch hact.symm.trans hc

/-- What SM3_FINAL writes (R106). -/
theorem finalRegs_ctxInv (s : State) (x y : Words8) (b : Bytes) :
    CtxInv (applyRegs s [.v x, .digest y, .buf b, .bufFill 0, .ctxState .finalized]) where
  active hc := nomatch hc
  closed _ := rfl
  idle hc := nomatch hc

/-- SM3_COMPRESS adds a whole block to a context with no byte waiting. -/
theorem checkSm3Compress_ctx (s : State) (hs : CtxInv s) :
    (checkOf .sm3Compress s).sat (fun _ => True) (fun w => CtxInv (applyEffect s w)) := by
  rw [checkOf, checkSm3Compress]
  refine Check.sat_raiseIf trivial fun hact => Check.sat_raiseIf trivial fun hfill =>
    Check.sat_raiseIf trivial fun hlen => Check.sat_done ?_
  have hbit := hs.active (not_not.mp hact)
  rw [applyEffect_ofRegs]
  refine compressRegs_ctxInv _ _ _ (not_not.mp hact) ?_
  rw [BitVec.toNat_ofNat]
  omega

theorem checkSm3Final_ctx (s : State) :
    (checkOf .sm3Final s).sat (fun _ => True) (fun w => CtxInv (applyEffect s w)) := by
  rw [checkOf, checkSm3Final]
  refine Check.sat_raiseIf trivial fun _ => Check.sat_done ?_
  rw [applyEffect_ofRegs]
  exact finalRegs_ctxInv _ _ _ _

@[simp] theorem length_buffered (s : State) : (buffered s).length = s.bufFill.toNat := by
  have := s.bufFill.isLt
  simp [buffered]
  omega

/-- Absorbing bytes moves BITCNT and BUF_FILL together. -/
theorem checkSm3Update_ctx (s : State) (hs : CtxInv s) :
    (checkOf .sm3Update s).sat (fun _ => True) (fun w => CtxInv (applyEffect s w)) := by
  rw [checkOf, checkSm3Update]
  refine Check.sat_raiseIf trivial fun hact => Check.sat_raiseIf trivial fun hlen =>
    Check.sat_memRead trivial fun _ => Check.sat_done ?_
  have hbit := hs.active (not_not.mp hact)
  have hfill := s.bufFill.isLt
  simp only [maxBits] at hlen
  rw [applyEffect_ofRegs]
  refine updateRegs_ctxInv _ _ _ _ _ (not_not.mp hact) ?_
  simp only [BitVec.toNat_ofNat, List.length_drop, List.length_append, length_buffered, Memory.length_read]
  omega

theorem selfOverlap_of_not_storing (i : Instr) (s : State) (hi : i ∉ storingCommands) :
    selfOverlap (checkOf i s) = false := by
  rw [selfOverlap, List.any_eq_false]
  intro r _
  simp [Range.meets, writeRange_of_not_storing i s hi]

/-- Without an active context SM3_UPDATE reads no byte, so no host access breaks a duty (R62, R104). -/
theorem active_of_hostBreach_sm3Update {s : State} (h : hostBreach s (checkOf .sm3Update s) = true) :
    s.ctxState = .active := by
  by_contra hact
  rw [checkOf, checkSm3Update, Check.raiseIf_pos hact, hostBreach_of_writeRange s _ 0 rfl (.inl rfl)] at h
  cases h

/-- What a drawn success of SM3_UPDATE writes (R62). -/
theorem drawnEffect_sm3Update_regs (s : State) (d : Nat) :
    (drawnEffect .sm3Update s d).regs
      = [.v (Config.freeWords8 d 0), .bitcnt (drawnCount d), .buf (Config.freeBytes d 64 64),
          .bufFill (drawnFill d)] := rfl

/-- SM3_UPDATE keeps the context part, after a broken duty too: what is drawn keeps R35 (a) (log 8). -/
theorem exec_sm3Update_ctxInv {s t : State} (h : exec .sm3Update s = .next t) (hs : CtxInv s) : CtxInv t := by
  by_cases hb : hostBreach s (checkOf .sm3Update s) = true
  · rw [exec_drawn _ _ (.inl hb)] at h
    cases h
    obtain ⟨e, -, hd⟩ | hd := drawnOutcome_cases .sm3Update s s.draws <;> rw [hd]
    · exact hs.of_view rfl
    · rw [complete_ok, applyEffect, drawnEffect_sm3Update_regs]
      refine succeeded_ctxInv (updateRegs_ctxInv _ _ _ _ _ ?_ (drawnCount_aligned s.draws))
      exact active_of_hostBreach_sm3Update hb
  · exact hs.exec_of_undisturbed ⟨by simpa using hb, selfOverlap_of_not_storing _ s (by decide), rfl⟩
      (checkSm3Update_ctx s hs) h

/-- Every command keeps the context part. -/
theorem exec_ctxInv {i : Instr} {s t : State} (h : exec i s = .next t) (hs : CtxInv s) : CtxInv t := by
  by_cases hi : i ∈ contextCommands
  · have hu := undisturbed_of_no_memory i s
    simp only [contextCommands, List.mem_cons, List.not_mem_nil, or_false] at hi
    obtain rfl | rfl | rfl | rfl | rfl := hi
    · exact hs.exec_of_undisturbed (hu (by decide)) (checkSm3Init_ctx s) h
    · exact hs.exec_of_undisturbed (hu (by decide)) (checkSm3Inject_ctx s) h
    · exact exec_sm3Update_ctxInv h hs
    · exact hs.exec_of_undisturbed (hu (by decide)) (checkSm3Compress_ctx s hs) h
    · exact hs.exec_of_undisturbed (hu (by decide)) (checkSm3Final_ctx s) h
  · exact hs.of_view (exec_ctxView h hi)

/-- The engine's turn keeps the invariant, a reserved word in flight included (R41, R141, R144). -/
theorem engineTurn_inv {s t : State} (hs : Inv s) (h : engineTurn s = .next t) : Inv t := by
  obtain ⟨hm, hc, hf⟩ := (inv_iff s).mp hs
  simp only [engineTurn] at h
  split at h
  · cases h
    exact hs
  · next w hw =>
    split at h
    · next i hd =>
      exact (inv_iff t).mpr ⟨exec_memInv h hm, exec_ctxInv h hc, exec_statusInv h hw hd hf⟩
    · cases h
      have hv := (hf.busyClear (by rw [State.busy, hw]; rfl)).2
      exact (inv_iff _).mpr ⟨hm.of_view rfl, hc.of_view rfl, errored_statusInv s .badOpcode hv⟩

/-! ### The turns of the host and the platform keep the invariant -/

/-- A write phase with its values drawn fits like the one it replaces (R63). -/
theorem Effect.fits.drawn {i : Instr} {s : State} {w : Effect} (h : Effect.fits i s w) (d : Nat) :
    Effect.fits i s (w.drawn d) := by
  refine ⟨by simpa [Effect.drawn] using h.regs, ?addr, by simpa [Effect.drawn] using h.range,
    by simpa [Effect.drawn] using h.bound, by simpa [Effect.drawn] using h.capacity⟩
  case addr => exact h.addr.imp (fun hb => by simp [Effect.drawn, hb, Config.freeBytes]) id

/-- The write phase a command in flight would complete with fits (R143). -/
theorem pending_fits {s : State} {w : Word} {e : Effect} (h : (pending s w).1 = .ok e) :
    ∃ i, Effect.fits i s e := by
  simp only [pending] at h
  split at h
  · next i _ =>
    refine ⟨i, ?_⟩
    have hs := checkOf_sat i s
    obtain ⟨-, hr⟩ | ⟨-, -, -, hr⟩ | ⟨-, -, -, hr⟩ := resolve_cases i s (checkOf i s) <;> rw [hr] at h
    · obtain ⟨e', -, hd⟩ | hd := drawnOutcome_cases i s s.draws <;> rw [hd] at h <;> cases h
      exact drawnEffect_fits i s s.draws
    · cases hc : (checkOf i s).res with
      | error e' =>
        rw [hc] at h
        cases h
      | ok w' =>
        rw [hc] at h
        cases h
        exact (hs.ok w' hc).drawn s.draws
    · exact hs.ok e h
  · cases h

/-- Any bytes of an aborted write, where the rest is old, keep the memory part (R160 (c)). -/
theorem partialWrite_keeps (d n : Nat) (bs : Bytes) : ∀ (k : Nat) (m : List Host.Cell) (a : Nat),
    Memory.wf m = true → Memory.within m n → (bs.length = 0 ∨ a + bs.length ≤ n) →
    Memory.wf (partialWrite d k m a bs) = true ∧ Memory.within (partialWrite d k m a bs) n := by
  induction bs with
  | nil => exact fun _ _ _ hw hn _ => ⟨hw, hn⟩
  | cons b bs ih =>
    intro k m a hw hn hr
    simp only [List.length_cons] at hr
    rw [partialWrite]
    split
    · exact ih _ _ _ (Memory.wf_set m a b hw) (Memory.within_set m a b n hn (by omega)) (by omega)
    · exact ih _ _ _ hw hn (by omega)

/-- Registers at their reset values over a memory that keeps its part (R45). -/
theorem resetRegisters_inv {s : State} (h : MemInv s) : Inv (resetRegisters s) :=
  (inv_iff _).mpr ⟨h.of_view rfl,
    ⟨(fun hc => nomatch hc), fun _ => rfl, fun _ => ⟨rfl, rfl⟩⟩,
    clear_statusInv rfl rfl rfl (fun _ hw => nomatch hw)⟩

/-- Settles O48: the reset state is a reset over the empty memory. -/
theorem inv_AtReset : Obligations.Inv_AtReset :=
  resetRegisters_inv (s := State.reset) ⟨rfl, Memory.within_nil _⟩

/-- A soft reset puts the registers at their reset values over the memory it found, or over one where some of the bytes
an aborted command would have written are in place (R160). -/
theorem softReset_cases (s : State) :
    (∃ n, softReset s = resetRegisters { s with draws := n }) ∨
      ∃ (i : Instr) (e : Effect) (n d : Nat), Effect.fits i s e ∧
        softReset s = resetRegisters { s with mem := partialWrite d 0 s.mem e.addr e.bytes, draws := n } := by
  simp only [softReset]
  split
  · exact .inl ⟨s.draws, rfl⟩
  · split
    · exact .inl ⟨_, rfl⟩
    · next e he =>
      obtain ⟨i, hi⟩ := pending_fits he
      exact .inr ⟨i, e, _, _, hi, rfl⟩

theorem softReset_inv {s : State} (hm : MemInv s) : Inv (softReset s) := by
  obtain ⟨n, h⟩ | ⟨i, e, n, d, hfit, h⟩ := softReset_cases s <;> rw [h] <;> apply resetRegisters_inv
  · exact hm.of_view rfl
  · obtain ⟨hw, hn⟩ := partialWrite_keeps d s.params.memBytes e.bytes 0 s.mem e.addr hm.wf hm.within
      ((rangeOk_iff _ _ _).mp hfit.range)
    exact ⟨hw, hn⟩

/-- The accept clears the error record and takes LAST_OP from the word (R140). -/
theorem accept_inv {s : State} (hs : Inv s) (w : Word) : Inv (accept w s) := by
  obtain ⟨hm, hc, -⟩ := (inv_iff s).mp hs
  exact (inv_iff _).mpr ⟨hm.of_view rfl, hc.of_view rfl,
    clear_statusInv rfl rfl rfl fun _ h => Option.some.inj h ▸ rfl⟩

/-- An argument write changes argument registers alone (R30). -/
theorem writeArg_views (s : State) (r : Reg) (w : Word) :
    memView (writeArg s r w) = memView s ∧ ctxView (writeArg s r w) = ctxView s ∧
      statusView (writeArg s r w) = statusView s := by
  cases r with
  | lo p | hi p => cases p <;> exact ⟨rfl, rfl, rfl⟩
  | _ => exact ⟨rfl, rfl, rfl⟩

theorem writeReg_inv {s : State} (hs : Inv s) (r : Reg) (w : Word) : Inv (writeReg s r w) := by
  obtain ⟨hm, hc, hf⟩ := writeArg_views s r w
  cases r with
  | ctrl =>
    simp only [writeReg]
    split
    · exact softReset_inv ((inv_iff s).mp hs).1
    · exact hs
  | cmd =>
    simp only [writeReg]
    split
    · exact hs.of_view rfl rfl rfl
    · exact accept_inv hs w
  | lo | hi | stateIn | blk =>
    simp only [writeReg]
    split
    · exact hs
    · exact hs.of_view hm hc hf
  | _ => exact hs.of_view rfl rfl rfl

theorem hostWrite_inv {s : State} (hs : Inv s) (off : BitVec 12) (width : Nat) (w : Word) :
    Inv (hostWrite s off width w) := by
  simp only [hostWrite]
  split
  · split
    · exact writeReg_inv hs _ w
    · exact hs
  · exact hs

/-- A host read changes the record of what it returned, and no more (R27). -/
theorem hostRead_inv {s : State} (hs : Inv s) (off : BitVec 12) (width : Nat) : Inv (hostRead s off width) := by
  simp only [hostRead]
  repeat' split
  all_goals exact hs.of_view rfl rfl rfl

theorem hostMemWrite_inv {s : State} (hs : Inv s) (a : Nat) (bytes : Bytes)
    (hr : rangeOk s a bytes.length = true) : Inv (hostMemWrite s a bytes) := by
  obtain ⟨hm, hc, hf⟩ := (inv_iff s).mp hs
  rw [hostMemWrite_eq]
  exact (inv_iff _).mpr ⟨hm.of_write hr rfl, hc.of_view rfl, hf.of_view rfl⟩

theorem hostMemRead_inv {s : State} (hs : Inv s) (a n : Nat) : Inv (hostMemRead s a n) := by
  simp only [hostMemRead]
  split <;> exact hs.of_view rfl rfl rfl

theorem waitTurn_inv {s : State} (hs : Inv s) : Inv (waitTurn s) := by
  simp only [waitTurn]
  split <;> exact hs.of_view rfl rfl rfl

/-- Every turn keeps the invariant, whoever takes it. -/
theorem turn_inv {s t : State} (hs : Inv s) (x : Input) (h : turn s x = .next t) : Inv t := by
  cases x with
  | regWrite off width w =>
    cases h
    exact hostWrite_inv hs off width w
  | regRead off width =>
    cases h
    exact hostRead_inv hs off width
  | memWrite a bytes =>
    simp only [turn] at h
    split at h
    · next hr =>
      cases h
      exact hostMemWrite_inv hs a bytes hr
    · cases h
  | memRead a n =>
    simp only [turn] at h
    split at h
    · cases h
      exact hostMemRead_inv hs a n
    · cases h
  | engine => exact engineTurn_inv hs h
  | hardReset =>
    cases h
    exact resetRegisters_inv ((inv_iff s).mp hs).1
  | wait =>
    cases h
    exact waitTurn_inv hs

/-- Settles O49: a step is a turn, and the turns still to come are no part of the invariant. -/
theorem step_KeepsInvariant : Obligations.Step_KeepsInvariant := by
  intro s t hs h
  simp only [step] at h
  split at h
  · exact engineTurn_inv hs h
  · next x rest _ => exact turn_inv (hs.of_view (t := { s with inputs := rest }) rfl rfl rfl) x h

/-! ### The engine's own step (R41, R141, R144) -/

theorem engineTurn_of_decode {s : State} {w : Word} {i : Instr} (hw : s.inflight = some w) (hd : decode w = .ok i) :
    engineTurn s = exec i s := by
  simp only [engineTurn, hw, hd]

theorem engineTurn_of_reserved {s : State} {w : Word} (hw : s.inflight = some w) (hd : ∀ i, decode w ≠ .ok i) :
    engineTurn s = .next (errored s .badOpcode) := by
  cases h : decode w with
  | ok i => exact absurd h (hd i)
  | error e => simp only [engineTurn, hw, h, complete_error]

theorem engineTurn_of_idle {s : State} (h : s.inflight = none) : engineTurn s = .next s := by
  simp only [engineTurn, h]

theorem step_of_no_input {s : State} (h : s.inputs = []) : step s = engineTurn s := by
  simp only [step, h]

theorem step_of_engine {s : State} {rest : List Input} (h : s.inputs = .engine :: rest) :
    step s = engineTurn { s with inputs := rest } := by
  simp only [step, h, turn]

/-- Settles O4: with or without a turn given, the step is the engine's turn. -/
theorem step_CompletesCommandInFlight : Obligations.Step_CompletesCommandInFlight := by
  refine ⟨fun s w i hw hd => ⟨fun h => ?_, fun rest h => ?_⟩, fun s w hw hd => ⟨fun h => ?_, fun rest h => ?_⟩,
    fun s hi => ⟨fun h => ?_, fun rest h => ?_⟩⟩
  · rw [step_of_no_input h, engineTurn_of_decode hw hd]
  · rw [step_of_engine h]
    exact engineTurn_of_decode hw hd
  · rw [step_of_no_input h, engineTurn_of_reserved hw hd]
  · rw [step_of_engine h]
    exact engineTurn_of_reserved hw hd
  · rw [step_of_no_input h, engineTurn_of_idle hi]
  · rw [step_of_engine h]
    exact engineTurn_of_idle hi

/-! ### The register map (R24) -/

theorem Reg.ofOffset_offset (r : Reg) : Reg.ofOffset r.offset = some r := by
  cases r with
  | lo p | hi p => cases p <;> rfl
  | stateIn i | v i | digest i | root i | blk i => fin_cases i <;> rfl
  | _ => rfl

theorem Pair.offset_of_ofOffset {o : Nat} {p : Pair} (h : Pair.ofOffset o = some p) : o = p.offset := by
  simp only [Pair.ofOffset] at h
  split at h <;> cases h <;> rfl

theorem eq_of_arrayIndex {base n o : Nat} {k : Fin (n + 1)} (hb : base % 4 = 0) (h : arrayIndex base n o = some k) :
    o = base + 4 * k.val := by
  simp only [arrayIndex, Option.ite_none_right_eq_some, Option.some.injEq] at h
  obtain ⟨ho, rfl⟩ := h
  rw [Fin.val_ofNat, Nat.mod_eq_of_lt (by omega)]
  omega

/-- Every pair stands between the status registers and the end of the map, on a multiple of 8. -/
theorem Pair.offset_bounds (p : Pair) : 0x020 ≤ p.offset ∧ p.offset ≤ 0x158 ∧ p.offset % 8 = 0 := by
  cases p <;> decide

theorem Reg.offset_of_ofOffset {o : Nat} {r : Reg} (h : Reg.ofOffset o = some r) : o = r.offset := by
  simp only [Reg.ofOffset] at h
  split at h
  case h_10 =>
    simp only [Option.orElse_eq_orElse, Option.orElse_eq_or, Option.or_eq_some_iff, Option.map_eq_some_iff] at h
    obtain ⟨p, hp, rfl⟩ | ⟨-, ⟨p, hp, rfl⟩ | ⟨-, ⟨k, hk, rfl⟩ | ⟨-, ⟨k, hk, rfl⟩ | ⟨-, ⟨k, hk, rfl⟩ |
      ⟨-, ⟨k, hk, rfl⟩ | ⟨-, k, hk, rfl⟩⟩⟩⟩⟩⟩ := h
    · exact Pair.offset_of_ofOffset hp
    · have hpos := p.offset_bounds
      have ho := Pair.offset_of_ofOffset hp
      simp only [Reg.offset]
      omega
    all_goals exact eq_of_arrayIndex rfl hk
  all_goals
    cases h
    rfl

/-- Settles O38: `Reg.ofOffset` and `Reg.offset` are inverse to each other, and the table's offsets are read off. -/
theorem registerMap_IsExact : Obligations.RegisterMap_IsExact := by
  refine ⟨Reg.ofOffset_offset, fun o r => Reg.offset_of_ofOffset, fun i => ⟨rfl, rfl, rfl, rfl⟩, fun i => rfl, ?_,
    fun p => rfl, ?_⟩ <;> decide

/-! ### A host access of a register -/

/-- Every register's offset is an aligned 12-bit one (R29). -/
theorem Reg.offset_aligned (r : Reg) : r.offset < 2 ^ 12 ∧ r.offset % 4 = 0 := by
  cases r with
  | lo p | hi p =>
    have := p.offset_bounds
    simp only [Reg.offset]
    omega
  | stateIn i | v i | digest i | root i | blk i =>
    have := i.isLt
    simp only [Reg.offset]
    omega
  | _ => decide

theorem toNat_offset (r : Reg) : (BitVec.ofNat 12 r.offset).toNat = r.offset := by
  rw [BitVec.toNat_ofNat, Nat.mod_eq_of_lt r.offset_aligned.1]

theorem accessOk_offset (r : Reg) : accessOk (BitVec.ofNat 12 r.offset) 4 = true := by
  simp only [accessOk, toNat_offset, r.offset_aligned.2, decide_true, Bool.and_true]

theorem hostWrite_offset (s : State) (r : Reg) (w : Word) :
    hostWrite s (BitVec.ofNat 12 r.offset) 4 w = writeReg s r w := by
  simp only [hostWrite, accessOk_offset, if_true, toNat_offset, Reg.ofOffset_offset]

theorem hostRead_offset (s : State) (r : Reg) :
    hostRead s (BitVec.ofNat 12 r.offset) 4
      = if s.busy = true ∧ r.isResult = true then returnedDraw s else returned s (regValue s r) := by
  simp only [hostRead, accessOk_offset, if_true, toNat_offset, Reg.ofOffset_offset, Bool.and_eq_true]

theorem hostWrite_irqStatus (s : State) (w : Word) :
    hostWrite s 0x014 4 w = { s with irqStatus := s.irqStatus &&& ~~~ (w.extractLsb' 0 3) } :=
  hostWrite_offset s .irqStatus w

theorem hostWrite_irqEnable (s : State) (w : Word) :
    hostWrite s 0x018 4 w = { s with irqEnable := w.extractLsb' 0 3 } :=
  hostWrite_offset s .irqEnable w

theorem hostWrite_ctrl (s : State) (w : Word) :
    hostWrite s 0x008 4 w = if w.getLsbD 0 then softReset s else s :=
  hostWrite_offset s .ctrl w

/-- Settles O41: `Reg.ofOffset` finds no register at a reserved offset, and `accessOk` refuses the odd accesses. -/
theorem outsideTheMap_ReadsAndWrites : Obligations.OutsideTheMap_ReadsAndWrites := by
  intro s off w
  refine ⟨fun hal hres => ?reserved, fun width hodd => ?odd⟩
  case reserved =>
    have hok : accessOk off 4 = true := by simp [accessOk, hal]
    have hnone : Reg.ofOffset off.toNat = none :=
      Option.eq_none_iff_forall_ne_some.mpr fun r h => hres r (Reg.offset_of_ofOffset h)
    simp only [hostWrite, hostRead, hok, hnone, if_true]
    exact ⟨trivial, rfl⟩
  case odd =>
    have hok : accessOk off width = false := by simpa [accessOk, imp_iff_not_or] using hodd
    simp only [hostWrite, hostRead, hok]
    exact ⟨rfl, rfl⟩

theorem writePair_of_isResult {p : Pair} (s : State) (f : U64 → U64) (h : p.isResult = true) : writePair s p f = s := by
  cases p <;> cases h <;> rfl

/-- Settles O40: `writeReg` has no effect at a read-only register, and `writePair` none on a result pair. -/
theorem readOnlyRegisters_IgnoreWrites : Obligations.ReadOnlyRegisters_IgnoreWrites := by
  intro s w
  refine ⟨fun r hr => ?write, rfl, rfl, rfl, rfl, fun hw => ?ctrl⟩
  case write =>
    rw [hostWrite_offset]
    obtain ⟨k, rfl | rfl | rfl⟩ | ⟨p, hp, rfl | rfl⟩ | hr := hr
    · rfl
    · rfl
    · rfl
    · simp only [writeReg, writeArg, writePair_of_isResult s _ hp, ite_self]
    · simp only [writeReg, writeArg, writePair_of_isResult s _ hp, ite_self]
    · simp only [List.mem_cons, List.not_mem_nil, or_false] at hr
      obtain rfl | rfl | rfl | rfl | rfl := hr <;> rfl
  case ctrl =>
    rw [hostWrite_ctrl, hw, if_neg Bool.false_ne_true]

/-! ### The argument registers (R25, R26, R30) -/

theorem loHalf_setLo (x : U64) (w : Word) : loHalf (setLo x w) = w := by
  rw [loHalf, setLo, BitVec.extractLsb'_append_eq_of_add_le (by decide), BitVec.extractLsb'_eq_self]

theorem hiHalf_setLo (x : U64) (w : Word) : hiHalf (setLo x w) = hiHalf x := by
  rw [hiHalf, setLo, BitVec.extractLsb'_append_eq_of_le (by decide), BitVec.extractLsb'_eq_self]

theorem hiHalf_setHi (x : U64) (w : Word) : hiHalf (setHi x w) = w := by
  rw [hiHalf, setHi, BitVec.extractLsb'_append_eq_of_le (by decide), BitVec.extractLsb'_eq_self]

theorem loHalf_setHi (x : U64) (w : Word) : loHalf (setHi x w) = loHalf x := by
  rw [loHalf, setHi, BitVec.extractLsb'_append_eq_of_add_le (by decide), BitVec.extractLsb'_eq_self]

theorem getWord_setWord (x : Words8) (i j : Fin 8) (w : Word) :
    getWord (setWord x i w) j = if j = i then w else getWord x j := by
  fin_cases i <;> fin_cases j <;> rfl

/-- A pair after a write of a pair: the pair written, if the host may write it, and no other. -/
theorem pairValue_writePair (s : State) (p q : Pair) (f : U64 → U64) :
    pairValue (writePair s p f) q = if q = p ∧ p.isResult = false then f (pairValue s q) else pairValue s q := by
  cases p <;> cases q <;> rfl

/-- A write of a pair shows in no other register than the pair's two. -/
theorem regValue_writePair_of_ne (s : State) (p : Pair) (f : U64 → U64) (r : Reg) (hlo : r ≠ .lo p) (hhi : r ≠ .hi p) :
    regValue (writePair s p f) r = regValue s r := by
  cases r with
  | lo q | hi q =>
    simp only [regValue, pairValue_writePair]
    rw [if_neg]
    rintro ⟨rfl, -⟩
    contradiction
  | _ => cases p <;> rfl

theorem writeArg_frame (s : State) (r : Reg) (w : Word) :
    (writeArg s r w).mem = s.mem ∧ (writeArg s r w).buf = s.buf ∧ (writeArg s r w).inflight = s.inflight ∧
      (writeArg s r w).params = s.params := by
  cases r with
  | lo p | hi p => cases p <;> exact ⟨rfl, rfl, rfl, rfl⟩
  | _ => exact ⟨rfl, rfl, rfl, rfl⟩

/-- The registers the host writes arguments in (R24). -/
def Reg.IsArgument (r : Reg) : Prop :=
  (∃ p, Pair.isResult p = false ∧ (r = .lo p ∨ r = .hi p)) ∨ (∃ k, r = .stateIn k) ∨ ∃ k, r = .blk k

theorem regValue_writeArg_same (s : State) {r : Reg} (w : Word) (h : r.IsArgument) :
    regValue (writeArg s r w) r = w := by
  obtain ⟨p, hp, rfl | rfl⟩ | ⟨k, rfl⟩ | ⟨k, rfl⟩ := h
  · simp only [writeArg, regValue, pairValue_writePair, hp, and_self, if_true, loHalf_setLo]
  · simp only [writeArg, regValue, pairValue_writePair, hp, and_self, if_true, hiHalf_setHi]
  · simp only [writeArg, regValue, getWord_setWord, if_true]
  · exact Vector.getElem_set_self _

theorem regValue_writeArg_of_ne (s : State) {r r' : Reg} (w : Word) (h : r' ≠ r) :
    regValue (writeArg s r w) r' = regValue s r' := by
  cases r with
  | lo p =>
    by_cases hhi : r' = .hi p
    · subst hhi
      simp only [writeArg, regValue, pairValue_writePair, apply_ite hiHalf, hiHalf_setLo, ite_self]
    · exact regValue_writePair_of_ne s p _ r' h hhi
  | hi p =>
    by_cases hlo : r' = .lo p
    · subst hlo
      simp only [writeArg, regValue, pairValue_writePair, apply_ite loHalf, loHalf_setHi, ite_self]
    · exact regValue_writePair_of_ne s p _ r' hlo h
  | stateIn k =>
    cases r' with
    | stateIn j =>
      have hj : j ≠ k := fun hj => h (congrArg Reg.stateIn hj)
      simp only [writeArg, regValue, getWord_setWord, if_neg hj]
    | lo q | hi q => cases q <;> rfl
    | _ => rfl
  | blk k =>
    cases r' with
    | blk j => exact Vector.getElem_set_ne k.isLt j.isLt fun hj => h (congrArg Reg.blk (Fin.ext hj.symm))
    | lo q | hi q => cases q <;> rfl
    | _ => rfl
  | _ => rfl

theorem writeReg_argument {s : State} {r : Reg} (w : Word) (hidle : s.busy = false) (h : r.IsArgument) :
    writeReg s r w = writeArg s r w := by
  obtain ⟨p, -, rfl | rfl⟩ | ⟨k, rfl⟩ | ⟨k, rfl⟩ := h <;>
    simp only [writeReg, hidle, Bool.false_eq_true, if_false]

/-- Settles O39: the host write is `writeArg`, which replaces one half of a pair or one word of an array. -/
theorem argumentRegister_WriteReadsBack : Obligations.ArgumentRegister_WriteReadsBack := by
  intro s r w hidle harg t
  have ht : t = writeArg s r w := (hostWrite_offset s r w).trans (writeReg_argument w hidle harg)
  rw [ht]
  exact ⟨regValue_writeArg_same s w harg, fun r' hr' => regValue_writeArg_of_ne s w hr', writeArg_frame s r w⟩

/-! ### Reads and writes while busy (R27, R28) -/

theorem Pair.isResult_iff (p : Pair) :
    p.isResult = true ↔ p ∈ [Pair.result0, .result1, .bitcnt, .treeN, .treeDesc, .treeLda] := by
  cases p <;> decide

/-- The registers whose busy read is a draw, as R27 lists them. -/
theorem Reg.isResult_iff (r : Reg) :
    r.isResult = true ↔ (∃ k, r = .v k ∨ r = .digest k ∨ r = .root k) ∨
      (∃ p ∈ [Pair.result0, .result1, .bitcnt, .treeN, .treeDesc, .treeLda], r = .lo p ∨ r = .hi p) ∨
      r = .ctxStatus ∨ r = .treeStatus := by
  cases r with
  | lo p | hi p => simp [Reg.isResult, Pair.isResult_iff]
  | _ => simp [Reg.isResult]

/-- STATUS of a busy engine: BUSY in [0], LAST_OP in [23:16], zeros elsewhere (R27). -/
theorem statusWord_busy (s : State) (h : s.busy = true) :
    statusWord s = BitVec.ofNat 32 (s.lastOp.toNat * 2 ^ 16 + 1) := by
  have hop := s.lastOp.isLt
  apply BitVec.eq_of_toNat_eq
  simp only [statusWord, h, if_true, toNat_append_fields, BitVec.ofNat_eq_ofNat, BitVec.toNat_ofNat]
  omega

/-- Settles O42: `Reg.isResult` is R27's list, and `hostRead` draws exactly there while busy. -/
theorem hostRead_WhileBusyAndIdle : Obligations.HostRead_WhileBusyAndIdle := by
  intro s r result
  have hres : r.isResult = true ↔ result := r.isResult_iff
  refine ⟨fun hbusy hr => ?draw, fun h => ?value, statusWord_busy s⟩
  case draw =>
    rw [hostRead_offset, if_pos ⟨hbusy, hres.mpr hr⟩]
    rfl
  case value =>
    rw [hostRead_offset, if_neg]
    · rfl
    · rintro ⟨hbusy, hr⟩
      exact h.elim (fun hidle => absurd (hbusy.symm.trans hidle) (by decide)) fun hn => hn (hres.mp hr)

/-- A busy engine ignores a write of any register but four (R28). -/
theorem writeReg_busy {s : State} {r : Reg} (w : Word) (hbusy : s.busy = true)
    (hr : r ∉ [Reg.ctrl, .irqStatus, .irqEnable, .cmd]) : writeReg s r w = s := by
  cases r with
  | ctrl | irqStatus | irqEnable | cmd => exact absurd (by decide) hr
  | lo | hi | stateIn | blk => exact if_pos hbusy
  | _ => rfl

/-- Settles O44: `writeReg` while busy, register by register. -/
theorem busyWrites_Ignored : Obligations.BusyWrites_Ignored := by
  intro s r w hbusy
  refine ⟨fun hr => ?ignored, ?overrun, hostWrite_irqStatus s w, hostWrite_irqEnable s w, hostWrite_ctrl s w⟩
  case ignored => rw [hostWrite_offset, writeReg_busy w hbusy hr]
  case overrun => exact (hostWrite_offset s .cmd w).trans (if_pos hbusy)

/-! ### The interrupt line (R148, R149) -/

/-- A word is not zero exactly when one of its bits is set. -/
theorem ne_zero_iff_exists_getLsbD {n : Nat} (x : BitVec n) : x ≠ 0 ↔ ∃ k < n, x.getLsbD k = true := by
  constructor
  · intro hx
    by_contra hc
    refine hx (BitVec.eq_of_getLsbD_eq fun k hk => ?_)
    simpa using fun h => hc ⟨k, hk, h⟩
  · rintro ⟨k, -, hk⟩ rfl
    simp at hk

/-- The three interrupt bits are the low bits of the registers as read. -/
theorem irqWord_ne_zero (x : BitVec 3) : (x != 0) = (((0 : BitVec 29) ++ x) &&& 0x7 != 0) := by
  revert x
  decide

/-- Settles O45: the meet of the two fields is not zero exactly when they share a bit, in the fields as in the
registers as read. -/
theorem interruptLine_AndClear : Obligations.InterruptLine_AndClear := by
  intro s w
  refine ⟨?bits, ?words, hostWrite_irqStatus s w, fun k hk => ?clear, hostWrite_irqEnable s w, fun k hk => ?enable⟩
  case bits =>
    simp only [irq, bne_iff_ne, ne_eq, ne_zero_iff_exists_getLsbD, BitVec.getLsbD_and, Bool.and_eq_true]
  case words =>
    have hand : irqStatusWord s &&& irqEnableWord s = (0 : BitVec 29) ++ (s.irqStatus &&& s.irqEnable) :=
      BitVec.and_append.trans (by rw [BitVec.and_self])
    simp only [regValue, hand]
    exact irqWord_ne_zero _
  case clear =>
    rw [hostWrite_irqStatus]
    simp [hk]
  case enable =>
    rw [hostWrite_irqEnable]
    simp [hk]

/-! ### The resets (R45, R159, R160) -/

theorem getWord_zero (i : Fin 8) : getWord Words8.zero i = 0 := by
  fin_cases i <;> rfl

theorem regValue_reset (r : Reg) :
    regValue State.reset r = if r = .id then 0x534D3300 else if r = .version then 0x00000001 else 0 := by
  cases r with
  | lo p | hi p => cases p <;> decide
  | stateIn i | v i | digest i | root i => exact getWord_zero i
  | blk i => exact Vector.getElem_replicate _
  | _ => decide

/-- A reset keeps nothing that a register shows. -/
theorem regValue_resetRegisters (s : State) (r : Reg) : regValue (resetRegisters s) r = regValue State.reset r := by
  cases r with
  | lo p | hi p => cases p <;> rfl
  | _ => rfl

/-- The reset state and the states after a reset are all made by `resetRegisters`. -/
theorem exists_eq_resetRegisters {s t : State}
    (h : t = State.reset ∨ t = hardReset s ∨ ∃ w : Word, w.getLsbD 0 = true ∧ t = hostWrite s 0x008 4 w) :
    ∃ u, t = resetRegisters u := by
  obtain rfl | rfl | ⟨w, hw, rfl⟩ := h
  · exact ⟨State.reset, rfl⟩
  · exact ⟨s, rfl⟩
  · rw [hostWrite_ctrl, if_pos hw]
    obtain ⟨n, h⟩ | ⟨i, e, n, d, -, h⟩ := softReset_cases s
    · exact ⟨_, h⟩
    · exact ⟨_, h⟩

/-- Settles O46: the reset state and every reset are `resetRegisters` of some state, which shows the reset values. -/
theorem reset_SetsEveryRegister : Obligations.Reset_SetsEveryRegister := by
  intro s t h
  obtain ⟨u, rfl⟩ := exists_eq_resetRegisters h
  have hirq : irq State.reset = false := by decide
  exact ⟨fun r => (regValue_resetRegisters u r).trans (regValue_reset r), rfl, rfl, hirq, rfl, rfl, rfl⟩

/-! ### The tree MT_BUILD seals (R38, R133) -/

theorem Check.raiseIf_ok {c : Prop} [Decidable c] {e : Err} {k : Unit → Check} {w : Effect}
    (h : (Check.raiseIf c e k).res = .ok w) : ¬ c ∧ (k ()).res = .ok w := by
  rw [Check.raiseIf_res] at h
  split at h
  · cases h
  · next hc => exact ⟨hc, h⟩

theorem Check.memRead_ok {s : State} {a n : Nat} {k : Bytes → Check} {w : Effect}
    (h : (Check.memRead s a n k).res = .ok w) :
    rangeOk s a n = true ∧ (k (Memory.read s.mem a n)).res = .ok w := by
  rw [Check.memRead_res] at h
  split at h
  · next hr => exact ⟨hr, h⟩
  · cases h

/-- A loop over leaves that raises nothing found every descriptor in range and every leaf valid. -/
theorem Check.leaves_ok {s : State} {table : Nat} {w : Effect} : ∀ (count i : Nat) (k : List Bytes → Check),
    (Check.leaves s table count i k).res = .ok w →
    ∀ j, i ≤ j → j < i + count → rangeOk s (table + 16 * j) 16 = true ∧ leafOk s table j := by
  intro count
  induction count with
  | zero => omega
  | succ count ih =>
    intro i k h j hij hj
    obtain ⟨hdesc, h⟩ := Check.memRead_ok h
    obtain ⟨hlen, h⟩ := Check.raiseIf_ok h
    obtain ⟨hleaf, h⟩ := Check.memRead_ok h
    rcases Nat.eq_or_lt_of_le hij with rfl | hlt
    · exact ⟨hdesc, Nat.not_lt.mp hlen, (rangeOk_iff _ _ _).mp hleaf⟩
    · exact ih _ _ h j hlt (by omega)

/-- What a check phase of MT_BUILD that raises nothing has checked, and the write phase it gives. -/
theorem checkMtBuild_ok {s : State} {w : Effect} (h : (checkMtBuild s).res = .ok w) :
    w = buildEffect s (leavesOf s s.srcAddr.toNat s.arg0.toNat) ∧
    ∀ j < s.arg0.toNat, leafOk s s.srcAddr.toNat j ∧
      (⟨s.srcAddr.toNat + 16 * j, 16⟩ : Range) ∈ (checkMtBuild s).reads ∧
      (⟨descAddr (descriptor s s.srcAddr.toNat j), descLen (descriptor s s.srcAddr.toNat j)⟩ : Range)
        ∈ (checkMtBuild s).reads := by
  obtain ⟨hcap, h⟩ := Check.raiseIf_ok h
  obtain ⟨hroom, h⟩ := Check.raiseIf_ok h
  obtain ⟨hdst, h⟩ := Check.raiseIf_ok h
  obtain ⟨htable, h⟩ := Check.raiseIf_ok h
  have hall := Check.leaves_ok _ _ _ h
  rw [Check.leaves_res _ _ _ _ _ hall, ← List.range_eq_range'] at h
  rw [checkMtBuild, Check.raiseIf_neg hcap, Check.raiseIf_neg hroom, Check.raiseIf_neg hdst, Check.raiseIf_neg htable,
    Check.leaves_reads _ _ _ _ _ hall, ← List.range_eq_range']
  refine ⟨(Except.ok.inj h).symm, fun j hj => ⟨(hall j (Nat.zero_le j) (by omega)).2, ?_, ?_⟩⟩ <;>
    exact List.mem_append_left _ (List.mem_flatMap.mpr ⟨j, List.mem_range.mpr hj, by simp⟩)

/-- A check phase that does not overlap itself reads no byte its write phase writes (R63). -/
theorem meets_of_selfOverlap {c : Check} {w : Effect} (h : selfOverlap c = false) (hw : c.res = .ok w) {r : Range}
    (hr : r ∈ c.reads) : r.meets w.range = false := by
  have hm := List.any_eq_false.mp h r hr
  rwa [Check.writeRange, hw, Bool.not_eq_true] at hm

/-- A leaf whose descriptor and bytes a MemWrite misses reads as before. -/
theorem leafOf_of_write_apart {s t : State} {a table j : Nat} {bs : Bytes} (hwf : Memory.wf s.mem = true)
    (hm : t.mem = Memory.write s.mem a bs) (hd : Range.meets ⟨table + 16 * j, 16⟩ ⟨a, bs.length⟩ = false)
    (hl : Range.meets ⟨descAddr (descriptor s table j), descLen (descriptor s table j)⟩ ⟨a, bs.length⟩ = false) :
    descriptor t table j = descriptor s table j ∧ leafOf t table j = leafOf s table j := by
  have hdesc : descriptor t table j = descriptor s table j := by
    rw [descriptor, hm, Memory.read_write_apart _ _ _ _ _ hwf hd, descriptor]
  refine ⟨hdesc, ?_⟩
  rw [leafOf, hdesc, hm, Memory.read_write_apart _ _ _ _ _ hwf hl, leafOf]

theorem build_mem (s : State) (leaves : List Bytes) :
    (complete s (.ok (buildEffect s leaves))).mem
      = Memory.write s.mem s.dstAddr.toNat (leaves.map leafHash).flatten := by
  rw [complete_ok, succeeded_mem, applyEffect_mem, buildEffect]

theorem build_params (s : State) (leaves : List Bytes) :
    (complete s (.ok (buildEffect s leaves))).params = s.params := by
  rw [buildEffect, complete_build]
  rfl

/-- The write phase of MT_BUILD, on leaves that read as before after it, seals the tree of those leaves. -/
theorem treeIntact_of_build {s t : State} {leaves : List Bytes} (hwf : Memory.wf s.mem = true)
    (ht : t = complete s (.ok (buildEffect s leaves))) (hn : leaves.length = s.arg0.toNat)
    (hok : ∀ j < s.arg0.toNat, leafOk t s.srcAddr.toNat j)
    (hleaves : leavesOf t s.srcAddr.toNat s.arg0.toNat = leaves) :
    treeIntact t ∧ t.treeTouched = false ∧ t.treeN = s.arg0 ∧ leavesOf t t.treeDesc.toNat t.treeN.toNat = leaves := by
  have hmem : t.mem = Memory.write s.mem s.dstAddr.toNat (leaves.map leafHash).flatten := by rw [ht, build_mem]
  rw [buildEffect, complete_build] at ht
  have hsealed : t.treeSealed = true := by rw [ht]
  have hsorted : t.treeSorted = sortedLeaves leaves := by rw [ht]
  have hroot : t.root = deser (mth (leaves.map leafHash)) := by rw [ht]
  have htn : t.treeN = s.arg0 := by rw [ht]
  have htd : t.treeDesc = s.srcAddr := by rw [ht]
  have htl : t.treeLda = s.dstAddr := by rw [ht]
  have htouched : t.treeTouched = false := by rw [ht]
  have hread : leavesOf t t.treeDesc.toNat t.treeN.toNat = leaves := by rw [htd, htn, hleaves]
  have hdig : ∀ d ∈ leaves.map leafHash, d.length = 32 := fun d hd => by
    obtain ⟨x, -, rfl⟩ := List.mem_map.mp hd
    rfl
  have hlen : (leaves.map leafHash).length = s.arg0.toNat := by rw [List.length_map, hn]
  have harray : treeDigests t = leaves.map leafHash := by
    rw [treeDigests, htl, htn, hmem, ← hlen, ← length_flatten_digests _ hdig, Memory.read_write_same _ _ _ hwf,
      digestArray_flatten _ hdig]
  refine ⟨⟨hsealed, ?_, ?_, ?_, ?_⟩, htouched, htn, hread⟩
  · rwa [htd, htn]
  · rw [harray, hread]
  · rw [hroot, hread]
  · rw [hsorted, hread]

/-- Settles O56: the bytes stored miss every descriptor and leaf read, so the leaves read through TREE_DESC afterwards
are those hashed. -/
theorem build_SealsIntactTree : Obligations.Build_SealsIntactTree := by
  intro s t hu hwf _ hexec hok
  rw [exec_undisturbed _ s hu] at hexec
  cases hexec
  obtain ⟨-, hover, -⟩ := hu
  cases hres : (checkOf .mtBuild s).res with
  | error e =>
    rw [hres] at hok
    cases hok
  | ok w =>
    obtain ⟨rfl, hchecked⟩ := checkMtBuild_ok hres
    have hkeep := fun j (hj : j < s.arg0.toNat) => by
      obtain ⟨-, hd, hl⟩ := hchecked j hj
      exact leafOf_of_write_apart hwf (build_mem s _) (meets_of_selfOverlap hover hres hd)
        (meets_of_selfOverlap hover hres hl)
    refine treeIntact_of_build hwf rfl (by simp [leavesOf]) (fun j hj => ?_) ?_
    · rw [leafOk, (hkeep j hj).1, build_params]
      exact (hchecked j hj).1
    · exact List.map_congr_left fun j hj => (hkeep j (List.mem_range.mp hj)).2

end Sys2Proof.Machine
end

section
/-! The proofs of the statements of spec/20_memory.md: where a command stores, what a draw decides after a broken duty
and on self-overlap, and the mark of a changed tree. -/

namespace Sys2Proof.Machine

/-! ### Where a command stores (R47, R74) -/

/-- Whatever its outcome, a command changes memory by one MemWrite at DST_ADDR, of no more bytes than its rule gives and
DST_LEN allows. -/
theorem exec_mem {i : Instr} {s t : State} (h : exec i s = .next t) :
    ∃ bytes : Bytes, t.mem = Memory.write s.mem s.dstAddr.toNat bytes ∧
      bytes.length ≤ storeBound i s ∧ bytes.length ≤ s.dstLen.toNat := by
  obtain ⟨n, ⟨e, -, rfl⟩ | ⟨w, hw, rfl⟩⟩ := exec_cases i s t h
  · exact ⟨[], rfl, Nat.zero_le _, Nat.zero_le _⟩
  · refine ⟨w.bytes, ?_, hw.bound, hw.capacity⟩
    rw [succeeded_mem, applyEffect_mem]
    obtain hnone | haddr := hw.addr
    · rw [hnone, Memory.write_nil, Memory.write_nil]
    · rw [haddr]

/-- Settles O31: the one MemWrite of a command is inside its destination, and has no byte where its bound is 0. -/
theorem stores_StayInDestination : Obligations.Stores_StayInDestination := by
  intro i s t h
  obtain ⟨bytes, hmem, hbound, hcap⟩ := exec_mem h
  rw [hmem]
  refine ⟨fun hi => ?nothing, fun hwf x hx => ?outside⟩
  case nothing =>
    rw [storeBound_of_not_storing i s hi, Nat.le_zero, List.length_eq_zero_iff] at hbound
    rw [hbound, Memory.write_nil]
  case outside => exact Memory.get_write_of_not_mem bytes s.mem _ x hwf (by omega)

/-! ### A drawn success (R62, R64) -/

/-- A full BUF write leaves nothing of the old bytes (R104). -/
theorem bufStore_toList_full (b : Vector Byte 64) (bytes : Bytes) (h : bytes.length = 64) :
    (bufStore b bytes).toList = bytes := by
  have hrest : b.toList.drop bytes.length = [] := List.drop_of_length_le (by simp [h])
  rw [bufStore_toList b bytes h.le, hrest, List.append_nil]

/-- The register writes of a drawn success. -/
def drawnRegs (i : Instr) (d : Nat) : List RegWrite := (resultRegs i).map (RegWrite.drawn d)

/-- The state after the memory write of a drawn success (R62): a draw is taken, and its bytes are at DST_ADDR. -/
def drawnStore (i : Instr) (s : State) : State :=
  memWrite { s with draws := s.draws + 1 } s.dstAddr.toNat
    (Config.freeBytes s.draws 128 (min (dstBytes i s s.draws) (dstRoom s)))

/-- The two ways a command completes after a broken duty or on a changed tree (R62, R64). -/
theorem exec_drawn_cases (i : Instr) (s : State) (h : hostBreach s (checkOf i s) = true ∨ staleTree i s = true) :
    (∃ e ∈ raises i, exec i s = .next { errored s e with draws := s.draws + 1 }) ∨
      exec i s = .next (succeeded (applyRegs (drawnStore i s) (drawnRegs i s.draws))) := by
  rw [exec_drawn i s h]
  obtain ⟨e, he, hout⟩ | hout := drawnOutcome_cases i s s.draws <;> rw [hout]
  · exact .inl ⟨e, he, rfl⟩
  · exact .inr rfl

/-- Register writes change neither STATUS.ERR nor the count of draws. -/
theorem applyRegs_errFlag_draws (u : State) (ws : List RegWrite) :
    (applyRegs u ws).errFlag = u.errFlag ∧ (applyRegs u ws).draws = u.draws :=
  Prod.mk.inj (applyRegs_frame (fun t => (t.errFlag, t.draws)) ws (fun w _ t => by cases w <;> rfl) u)

/-- The context a drawn SM3_UPDATE leaves: BITCNT is drawn beside BUF_FILL, as R35 (a) binds the two (log 8). -/
theorem applyRegs_drawn_context (u : State) (d : Nat) :
    let t := applyRegs u (drawnRegs .sm3Update d)
    t.v = Config.freeWords8 d 0 ∧ t.bufFill = BitVec.ofNat 6 (Config.free d 35) ∧
      t.bitcnt = BitVec.ofNat 64 (512 * Config.free d 26 + 8 * t.bufFill.toNat) ∧
      t.buf.toList = Config.freeBytes d 64 64 :=
  ⟨rfl, rfl, rfl, bufStore_toList_full u.buf _ (length_freeBytes d 64 64)⟩

theorem applyRegs_drawn_tree (u : State) (d : Nat) :
    let t := applyRegs u (drawnRegs .mtBuild d)
    t.root = Config.freeWords8 d 16 ∧ t.treeN = Config.freeU64 d 29 ∧ t.treeDesc = Config.freeU64 d 30 ∧
      t.treeLda = Config.freeU64 d 31 ∧ t.treeSealed = Config.freeBit d 27 ∧ t.treeSorted = Config.freeBit d 28 :=
  ⟨rfl, rfl, rfl, rfl, rfl, rfl⟩

/-- DIGEST, RESULT0, RESULT1 and VERDICT, each of the commands that write it (R74). -/
theorem applyRegs_drawn_results (u : State) (d : Nat) (i : Instr) :
    let t := applyRegs u (drawnRegs i d)
    (i ∈ [Instr.sm3Hash, .leExtend, .mtLeaf, .mtNode] → t.digest = Config.freeWords8 d 8) ∧
    (i ∈ [Instr.sm3Pad, .leExtend, .mtBuild, .mtInclProof, .mtVerifyIncl, .mtNoninclProof, .mtVerifyNonincl] →
      t.result0 = Config.freeU64 d 24) ∧
    (i ∈ [Instr.sm3Pad, .leExtend, .mtInclProof, .mtNoninclProof] → t.result1 = Config.freeU64 d 25) ∧
    (i ∈ [Instr.mtVerifyIncl, .mtVerifyNonincl] → t.verdict = Config.freeBit d 32) := by
  refine ⟨fun hi => ?_, fun hi => ?_, fun hi => ?_, fun hi => ?_⟩ <;> fin_cases hi <;> rfl

theorem dstBytes_mtInclProof_of_lt (s : State) (d : Nat) (h : s.arg0.toNat < s.treeN.toNat) :
    dstBytes .mtInclProof s d = 33 * depth s.arg0.toNat s.treeN.toNat := by
  rw [dstBytes, storesKnownLength, decide_eq_true h]
  rfl

/-- R126 gives no depth outside the tree, so the length is a draw there (log 21). -/
theorem dstBytes_mtInclProof_of_ge (s : State) (d : Nat) (h : s.arg0.toNat ≥ s.treeN.toNat) :
    dstBytes .mtInclProof s d = Config.free d 33 := by
  rw [dstBytes, storesKnownLength, decide_eq_false (Nat.not_lt.mpr h)]
  rfl

theorem dstBytes_of_not_storing (i : Instr) (s : State) (d : Nat) (hi : i ∉ storingCommands) :
    dstBytes i s d = 0 := by
  revert hi
  cases i with
  | sm3Pad | leExtend | mtBuild | mtInclProof | mtNoninclProof => exact fun hi => absurd (by decide) hi
  | _ => exact fun _ => rfl

/-- Settles O35: the registers, the count and the bytes of a drawn success are read off `exec_drawn_cases`. -/
theorem brokenDuty_OutcomeIsDrawn : Obligations.BrokenDuty_OutcomeIsDrawn := by
  intro i s h d
  have hdrawn : hostBreach s (checkOf i s) = true ∨ staleTree i s = true :=
    h.imp_right fun ⟨hi, hseal, htouch⟩ => by simp only [staleTree, hi, hseal, htouch, decide_true, Bool.and_self]
  refine (exec_drawn_cases i s hdrawn).imp_right fun hexec => ?_
  obtain ⟨herr, hdraws⟩ := applyRegs_errFlag_draws (drawnStore i s) (drawnRegs i d)
  obtain ⟨hdigest, hresult0, hresult1, hverdict⟩ := applyRegs_drawn_results (drawnStore i s) d i
  refine ⟨_, dstBytes i s d, hexec, herr, hdraws, ?update, hdigest, ?build, hresult0, hresult1, hverdict,
    applyRegs_mem (drawnStore i s) _, ?padding, ?array, ?inTree, ?outside, ?record, dstBytes_of_not_storing i s d⟩
  case update =>
    rintro rfl
    exact applyRegs_drawn_context (drawnStore .sm3Update s) d
  case build =>
    rintro rfl
    exact applyRegs_drawn_tree (drawnStore .mtBuild s) d
  case padding =>
    intro hi
    fin_cases hi <;> rfl
  case array =>
    rintro rfl
    rfl
  case inTree =>
    rintro rfl
    exact dstBytes_mtInclProof_of_lt s d
  case outside =>
    rintro rfl
    exact dstBytes_mtInclProof_of_ge s d
  case record =>
    rintro rfl
    rfl

/-! ### The mark of a changed tree (R64) -/

/-- A MemWrite keeps the mark, and sets it where it meets the tree memory. -/
theorem memWrite_touched_iff (s : State) (a : Nat) (bytes : Bytes) :
    (memWrite s a bytes).treeTouched = true ↔
      s.treeTouched = true ∨ ∃ r ∈ treeMemory s, r.meets ⟨a, bytes.length⟩ = true := by
  rw [memWrite_treeTouched, Bool.or_eq_true, List.any_eq_true]

/-- No register write but the one of TREE_STATUS changes the mark. -/
theorem RegWrite.apply_treeTouched (w : RegWrite) (u : State) (h : w.kind ∉ [9]) :
    (w.apply u).treeTouched = u.treeTouched := by
  cases w with
  | treeStatus => exact absurd (List.mem_singleton.mpr rfl) h
  | _ => rfl

/-- The TREE_STATUS write clears the mark, and no other register write sets it. -/
theorem RegWrite.apply_untouched (w : RegWrite) (u : State) (h : w.kind = 9 ∨ u.treeTouched = false) :
    (w.apply u).treeTouched = false := by
  cases w with
  | treeStatus => rfl
  | _ => exact h.resolve_left nofun

/-- A write phase that writes TREE_STATUS leaves the mark clear, whatever it stored. -/
theorem applyRegs_treeTouched_of_mem (ws : List RegWrite) : ∀ u : State, 9 ∈ kinds ws →
    (applyRegs u ws).treeTouched = false := by
  induction ws with
  | nil => exact fun _ h => nomatch h
  | cons w ws ih =>
    intro u h
    rw [applyRegs_cons]
    obtain hw | hws := List.mem_cons.mp h
    · exact applyRegs_induct (P := fun t => t.treeTouched = false) ws _ (fun w _ t ht => w.apply_untouched t (.inr ht))
        (w.apply_untouched u (.inl hw.symm))
    · exact ih _ hws

/-- MT_BUILD alone writes TREE_STATUS (R74). -/
theorem treeStatus_notMem_resultRegs {i : Instr} (hi : i ≠ .mtBuild) : ∀ k ∈ kinds (resultRegs i), k ∉ [9] := by
  revert hi
  cases i <;> decide

/-- The mark after the write phase of a command other than MT_BUILD is that of its MemWrite. -/
theorem applyEffect_treeTouched {i : Instr} {s : State} {w : Effect} (hi : i ≠ .mtBuild) (hw : Effect.fits i s w)
    (u : State) : (applyEffect u w).treeTouched = (memWrite u w.addr w.bytes).treeTouched :=
  applyRegs_frame_kinds State.treeTouched [9] RegWrite.apply_treeTouched w.regs
    (hw.regs ▸ treeStatus_notMem_resultRegs hi) _

/-- The write phase a command completes with fits, a drawn one too (R62, R63, R143). -/
theorem resolve_fits {i : Instr} {s : State} {e : Effect} (h : (resolve i s (checkOf i s)).1 = .ok e) :
    Effect.fits i s e := by
  have hcheck := checkOf_sat i s
  obtain ⟨-, hr⟩ | ⟨-, -, -, hr⟩ | ⟨-, -, -, hr⟩ := resolve_cases i s (checkOf i s) <;> rw [hr] at h
  · obtain ⟨err, -, hd⟩ | hd := drawnOutcome_cases i s s.draws <;> rw [hd] at h <;> cases h
    exact drawnEffect_fits i s s.draws
  · cases hres : (checkOf i s).res with
    | error err =>
      rw [hres] at h
      cases h
    | ok w =>
      rw [hres] at h
      cases h
      exact (hcheck.ok w hres).drawn s.draws
  · exact hcheck.ok e h

/-- A command whose write phase is `e` completes with it (R141). -/
theorem exec_of_resolve {i : Instr} {s : State} {e : Effect} (h : (resolve i s (checkOf i s)).1 = .ok e) :
    ∃ n, exec i s = .next (succeeded (applyEffect { s with draws := n } e)) := by
  refine ⟨s.draws + (resolve i s (checkOf i s)).2, ?_⟩
  rw [exec_eq, finish, h, complete_ok]

/-- A command other than MT_BUILD keeps a set mark. -/
theorem exec_keeps_treeTouched {i : Instr} {s t : State} (hi : i ≠ .mtBuild) (hs : s.treeTouched = true)
    (h : exec i s = .next t) : t.treeTouched = true := by
  obtain ⟨n, ⟨e, -, rfl⟩ | ⟨w, hw, rfl⟩⟩ := exec_cases i s t h
  · exact hs
  · rw [succeeded_treeTouched, applyEffect_treeTouched hi hw, memWrite_touched_iff]
    exact .inl hs

theorem writeArg_treeTouched (s : State) (r : Reg) (w : Word) : (writeArg s r w).treeTouched = s.treeTouched := by
  cases r with
  | lo p | hi p => cases p <;> rfl
  | _ => rfl

/-- A host write of a register keeps the mark, but for a write of CTRL with bit 0 set, the soft reset. -/
theorem writeReg_treeTouched (s : State) {r : Reg} {w : Word} (h : ¬ (r = .ctrl ∧ w.getLsbD 0 = true)) :
    (writeReg s r w).treeTouched = s.treeTouched := by
  cases r with
  | ctrl => rw [writeReg, if_neg fun hw => h ⟨rfl, hw⟩]
  | cmd =>
    rw [writeReg]
    split <;> rfl
  | lo | hi | stateIn | blk =>
    rw [writeReg]
    split
    · rfl
    · exact writeArg_treeTouched s _ w
  | _ => rfl

/-- The one access that writes CTRL is the aligned one at its offset (R24, R29). -/
theorem eq_ctrl_of_ofOffset {off : BitVec 12} {width : Nat} (hok : accessOk off width = true)
    (h : Reg.ofOffset off.toNat = some .ctrl) : off = 0x008 ∧ width = 4 := by
  simp only [accessOk, Bool.and_eq_true, decide_eq_true_eq] at hok
  exact ⟨BitVec.eq_of_toNat_eq (Reg.offset_of_ofOffset h), hok.1⟩

theorem hostWrite_treeTouched (s : State) {off : BitVec 12} {width : Nat} {w : Word}
    (h : ¬ (off = 0x008 ∧ width = 4 ∧ w.getLsbD 0 = true)) :
    (hostWrite s off width w).treeTouched = s.treeTouched := by
  rw [hostWrite]
  split
  · next hok =>
    split
    · next r hr =>
      refine writeReg_treeTouched s fun ⟨hctrl, hbit⟩ => ?_
      obtain ⟨hoff, hwidth⟩ := eq_ctrl_of_ofOffset hok (hctrl ▸ hr)
      exact h ⟨hoff, hwidth, hbit⟩
    · rfl
  · rfl

theorem hostRead_treeTouched (s : State) (off : BitVec 12) (width : Nat) :
    (hostRead s off width).treeTouched = s.treeTouched := by
  rw [hostRead]
  repeat' split
  all_goals rfl

theorem hostMemRead_treeTouched (s : State) (a n : Nat) : (hostMemRead s a n).treeTouched = s.treeTouched := by
  rw [hostMemRead]
  split <;> rfl

theorem hostMemWrite_treeTouched (s : State) (a : Nat) (bytes : Bytes) :
    (hostMemWrite s a bytes).treeTouched = (memWrite s a bytes).treeTouched := by
  rw [hostMemWrite_eq]

theorem waitTurn_treeTouched (s : State) : (waitTurn s).treeTouched = s.treeTouched := by
  rw [waitTurn]
  split <;> rfl

/-- Every host turn but a soft reset keeps a set mark. -/
theorem turn_keeps_treeTouched {s t : State} {x : Input} (hs : s.treeTouched = true) (hengine : x ≠ .engine)
    (hhard : x ≠ .hardReset) (hsoft : ∀ w : Word, w.getLsbD 0 = true → x ≠ .regWrite 0x008 4 w)
    (h : turn s x = .next t) : t.treeTouched = true := by
  cases x with
  | engine => exact absurd rfl hengine
  | hardReset => exact absurd rfl hhard
  | regWrite off width w =>
    cases h
    rw [hostWrite_treeTouched s fun ⟨hoff, hwidth, hbit⟩ => hsoft w hbit (by rw [hoff, hwidth]), hs]
  | regRead off width =>
    cases h
    rw [hostRead_treeTouched, hs]
  | memWrite a bytes =>
    rw [turn_memWrite] at h
    split at h
    · cases h
      rw [hostMemWrite_treeTouched, memWrite_touched_iff]
      exact .inl hs
    · cases h
  | memRead a n =>
    rw [turn_memRead] at h
    split at h
    · cases h
      rw [hostMemRead_treeTouched, hs]
    · cases h
  | wait =>
    cases h
    rw [waitTurn_treeTouched, hs]

/-- Settles O37: MemWrite sets the mark and keeps it, and only the TREE_STATUS write of MT_BUILD clears it. -/
theorem treeMemory_TouchedUntilNextBuild : Obligations.TreeMemory_TouchedUntilNextBuild := by
  refine ⟨fun s a bytes hmeets => ?host, fun i s t e hi hres hmeets h => ?command,
    fun i s t hi hs h => exec_keeps_treeTouched hi hs h, fun s t x rest hs hengine hhard hsoft h => ?turn,
    fun s t herr h hok => ?build⟩
  case host => exact (hostMemWrite_treeTouched s a bytes).trans ((memWrite_touched_iff s a bytes).mpr (.inr hmeets))
  case command =>
    obtain ⟨n, hexec⟩ := exec_of_resolve hres
    rw [hexec] at h
    cases h
    refine ⟨?_, applyEffect_mem _ e⟩
    rw [succeeded_treeTouched, applyEffect_treeTouched hi (resolve_fits hres), memWrite_touched_iff]
    exact .inr hmeets
  case turn =>
    exact turn_keeps_treeTouched (s := { s with inputs := rest }) hs hengine hhard hsoft h
  case build =>
    obtain ⟨n, ⟨e, -, rfl⟩ | ⟨w, hw, rfl⟩⟩ := exec_cases .mtBuild s t h
    · cases hok
    · refine applyRegs_treeTouched_of_mem w.regs _ ?_
      rw [hw.regs]
      decide

/-! ### Self-overlap (R63) -/

/-- A command whose checks pass and whose destination meets a range it read succeeds, and what it writes is drawn. -/
theorem exec_selfOverlap_ok {i : Instr} {s : State} {reads : List Range} {w : Effect} {n : Nat}
    (hbreach : hostBreach s (checkOf i s) = false) (hstale : staleTree i s = false)
    (hcheck : checkOf i s = ⟨reads, .ok w⟩) (hlen : w.bytes.length = n)
    (hmeets : ∃ r ∈ reads, r.meets ⟨w.addr, n⟩ = true) :
    exec i s = .next (complete { s with draws := s.draws + 1 } (.ok
      { regs := w.regs.map (RegWrite.drawn s.draws)
        addr := w.addr
        bytes := Config.freeBytes s.draws 128 n })) := by
  subst hlen
  obtain ⟨r, hr, hm⟩ := hmeets
  have hover : selfOverlap (checkOf i s) = true := by
    rw [hcheck]
    exact selfOverlap_of_mem _ r hr hm
  rw [exec_selfOverlap i s hbreach hstale hover, hcheck]
  rfl

theorem staleTree_of_untouched {i : Instr} {s : State} (h : s.treeTouched = false) : staleTree i s = false := by
  rw [staleTree, h, Bool.and_false]

/-- The check of a valid range raises nothing (R47). -/
theorem Check.raiseIf_of_validRange {s : State} {a : U64} {n : Nat} (h : validRange s a n) (e : Err)
    (k : Unit → Check) : Check.raiseIf (¬ rangeOk s a.toNat n = true) e k = k () :=
  Check.raiseIf_neg (not_not.mpr ((rangeOk_iff s a.toNat n).mpr h)) e k

/-- A check phase that first read the ranges `rs`. -/
def Check.afterReads (rs : List Range) (c : Check) : Check := ⟨rs ++ c.reads, c.res⟩

/-- MemRead of a valid range reads it and goes on (R16). -/
theorem Check.memRead_of_validRange {s : State} {a : U64} {n : Nat} (h : validRange s a n) (k : Bytes → Check) :
    Check.memRead s a.toNat n k = (k (Memory.read s.mem a.toNat n)).afterReads [⟨a.toNat, n⟩] :=
  if_pos ((rangeOk_iff s a.toNat n).mpr h)

/-- The descriptor and the leaf ranges a loop over `n` leaves reads (R133). -/
def leafReads (s : State) (table n : Nat) : List Range :=
  (List.range n).flatMap fun j =>
    [⟨table + 16 * j, 16⟩, ⟨descAddr (descriptor s table j), descLen (descriptor s table j)⟩]

/-- A range that meets a descriptor or a leaf meets a range the loop reads. -/
theorem exists_leafReads_meets {s : State} {table n j : Nat} {w : Range} (hj : j < n)
    (h : Range.meets ⟨table + 16 * j, 16⟩ w = true ∨
      Range.meets ⟨descAddr (descriptor s table j), descLen (descriptor s table j)⟩ w = true) :
    ∃ r ∈ leafReads s table n, r.meets w = true := by
  obtain h | h := h <;> exact ⟨_, List.mem_flatMap.mpr ⟨j, List.mem_range.mpr hj, by simp⟩, h⟩

/-- The loop over the leaves of a valid table, when each passes its checks (R133). -/
theorem Check.leaves_of_validRange {s : State} {table : U64} {n : Nat} (htable : validRange s table (16 * n))
    (hleaves : ∀ j < n, leafOk s table.toNat j) (k : List Bytes → Check) :
    Check.leaves s table.toNat n 0 k = (k (leavesOf s table.toNat n)).afterReads (leafReads s table.toNat n) := by
  have hall : ∀ j, 0 ≤ j → j < 0 + n → rangeOk s (table.toNat + 16 * j) 16 = true ∧ leafOk s table.toNat j :=
    fun j _ hj => ⟨rangeOk_sub s _ _ _ 16 ((rangeOk_iff s _ _).mpr htable) (by omega), hleaves j (by omega)⟩
  have hreads := Check.leaves_reads s table.toNat n 0 k hall
  have hres := Check.leaves_res s table.toNat n 0 k hall
  rw [← List.range_eq_range'] at hreads hres
  rw [Check.afterReads, leavesOf, leafReads, ← hreads, ← hres]

theorem getD_leavesOf {s : State} {table n j : Nat} (hj : j < n) :
    (leavesOf s table n).getD j [] = leafOf s table j := by
  simp [leavesOf, hj]

theorem length_leavesOf (s : State) (table n : Nat) : (leavesOf s table n).length = n := by
  simp [leavesOf]

/-- LE_EXTEND when every check of R111 passes. -/
theorem checkOf_leExtend_of_valid {s : State} (hbytes : s.arg0.toNat % 8 = 0)
    (hbits : paddedBits s.arg0.toNat + 8 * s.srcLen.toNat ≤ maxBits) (hroom : padLen s.arg0.toNat ≤ s.dstLen.toNat)
    (hsrc : validRange s s.srcAddr s.srcLen.toNat) (hdst : validRange s s.dstAddr (padLen s.arg0.toNat)) :
    checkOf .leExtend s
      = ⟨[⟨s.srcAddr.toNat, s.srcLen.toNat⟩], .ok
          { regs :=
              [.digest (forgedState s.stateIn s.arg0.toNat (srcBytes s)),
               .result0 (BitVec.ofNat 64 (padLen s.arg0.toNat)),
               .result1 (BitVec.ofNat 64 (paddedBits s.arg0.toNat + 8 * s.srcLen.toNat))]
            addr := s.dstAddr.toNat
            bytes := pad s.arg0.toNat }⟩ := by
  rw [checkOf, checkLeExtend, Check.raiseIf_neg (not_not.mpr hbytes), Check.raiseIf_neg (by omega),
    Check.raiseIf_neg (by omega), Check.raiseIf_neg (by omega), Check.memRead_of_validRange hsrc,
    Check.raiseIf_of_validRange hdst]
  rfl

/-- MT_BUILD when every check of R133 passes. -/
theorem checkOf_mtBuild_of_valid {s : State} (hcap : s.arg0.toNat ≤ s.params.maxLeaves)
    (hroom : 32 * s.arg0.toNat ≤ s.dstLen.toNat) (hdst : validRange s s.dstAddr (32 * s.arg0.toNat))
    (htable : validRange s s.srcAddr (16 * s.arg0.toNat))
    (hleaves : ∀ j < s.arg0.toNat, leafOk s s.srcAddr.toNat j) :
    checkOf .mtBuild s
      = ⟨leafReads s s.srcAddr.toNat s.arg0.toNat,
          .ok (buildEffect s (leavesOf s s.srcAddr.toNat s.arg0.toNat))⟩ := by
  rw [checkOf, checkMtBuild, Check.raiseIf_neg (by omega), Check.raiseIf_neg (by omega),
    Check.raiseIf_of_validRange hdst, Check.raiseIf_of_validRange htable, Check.leaves_of_validRange htable hleaves,
    Check.afterReads, Check.done_reads, List.append_nil]
  rfl

theorem length_buildEffect (s : State) :
    (buildEffect s (leavesOf s s.srcAddr.toNat s.arg0.toNat)).bytes.length = 32 * s.arg0.toNat := by
  rw [buildEffect, length_flatten_digests, List.length_map, length_leavesOf]
  intro d hd
  obtain ⟨leaf, -, rfl⟩ := List.mem_map.mp hd
  exact length_leafHash leaf

/-- MT_INCL_PROOF when every check of R134 passes. -/
theorem checkOf_mtInclProof_of_valid {s : State} (hseal : s.treeSealed = true) (hindex : s.arg0.toNat < s.treeN.toNat)
    (hroom : 33 * depth s.arg0.toNat s.treeN.toNat ≤ s.dstLen.toNat)
    (hdst : validRange s s.dstAddr (33 * depth s.arg0.toNat s.treeN.toNat))
    (harray : validRange s s.treeLda (32 * s.treeN.toNat)) :
    checkOf .mtInclProof s
      = ⟨[⟨s.treeLda.toNat, 32 * s.treeN.toNat⟩], .ok
          { regs :=
              [.result0 (BitVec.ofNat 64 (depth s.arg0.toNat s.treeN.toNat)),
               .result1 (BitVec.ofNat 64 (33 * depth s.arg0.toNat s.treeN.toNat))]
            addr := s.dstAddr.toNat
            bytes := encPath (path s.arg0.toNat (treeDigests s)) }⟩ := by
  rw [checkOf, checkMtInclProof, Check.raiseIf_neg (by simp [hseal]), Check.raiseIf_neg (by omega),
    Check.raiseIf_neg (by omega), Check.raiseIf_neg (by omega), Check.raiseIf_of_validRange hdst,
    Check.memRead_of_validRange harray]
  rfl

theorem length_treeProof (s : State) :
    (encPath (path s.arg0.toNat (treeDigests s))).length = 33 * depth s.arg0.toNat s.treeN.toNat := by
  rw [treeDigests, length_encPath_path _ _ (digestArray_digest _ _ (Memory.length_read _ _ _)), length_digestArray]

theorem keyPosition_le (s : State) : keyPosition s ≤ s.treeN.toNat :=
  List.countP_le_length.trans_eq (length_leavesOf s _ _)

/-- The record laid out from the leaves and the array that were read is the record of the sealed tree (R136). -/
theorem nirRecord_eq_recordOf {s : State} (hn : s.treeN.toNat ≠ 0) :
    nirRecord (leavesOf s s.treeDesc.toNat s.treeN.toNat) (treeDigests s) (keyPosition s) = recordOf s := by
  have hblock : ∀ j < s.treeN.toNat, encNeighbour j ((leavesOf s s.treeDesc.toNat s.treeN.toNat).getD j [])
      (path j (treeDigests s)) = neighbourBlock s j := fun j hj => by rw [getD_leavesOf hj, neighbourBlock]
  have hle := keyPosition_le s
  rw [nirRecord, length_leavesOf, neighboursOf, recordOf, recordKind]
  split
  · rw [List.flatMap_singleton, hblock 0 (by omega)]
    rfl
  · split
    · rw [List.flatMap_singleton, hblock _ (by omega)]
      rfl
    · rw [List.flatMap_cons, List.flatMap_singleton, hblock _ (by omega), hblock _ (by omega)]
      rfl

/-- The ranges MT_NONINCL_PROOF reads when no check fails: the key, the leaf table and leaves, the digests (R136). -/
def nonInclReads (s : State) : List Range :=
  ⟨s.srcAddr.toNat, s.srcLen.toNat⟩ ::
    (leafReads s s.treeDesc.toNat s.treeN.toNat ++ [⟨s.treeLda.toNat, 32 * s.treeN.toNat⟩])

/-- MT_NONINCL_PROOF when every check of R136 passes. -/
theorem checkOf_mtNoninclProof_of_valid {s : State} (hseal : s.treeSealed = true) (hn : s.treeN.toNat ≠ 0)
    (hsort : s.treeSorted = true) (hkey : validRange s s.srcAddr s.srcLen.toNat)
    (htable : validRange s s.treeDesc (16 * s.treeN.toNat))
    (hleaves : ∀ j < s.treeN.toNat, leafOk s s.treeDesc.toNat j)
    (harray : validRange s s.treeLda (32 * s.treeN.toNat))
    (habsent : ¬ (keyPosition s < s.treeN.toNat ∧ leafOf s s.treeDesc.toNat (keyPosition s) = srcBytes s))
    (hroom : (recordOf s).length ≤ s.dstLen.toNat) (hdst : validRange s s.dstAddr (recordOf s).length) :
    checkOf .mtNoninclProof s
      = ⟨nonInclReads s, .ok
          { regs :=
              [.result0 (BitVec.ofNat 64 (recordOf s).length),
               .result1 ((neighboursOf (keyPosition s) s.treeN.toNat).1.byte.setWidth 64)]
            addr := s.dstAddr.toNat
            bytes := recordOf s }⟩ := by
  rw [checkOf, checkMtNoninclProof, Check.raiseIf_neg (by simp [hseal]), Check.raiseIf_neg hn,
    Check.raiseIf_neg (by simp [hsort]), Check.memRead_of_validRange hkey, Check.raiseIf_of_validRange htable,
    Check.leaves_of_validRange htable hleaves, Check.memRead_of_validRange harray]
  -- The check phase has the key, the leaf digests and the position written out as reads of memory.
  have hrecord := nirRecord_eq_recordOf hn
  have hpresent : ¬ (keyPosition s < s.treeN.toNat ∧
      (leavesOf s s.treeDesc.toNat s.treeN.toNat).getD (keyPosition s) [] = srcBytes s) := fun ⟨hp, hy⟩ =>
    habsent ⟨hp, (getD_leavesOf hp).symm.trans hy⟩
  simp only [treeDigests, keyPosition, srcBytes] at hrecord hpresent
  rw [Check.raiseIf_neg hpresent, hrecord, Check.raiseIf_neg (by omega), Check.raiseIf_of_validRange hdst]
  rfl

/-- Settles O36: each check phase passes, and its write phase is drawn. -/
theorem selfOverlap_ResultsAreDrawn : Obligations.SelfOverlap_ResultsAreDrawn := by
  intro s d table leafRead
  refine ⟨?extend, ?build, ?inclusion, ?absence⟩
  case extend =>
    intro hbreach l p hbytes hbits hroom hsrc hdst hmeets
    have hcheck := checkOf_leExtend_of_valid hbytes hbits hroom hsrc hdst
    rw [exec_selfOverlap_ok hbreach rfl hcheck (length_pad l) ⟨_, List.mem_singleton_self _, hmeets⟩]
    exact congrArg Host.Outcome.next (complete_extend _ _ _ _ _ _)
  case build =>
    intro hbreach n hcap hroom hdst htable hleaves ⟨j, hj, hmeets⟩
    have hcheck := checkOf_mtBuild_of_valid hcap hroom hdst htable hleaves
    rw [exec_selfOverlap_ok hbreach rfl hcheck (length_buildEffect s) (exists_leafReads_meets hj hmeets)]
    exact congrArg Host.Outcome.next (complete_build _ _ _ _ _ _ _ _ _ _)
  case inclusion =>
    intro hbreach htouch hseal n b hindex hroom hdst harray hmeets
    have hcheck := checkOf_mtInclProof_of_valid hseal hindex hroom hdst harray
    rw [exec_selfOverlap_ok hbreach (staleTree_of_untouched htouch) hcheck (length_treeProof s)
      ⟨_, List.mem_singleton_self _, hmeets⟩]
    exact congrArg Host.Outcome.next (complete_results _ _ _ _ _)
  case absence =>
    intro hbreach htouch hseal n p w hn hsort hkey htable hleaves harray habsent hroom hdst hmeets
    have hcheck := checkOf_mtNoninclProof_of_valid hseal hn hsort hkey htable hleaves harray habsent hroom hdst
    have hread : ∃ r ∈ nonInclReads s, r.meets w = true := by
      obtain hkey | ⟨j, hj, hleaf⟩ | harray := hmeets
      · exact ⟨_, List.mem_cons_self, hkey⟩
      · obtain ⟨r, hr, hm⟩ := exists_leafReads_meets hj hleaf
        exact ⟨r, List.mem_cons_of_mem _ (List.mem_append_left _ hr), hm⟩
      · exact ⟨_, List.mem_cons_of_mem _ (List.mem_append_right _ (List.mem_singleton_self _)), harray⟩
    rw [exec_selfOverlap_ok hbreach (staleTree_of_untouched htouch) hcheck rfl hread]
    exact congrArg Host.Outcome.next (complete_results _ _ _ _ _)

end Sys2Proof.Machine
end

section
/-! The proofs of the statements of spec/30_encoding.md: command words and their fields, the layout of a non-inclusion
record, what a command reads, and RUN. -/

namespace Sys2Proof.Machine

/-! ### Command words (R69 to R72) -/

/-- A command word is its MBZ field above its OPCODE field (R69). -/
theorem mbzField_append_opcodeField (w : Word) : mbzField w ++ opcodeField w = w := by
  rw [mbzField, opcodeField, BitVec.extractLsb'_append_extractLsb'_eq_extractLsb' (by decide),
    BitVec.extractLsb'_eq_self]

theorem toNat_opcodeField (w : Word) : (opcodeField w).toNat = w.toNat % 256 := by
  simp only [opcodeField, BitVec.extractLsb'_toNat, Nat.shiftRight_zero]

theorem mbzField_eq_zero_iff (w : Word) : mbzField w = 0 ↔ w.toNat / 256 = 0 := by
  have hw := w.isLt
  simp only [← BitVec.toNat_inj, mbzField, BitVec.extractLsb'_toNat, Nat.shiftRight_eq_div_pow, BitVec.ofNat_eq_ofNat,
    BitVec.toNat_ofNat]
  omega

theorem decodeOpcode_opcode (i : Instr) : decodeOpcode i.opcode = some i := by
  cases i <;> rfl

/-- The opcodes the map leaves out (R72). -/
theorem decodeOpcode_eq_none_iff (op : BitVec 8) :
    decodeOpcode op = none ↔ (0x08 ≤ op.toNat ∧ op.toNat ≤ 0x0F) ∨ (0x11 ≤ op.toNat ∧ op.toNat ≤ 0x1F) ∨
      0x27 ≤ op.toNat := by
  simp only [decodeOpcode]
  split
  case h_17 =>
    simp only [imp_false] at *
    exact iff_of_true trivial (by omega)
  all_goals exact iff_of_false nofun (by omega)

/-- A word decodes to a command exactly when MBZ is zero and the map has its opcode (R71). -/
theorem decode_eq_ok_iff (w : Word) (i : Instr) :
    decode w = .ok i ↔ mbzField w = 0 ∧ decodeOpcode (opcodeField w) = some i := by
  rw [decode]
  split
  case isTrue hmbz => cases decodeOpcode (opcodeField w) <;> simp [hmbz]
  case isFalse hmbz => exact ⟨nofun, fun h => absurd h.1 hmbz⟩

/-- A word is reserved exactly when MBZ is not zero or the map leaves its opcode out (R72). -/
theorem decode_ne_ok_iff (w : Word) :
    (∀ i, decode w ≠ .ok i) ↔ mbzField w ≠ 0 ∨ decodeOpcode (opcodeField w) = none := by
  simp only [ne_eq, decode_eq_ok_iff, not_and_or, forall_or_left, Option.eq_none_iff_forall_ne_some]

/-- The law of every command's word, put together from the laws of Laws/PerInstr.lean. -/
theorem encodingWellFormed : ∀ i : Instr, Laws.EncodingWellFormed.Statement i
  | .nop => Laws.EncodingWellFormed.nop
  | .sm3Init => Laws.EncodingWellFormed.sm3Init
  | .sm3Inject => Laws.EncodingWellFormed.sm3Inject
  | .sm3Update => Laws.EncodingWellFormed.sm3Update
  | .sm3Compress => Laws.EncodingWellFormed.sm3Compress
  | .sm3Final => Laws.EncodingWellFormed.sm3Final
  | .sm3Hash => Laws.EncodingWellFormed.sm3Hash
  | .sm3Pad => Laws.EncodingWellFormed.sm3Pad
  | .leExtend => Laws.EncodingWellFormed.leExtend
  | .mtLeaf => Laws.EncodingWellFormed.mtLeaf
  | .mtNode => Laws.EncodingWellFormed.mtNode
  | .mtBuild => Laws.EncodingWellFormed.mtBuild
  | .mtInclProof => Laws.EncodingWellFormed.mtInclProof
  | .mtVerifyIncl => Laws.EncodingWellFormed.mtVerifyIncl
  | .mtNoninclProof => Laws.EncodingWellFormed.mtNoninclProof
  | .mtVerifyNonincl => Laws.EncodingWellFormed.mtVerifyNonincl

theorem decode_encode (i : Instr) : decode (encode i) = .ok i := by
  obtain ⟨-, hmbz, hop⟩ := encodingWellFormed i
  exact (decode_eq_ok_iff _ i).mpr ⟨hmbz, by rw [hop, decodeOpcode_opcode]⟩

theorem eq_encode_of_decode {w : Word} {i : Instr} (h : decode w = .ok i) : w = encode i := by
  obtain ⟨hmbz, -⟩ := (decode_eq_ok_iff w i).mp h
  calc w = mbzField w ++ opcodeField w := (mbzField_append_opcodeField w).symm
    _ = encode i := by rw [hmbz, opcodeField_of_decode h, encode]

/-- Settles O1: the fields of a word determine it, and the opcode map and `Instr.opcode` are inverse to each other. -/
theorem decodeEncode_Agree : Obligations.DecodeEncode_Agree := by
  refine ⟨⟨?_, ?_⟩, fun i => ⟨(encodingWellFormed i).1, decode_encode i⟩, fun w i => eq_encode_of_decode⟩
  · decide
  · decide

/-- A write of CMD to an idle engine is the accept (R140). -/
theorem hostWrite_cmd_of_idle {s : State} (hidle : s.busy = false) (w : Word) : hostWrite s 0x010 4 w = accept w s :=
  (hostWrite_offset s .cmd w).trans (if_neg (by rw [hidle]; decide))

/-- Settles O2: the reserved ranges are read off the decoder, and the completion is that of the engine's turn. -/
theorem reservedWords_Rejected : Obligations.ReservedWords_Rejected := by
  intro w
  refine ⟨?ranges, fun hres s => ⟨fun hidle => ⟨?accepted, rfl, rfl⟩, fun hw => engineTurn_of_reserved hw hres⟩⟩
  case ranges =>
    simp only [decode_ne_ok_iff, ne_eq, mbzField_eq_zero_iff, decodeOpcode_eq_none_iff, toNat_opcodeField]
  case accepted =>
    exact hostWrite_cmd_of_idle hidle w

/-- Settles O3: the decoder evaluated on each word. -/
theorem sampleWords_Decode : Obligations.SampleWords_Decode := by
  refine ⟨?_, ?_, ?_, ?_, ?_, ?_, ?_, ?_, ?_⟩ <;> rfl

/-! ### The layout of a non-inclusion record (R79, R80) -/

/-- A big-endian u64 is its high word, then its low word (R14). -/
theorem be64_append (x y : Word) : be64 (x ++ y) = be32 x ++ be32 y := by
  simp (disch := decide) only [be64, be32, BitVec.extractLsb'_append_eq_of_le, BitVec.extractLsb'_append_eq_of_add_le,
    List.cons_append, List.nil_append]

/-- Eight bytes read as a u64 and written out again (R14). -/
theorem be64_u64At {b : Bytes} (h : b.length = 8) : be64 (u64At b 0) = b := by
  rw [u64At, be64_append, w32, w32, be32_wordOfBytes, be32_wordOfBytes]
  apply List.ext_getElem (by simp [h])
  intro n h1 h2
  have hn : n < 8 := by omega
  interval_cases n <;> simp [h]

/-- A number that fits 64 bits, written out and read back (R14). -/
theorem toNat_u64At_be64 {n : Nat} (h : n < 2 ^ 64) : (u64At (be64 (BitVec.ofNat 64 n)) 0).toNat = n := by
  rw [← List.append_nil (be64 _), u64At_be64, BitVec.toNat_ofNat, Nat.mod_eq_of_lt h]

theorem bind_ok_iff {α β : Type} {x : Except Err α} {f : α → Except Err β} {b : β} :
    (x >>= f) = .ok b ↔ ∃ a, x = .ok a ∧ f a = .ok b := by
  refine ⟨bind_ok, ?_⟩
  rintro ⟨a, rfl, h⟩
  exact h

/-- `take(k)` of R80 splits off the first `k` bytes. -/
theorem takeBytes_ok_iff {k : Nat} {r a r' : Bytes} : takeBytes k r = .ok (a, r') ↔ r = a ++ r' ∧ a.length = k := by
  refine ⟨takeBytes_ok, ?_⟩
  rintro ⟨rfl, rfl⟩
  exact takeBytes_append a r'

/-- The fields a neighbour block is parsed into (R79, R80). -/
theorem parseNeighbour_eq_ok_iff_fields {r r' : Bytes} {b : Neighbour} :
    parseNeighbour r = .ok (b, r') ↔ ∃ idx len leaf c ent : Bytes,
      r = idx ++ (len ++ (leaf ++ (c ++ (ent ++ r')))) ∧ idx.length = 8 ∧ len.length = 8 ∧
        leaf.length = (u64At len 0).toNat ∧ c.length = 1 ∧ ent.length = 33 * (c.getD 0 0).toNat ∧
        b = ⟨(u64At idx 0).toNat, leaf, (c.getD 0 0).toNat, ent⟩ := by
  simp only [parseNeighbour, bind_ok_iff, Prod.exists, takeBytes_ok_iff, pure, Except.pure, Except.ok.injEq,
    Prod.mk.injEq]
  constructor
  · rintro ⟨idx, _, ⟨rfl, h1⟩, len, _, ⟨rfl, h2⟩, leaf, _, ⟨rfl, h3⟩, c, _, ⟨rfl, h4⟩, ent, _, ⟨rfl, h5⟩, rfl, rfl⟩
    exact ⟨idx, len, leaf, c, ent, rfl, h1, h2, h3, h4, h5, rfl⟩
  · rintro ⟨idx, len, leaf, c, ent, rfl, h1, h2, h3, h4, h5, rfl⟩
    exact ⟨idx, _, ⟨rfl, h1⟩, len, _, ⟨rfl, h2⟩, leaf, _, ⟨rfl, h3⟩, c, _, ⟨rfl, h4⟩, ent, _, ⟨rfl, h5⟩, rfl, rfl⟩

/-- One neighbour block parses exactly when its bytes stand first and its fields fit (R79, R80). -/
theorem parseNeighbour_eq_ok_iff {r r' : Bytes} {b : Neighbour} :
    parseNeighbour r = .ok (b, r') ↔ r = b.bytes ++ r' ∧ b.fits := by
  rw [parseNeighbour_eq_ok_iff_fields]
  constructor
  · rintro ⟨idx, len, leaf, c, ent, rfl, hidx, hlen, hleaf, hc, hent, rfl⟩
    obtain ⟨x, rfl⟩ := List.length_eq_one_iff.mp hc
    refine ⟨?_, BitVec.isLt _, by rw [hleaf]; exact BitVec.isLt _, BitVec.isLt _, hent⟩
    simp only [Neighbour.bytes, hleaf, BitVec.ofNat_toNat, BitVec.setWidth_eq, be64_u64At hidx, be64_u64At hlen,
      List.getD_cons_zero, List.append_assoc]
  · rintro ⟨rfl, hidx, hlen, hcount, hent⟩
    have hc : ([BitVec.ofNat 8 b.count].getD 0 0).toNat = b.count := by
      rw [List.getD_cons_zero, BitVec.toNat_ofNat, Nat.mod_eq_of_lt hcount]
    refine ⟨_, _, b.leaf, [BitVec.ofNat 8 b.count], b.entries, ?_, length_be64 (BitVec.ofNat 64 b.index),
      length_be64 (BitVec.ofNat 64 b.leaf.length), (toNat_u64At_be64 hlen).symm, rfl, ?_, ?_⟩
    · simp only [Neighbour.bytes, List.append_assoc]
    · rw [hc, hent]
    · rw [hc, toNat_u64At_be64 hidx]

/-- The blocks of a record parse exactly when their bytes stand first, one after the other (R79, R80). -/
theorem parseNeighbours_eq_ok_iff (nb : Nat) : ∀ {r r' : Bytes} {bs : List Neighbour},
    parseNeighbours nb r = .ok (bs, r') ↔
      r = bs.flatMap Neighbour.bytes ++ r' ∧ (∀ b ∈ bs, Neighbour.fits b) ∧ bs.length = nb := by
  induction nb with
  | zero =>
    intro r r' bs
    rw [parseNeighbours, Except.ok.injEq, Prod.mk.injEq, List.length_eq_zero_iff]
    constructor
    · rintro ⟨rfl, rfl⟩
      exact ⟨rfl, nofun, rfl⟩
    · rintro ⟨rfl, -, rfl⟩
      exact ⟨rfl, rfl⟩
  | succ nb ih =>
    intro r r' bs
    simp only [parseNeighbours, bind_ok_iff, Prod.exists, parseNeighbour_eq_ok_iff, ih, pure, Except.pure,
      Except.ok.injEq, Prod.mk.injEq]
    constructor
    · rintro ⟨b, _, ⟨rfl, hb⟩, bs, _, ⟨rfl, hbs, hlen⟩, rfl, rfl⟩
      exact ⟨by rw [List.flatMap_cons, List.append_assoc], List.forall_mem_cons.mpr ⟨hb, hbs⟩, by
        rw [List.length_cons, hlen]⟩
    · rintro ⟨rfl, hfits, hlen⟩
      obtain ⟨b, bs, rfl⟩ := List.exists_cons_of_length_eq_add_one hlen
      obtain ⟨hb, hbs⟩ := List.forall_mem_cons.mp hfits
      exact ⟨b, _, ⟨by rw [List.flatMap_cons, List.append_assoc], hb⟩, bs, r', ⟨rfl, hbs, Nat.succ.inj hlen⟩, rfl, rfl⟩

/-- A KIND byte names at most the kind it is the byte of (R79). -/
theorem NirKind.ofByte?_eq_some_iff (x : Byte) (kind : NirKind) : NirKind.ofByte? x = some kind ↔ x = kind.byte := by
  constructor
  · intro h
    simp only [NirKind.ofByte?] at h
    split at h
    · cases h
      assumption
    · split at h
      · cases h
        assumption
      · split at h <;> cases h
        assumption
  · rintro rfl
    cases kind <;> rfl

theorem NirKind.blocks_eq (kind : NirKind) : kind.blocks = if kind = .bracket then 2 else 1 := by
  cases kind <;> rfl

/-- ParseNIR, stage by stage: the KIND byte, the blocks, and no byte after them (R80). -/
theorem parseNir_eq_ok_iff_stages {r : Bytes} {kind : NirKind} {bs : List Neighbour} :
    parseNir r = .ok (kind, bs) ↔
      ∃ k r', takeBytes 1 r = .ok (k, r') ∧ NirKind.ofByte? (k.getD 0 0) = some kind ∧
        parseNeighbours kind.blocks r' = .ok (bs, []) := by
  simp only [parseNir, bind_ok_iff, Prod.exists]
  refine exists₂_congr fun k r' => and_congr_right fun _ => ?_
  cases hk : NirKind.ofByte? (k.getD 0 0) with
  | none => exact iff_of_false nofun nofun
  | some kind' =>
    simp only [bind_ok_iff, Prod.exists]
    constructor
    · rintro ⟨bs', rest, hparse, h⟩
      split at h
      · cases h
      · next hrest =>
        cases h
        rw [List.length_eq_zero_iff.mp (not_not.mp hrest)] at hparse
        exact ⟨rfl, hparse⟩
    · rintro ⟨h, hparse⟩
      cases h
      exact ⟨bs, [], hparse, rfl⟩

/-- ParseNIR accepts exactly the bytes of a record (R79, R80). -/
theorem parseNir_eq_ok_iff {r : Bytes} {kind : NirKind} {bs : List Neighbour} :
    parseNir r = .ok (kind, bs) ↔
      r = kind.byte :: bs.flatMap Neighbour.bytes ∧ (∀ b ∈ bs, Neighbour.fits b) ∧ bs.length = kind.blocks := by
  simp only [parseNir_eq_ok_iff_stages, takeBytes_ok_iff, NirKind.ofByte?_eq_some_iff, parseNeighbours_eq_ok_iff,
    List.append_nil]
  constructor
  · rintro ⟨k, _, ⟨rfl, hk⟩, hkind, rfl, hfits, hlen⟩
    obtain ⟨x, rfl⟩ := List.length_eq_one_iff.mp hk
    exact ⟨congrArg (· :: _) hkind, hfits, hlen⟩
  · rintro ⟨rfl, hfits, hlen⟩
    exact ⟨[kind.byte], _, ⟨rfl, rfl⟩, rfl, rfl, hfits, hlen⟩

/-- Settles O28: each stage of the parse accepts exactly the bytes its fields lay out. -/
theorem parseNir_AcceptsRecordLayout : Obligations.ParseNir_AcceptsRecordLayout :=
  ⟨fun _ kind _ => kind.blocks_eq ▸ parseNir_eq_ok_iff, fun _ _ => parseNir_error, rfl, rfl, rfl⟩

/-! ### What a command reads (R74) -/

/-- `t` agrees with `s` on everything command `i` reads: the argument registers R74 lists, memory, the context for the
streaming commands, the tree for the proof commands, and the record of host accesses and draws. -/
structure ReadsAgree (i : Instr) (s t : State) : Prop where
  params : t.params = s.params := by intros; rfl
  mem : t.mem = s.mem := by intros; rfl
  host : t.hostReads = s.hostReads ∧ t.hostWrites = s.hostWrites := by exact ⟨rfl, rfl⟩
  draws : t.draws = s.draws := by intros; rfl
  srcAddr : readsPair i .srcAddr = true → t.srcAddr = s.srcAddr := by intros; rfl
  srcLen : readsPair i .srcLen = true → t.srcLen = s.srcLen := by intros; rfl
  auxAddr : readsPair i .auxAddr = true → t.auxAddr = s.auxAddr := by intros; rfl
  auxLen : readsPair i .auxLen = true → t.auxLen = s.auxLen := by intros; rfl
  dstAddr : readsPair i .dstAddr = true → t.dstAddr = s.dstAddr := by intros; rfl
  dstLen : readsPair i .dstLen = true → t.dstLen = s.dstLen := by intros; rfl
  arg0 : readsPair i .arg0 = true → t.arg0 = s.arg0 := by intros; rfl
  arg1 : readsPair i .arg1 = true → t.arg1 = s.arg1 := by intros; rfl
  bitcntIn : readsPair i .bitcntIn = true → t.bitcntIn = s.bitcntIn := by intros; rfl
  stateIn : readsStateIn i = true → t.stateIn = s.stateIn := by intros; rfl
  blk : i = .sm3Compress → t.blk = s.blk := by intros; rfl
  context : i ∈ contextCommands → t.v = s.v ∧ t.bitcnt = s.bitcnt ∧ t.buf = s.buf ∧ t.bufFill = s.bufFill ∧
    t.ctxState = s.ctxState := by exact fun _ => ⟨rfl, rfl, rfl, rfl, rfl⟩
  tree : i = .mtInclProof ∨ i = .mtNoninclProof → treeRegs t = treeRegs s ∧ t.treeTouched = s.treeTouched := by
    exact fun _ => ⟨rfl, rfl⟩

theorem treeRegs_eq_iff (s t : State) : treeRegs t = treeRegs s ↔
    t.root = s.root ∧ t.treeSealed = s.treeSealed ∧ t.treeSorted = s.treeSorted ∧ t.treeN = s.treeN ∧
      t.treeDesc = s.treeDesc ∧ t.treeLda = s.treeLda := by
  simp only [treeRegs, Prod.mk.injEq]

/-- The verdict of an inclusion proof looks at STATE_IN alone (R135). -/
theorem inclVerdict_congr {s t : State} (h : t.stateIn = s.stateIn) : inclVerdict t = inclVerdict s := by
  funext leaf es
  rw [inclVerdict, inclVerdict, stateInDigest, stateInDigest, h]

/-- The check phase of a command depends on nothing but what the command reads. -/
theorem ReadsAgree.checkOf_eq {i : Instr} {s t : State} (h : ReadsAgree i s t) : checkOf i t = checkOf i s := by
  have hread := Check.memRead_congr s t h.mem h.params
  have hleaves := Check.leaves_congr s t h.mem h.params
  have hrange := rangeOk_congr s t h.params
  cases i with
  | nop | sm3Init => rfl
  | sm3Inject => simp only [checkOf, checkSm3Inject, h.bitcntIn rfl, h.stateIn rfl]
  | sm3Update =>
    obtain ⟨hv, hbit, hbuf, hfill, hctx⟩ := h.context (by decide)
    simp only [checkOf, checkSm3Update, absorb, buffered, hv, hbit, hbuf, hfill, hctx, h.srcAddr rfl, h.srcLen rfl,
      hread]
  | sm3Compress =>
    obtain ⟨hv, hbit, -, hfill, hctx⟩ := h.context (by decide)
    simp only [checkOf, checkSm3Compress, blkBlock, hv, hbit, hfill, hctx, h.blk rfl]
  | sm3Final =>
    obtain ⟨hv, hbit, hbuf, hfill, hctx⟩ := h.context (by decide)
    simp only [checkOf, checkSm3Final, finalState, buffered, contextAligned, hv, hbit, hbuf, hfill, hctx]
  | sm3Hash => simp only [checkOf, checkSm3Hash, h.srcAddr rfl, h.srcLen rfl, hread]
  | sm3Pad => simp only [checkOf, checkSm3Pad, h.arg0 rfl, h.dstAddr rfl, h.dstLen rfl, hrange]
  | leExtend =>
    simp only [checkOf, checkLeExtend, h.arg0 rfl, h.srcAddr rfl, h.srcLen rfl, h.dstAddr rfl, h.dstLen rfl,
      h.stateIn rfl, hread, hrange]
  | mtLeaf => simp only [checkOf, checkMtLeaf, h.srcAddr rfl, h.srcLen rfl, hread]
  | mtNode => simp only [checkOf, checkMtNode, h.srcAddr rfl, h.auxAddr rfl, hread]
  | mtBuild =>
    simp only [checkOf, checkMtBuild, buildEffect, h.params, h.arg0 rfl, h.srcAddr rfl, h.dstAddr rfl, h.dstLen rfl,
      hleaves, hrange]
  | mtInclProof =>
    obtain ⟨htree, -⟩ := h.tree (.inl rfl)
    obtain ⟨-, hseal, -, hn, -, hlda⟩ := (treeRegs_eq_iff s t).mp htree
    simp only [checkOf, checkMtInclProof, hseal, hn, hlda, h.arg0 rfl, h.dstAddr rfl, h.dstLen rfl, hread, hrange]
  | mtVerifyIncl =>
    simp only [checkOf, checkMtVerifyIncl, inclVerdict_congr (h.stateIn rfl), h.arg0 rfl, h.arg1 rfl, h.srcAddr rfl,
      h.srcLen rfl, h.auxAddr rfl, h.auxLen rfl, hread]
  | mtNoninclProof =>
    obtain ⟨htree, -⟩ := h.tree (.inr rfl)
    obtain ⟨-, hseal, hsort, hn, hdesc, hlda⟩ := (treeRegs_eq_iff s t).mp htree
    simp only [checkOf, checkMtNoninclProof, hseal, hsort, hn, hdesc, hlda, h.srcAddr rfl, h.srcLen rfl, h.dstAddr rfl,
      h.dstLen rfl, hread, hleaves, hrange]
  | mtVerifyNonincl =>
    simp only [checkOf, checkMtVerifyNonincl, stateInDigest, h.arg1 rfl, h.srcAddr rfl, h.srcLen rfl, h.auxAddr rfl,
      h.auxLen rfl, h.stateIn rfl, hread]

theorem ReadsAgree.hostBreach_eq {i : Instr} {s t : State} (h : ReadsAgree i s t) (c : Check) :
    hostBreach t c = hostBreach s c := by
  rw [hostBreach, hostBreach, h.host.1, h.host.2]

theorem ReadsAgree.staleTree_eq {i : Instr} {s t : State} (h : ReadsAgree i s t) : staleTree i t = staleTree i s := by
  by_cases hi : i = .mtInclProof ∨ i = .mtNoninclProof
  · obtain ⟨htree, htouch⟩ := h.tree hi
    obtain ⟨-, hseal, -⟩ := (treeRegs_eq_iff s t).mp htree
    rw [staleTree, staleTree, hseal, htouch]
  · simp only [staleTree, decide_eq_false hi, Bool.false_and]

/-- A storing command reads all that decides where, and how much, a drawn success stores (R62, R64). -/
theorem ReadsAgree.drawnEffect_eq {i : Instr} {s t : State} (h : ReadsAgree i s t) (hi : i ∈ storingCommands)
    (d : Nat) : drawnEffect i t d = drawnEffect i s d := by
  have hdst : readsPair i .dstAddr = true ∧ readsPair i .dstLen = true := by
    revert hi
    cases i <;> decide
  have hbytes : dstBytes i t d = dstBytes i s d := by
    cases i with
    | sm3Pad | leExtend | mtBuild => simp only [dstBytes, storesKnownLength, ruleBytes, h.arg0 rfl]
    | mtInclProof =>
      obtain ⟨-, -, -, hn, -⟩ := (treeRegs_eq_iff s t).mp (h.tree (.inl rfl)).1
      rw [dstBytes, dstBytes, storesKnownLength, storesKnownLength, ruleBytes, ruleBytes, h.arg0 rfl, hn]
    | _ => rfl
  simp only [drawnEffect, dstRoom, hbytes, h.dstAddr hdst.1, h.dstLen hdst.2, h.params]

/-- A drawn success of a command that stores nothing writes its registers alone. -/
theorem applyEffect_drawnEffect_of_not_storing {i : Instr} (hi : i ∉ storingCommands) (s u : State) (d : Nat) :
    applyEffect u (drawnEffect i s d) = applyRegs u (drawnRegs i d) := by
  rw [applyEffect, drawnEffect, dstBytes_of_not_storing i s d hi, Nat.zero_min]
  exact congrArg (applyRegs · _) (memWrite_nil u _)

/-- A drawn outcome is completed the same way: the errors, the registers and what is stored are the same. -/
theorem ReadsAgree.complete_drawnOutcome {i : Instr} {s t : State} (h : ReadsAgree i s t) (u : State) (d : Nat) :
    complete u (drawnOutcome i t d) = complete u (drawnOutcome i s d) := by
  simp only [drawnOutcome]
  split
  · rfl
  · simp only [complete_ok]
    by_cases hi : i ∈ storingCommands
    · rw [h.drawnEffect_eq hi]
    · rw [applyEffect_drawnEffect_of_not_storing hi, applyEffect_drawnEffect_of_not_storing hi]

/-- States that agree on what a command reads complete it with one and the same outcome, which is an error or a write
phase that fits. -/
theorem ReadsAgree.exec_same_outcome {i : Instr} {s t : State} (h : ReadsAgree i s t) :
    ∃ (n : Nat) (r : Except Err Effect), (∀ w, r = .ok w → Effect.fits i s w) ∧
      exec i s = .next (complete { s with draws := n } r) ∧ exec i t = .next (complete { t with draws := n } r) := by
  refine ⟨s.draws + (resolve i s (checkOf i s)).2, (resolve i s (checkOf i s)).1, fun w => resolve_fits, ?_, ?_⟩
  · rw [exec_eq, finish]
  · rw [exec_eq, finish, h.checkOf_eq, h.draws]
    simp only [resolve, h.hostBreach_eq, h.staleTree_eq, h.draws]
    split
    · rw [h.complete_drawnOutcome]
    · rfl

theorem applyRegs_comm {f : State → State} (ws : List RegWrite) : ∀ s : State,
    (∀ w ∈ ws, ∀ u, RegWrite.apply (f u) w = f (RegWrite.apply u w)) → applyRegs (f s) ws = f (applyRegs s ws) := by
  induction ws with
  | nil => exact fun _ _ => rfl
  | cons w ws ih =>
    intro s h
    rw [applyRegs_cons, applyRegs_cons, h w List.mem_cons_self, ih _ fun w' hw' => h w' (List.mem_cons_of_mem w hw')]

/-- Replacing registers that a command neither reads nor writes changes nothing but those registers: `f` replaces them,
`hread` says the command does not read them, and the other hypotheses that no part of its completion writes them. -/
theorem exec_comm {i : Instr} {f : State → State} {s : State} (hread : ReadsAgree i s (f s))
    (hreg : ∀ (w : RegWrite) (u : State), w.kind ∈ kinds (resultRegs i) → w.apply (f u) = f (w.apply u))
    (hmem : ∀ (w : Effect) (u : State), Effect.fits i s w →
      memWrite (f u) w.addr w.bytes = f (memWrite u w.addr w.bytes) := by intros; rfl)
    (herr : ∀ u e, errored (f u) e = f (errored u e) := by intros; rfl)
    (hsucc : ∀ u, succeeded (f u) = f (succeeded u) := by intros; rfl)
    (hdraws : ∀ u n, { f u with draws := n } = f { u with draws := n } := by intros; rfl) :
    exec i (f s) = mapNext f (exec i s) := by
  obtain ⟨n, r, hfits, hs, ht⟩ := hread.exec_same_outcome
  rw [hs, ht, hdraws, mapNext]
  congr 1
  cases r with
  | error e => exact herr _ e
  | ok w =>
    have hw := hfits w rfl
    rw [complete_ok, complete_ok, ← hsucc, applyEffect, applyEffect, hmem w _ hw]
    congr 1
    exact applyRegs_comm w.regs _ fun x hx u => hreg x u (hw.regs ▸ List.mem_map_of_mem hx)

/-- `withUnread` replaces no register the command reads (R74). -/
theorem readsAgree_withUnread (i : Instr) (u s : State) : ReadsAgree i s (withUnread i u s) where
  srcAddr h := if_pos h
  srcLen h := if_pos h
  auxAddr h := if_pos h
  auxLen h := if_pos h
  dstAddr h := if_pos h
  dstLen h := if_pos h
  arg0 h := if_pos h
  arg1 h := if_pos h
  bitcntIn h := if_pos h
  stateIn h := if_pos h
  blk h := if_pos h

/-- Settles O32: a command completes from what it reads, and no part of a completion writes an argument register. -/
theorem unreadRegisters_DoNotMatter : Obligations.UnreadRegisters_DoNotMatter := fun i u s =>
  exec_comm (readsAgree_withUnread i u s) fun w _ _ => by cases w <;> rfl

/-- A command outside the streaming unit writes no register of the context (R74). -/
theorem contextKinds_notMem_resultRegs {i : Instr} (hi : i ∉ contextCommands) :
    ∀ k ∈ kinds (resultRegs i), k ∉ [0, 1, 2, 3, 4] := by
  revert hi
  cases i <;> decide

/-- A command that stores nothing writes no tree register (R74). -/
theorem treeKinds_notMem_resultRegs {i : Instr} (hi : i ∉ storingCommands) :
    ∀ k ∈ kinds (resultRegs i), k ∉ [6, 9, 10, 11, 12] := by
  revert hi
  cases i <;> decide

theorem RegWrite.apply_withContext (w : RegWrite) (u s : State) (h : w.kind ∉ [0, 1, 2, 3, 4]) :
    w.apply (withContext u s) = withContext u (w.apply s) := by
  cases w with
  | v | bitcnt | buf | bufFill | ctxState => exact absurd (by simp [RegWrite.kind]) h
  | _ => rfl

theorem RegWrite.apply_withTree (w : RegWrite) (u s : State) (h : w.kind ∉ [6, 9, 10, 11, 12]) :
    w.apply (withTree u s) = withTree u (w.apply s) := by
  cases w with
  | root | treeStatus | treeN | treeDesc | treeLda => exact absurd (by simp [RegWrite.kind]) h
  | _ => rfl

/-- The write phase of a command that stores nothing has no byte. -/
theorem Effect.fits.bytes_eq_nil {i : Instr} {s : State} {w : Effect} (h : Effect.fits i s w)
    (hi : i ∉ storingCommands) : w.bytes = [] := by
  have hbound := h.bound
  rwa [storeBound_of_not_storing i s hi, Nat.le_zero, List.length_eq_zero_iff] at hbound

/-- Settles O33: a command of neither unit reads and writes none of the unit's registers. -/
theorem oneShotCommands_IgnoreContextAndTree : Obligations.OneShotCommands_IgnoreContextAndTree := by
  refine ⟨fun i u s hi => ?context, fun i u s hi => ?tree⟩
  case context =>
    exact exec_comm { context := fun h => absurd h hi } fun w v hw =>
      w.apply_withContext u v (contextKinds_notMem_resultRegs hi _ hw)
  case tree =>
    have hread : ReadsAgree i s (withTree u s) :=
      { tree := by rintro (rfl | rfl) <;> exact absurd (by decide) hi }
    refine exec_comm hread (fun w v hw => w.apply_withTree u v (treeKinds_notMem_resultRegs hi _ hw)) fun w v hw => ?_
    rw [hw.bytes_eq_nil hi, memWrite_nil, memWrite_nil]

/-! ### RUN (R82, R83) -/

/-- `s` with another record of the host's last register read, and other turns to come. -/
def withHostRecord (r : Option Word) (is : List Input) (s : State) : State := { s with rdata := r, inputs := is }

/-- No command reads or writes what the host last read and the turns to come. -/
theorem exec_withHostRecord (i : Instr) (r : Option Word) (is : List Input) (s : State) :
    exec i (withHostRecord r is s) = mapNext (withHostRecord r is) (exec i s) :=
  exec_comm {} fun w _ _ => by cases w <;> rfl

theorem complete_busy (s : State) (r : Except Err Effect) : (complete s r).busy = false := by
  cases r <;> rfl

/-- Every command completes, and leaves the engine idle (R141). -/
theorem exec_eq_next (i : Instr) (s : State) : ∃ u, exec i s = .next u ∧ u.busy = false :=
  ⟨_, exec_eq i s, complete_busy _ _⟩

theorem exec_inputs {i : Instr} {s t : State} (h : exec i s = .next t) : t.inputs = s.inputs := by
  obtain ⟨-, -, -, -, -, -, hinputs⟩ := argumentRegisters_NeverWritten i s t h
  exact hinputs

/-- The first step of RUN on an idle engine is the accept (R82, R140). -/
theorem step_run_of_idle {s : State} (i : Instr) (hidle : s.busy = false) (hinputs : s.inputs = []) :
    step (loadProgram s [.run i]) = .next (withHostRecord s.rdata [.wait] (accept (encode i) s)) := by
  rw [loadProgram, hinputs]
  exact congrArg Host.Outcome.next (hostWrite_cmd_of_idle (s := { s with inputs := [.wait] }) hidle (encode i))

/-- A poll of a busy engine: the engine's turn comes before the next poll (R83, log 17). -/
theorem step_wait_of_busy {s : State} (r : Option Word) (rest : List Input) (h : s.busy = true) :
    step (withHostRecord r (.wait :: rest) s)
      = .next (withHostRecord (some (statusWord s)) (.engine :: .wait :: rest) s) :=
  congrArg Host.Outcome.next (if_pos h)

/-- A poll of an idle engine ends the loop (R83). -/
theorem step_wait_of_idle {s : State} (r : Option Word) (rest : List Input) (h : s.busy = false) :
    step (withHostRecord r (.wait :: rest) s) = .next (withHostRecord (some (statusWord s)) rest s) :=
  congrArg Host.Outcome.next (if_neg (ne_true_of_eq_false h))

/-- The engine's turn between two polls completes the command as if the host had read nothing (R83, R141). -/
theorem step_engine_withHostRecord {s u : State} {i : Instr} (r : Option Word) (rest : List Input)
    (hw : s.inflight = some (encode i)) (hu : exec i s = .next u) :
    step (withHostRecord r (.engine :: rest) s) = .next (withHostRecord r rest u) := by
  have hdecode : engineTurn (withHostRecord r rest s) = exec i (withHostRecord r rest s) :=
    engineTurn_of_decode hw (decode_encode i)
  rw [exec_withHostRecord, hu] at hdecode
  exact hdecode

/-- A run takes its first step first. -/
theorem run_succ_of_step {M : Host.Core} {s t : M.State} (h : M.step s = .next t) (k : Nat) :
    M.run (k + 1) s = M.run k t := by
  rw [Host.Core.run, h]

/-- Settles O6: the accept, a poll, the completion, a poll. -/
theorem runCommand_AcceptsAndCompletes : Obligations.RunCommand_AcceptsAndCompletes := by
  intro s i hidle hinputs
  obtain ⟨u, hu, hubusy⟩ := exec_eq_next i (accept (encode i) s)
  have hrest : u.inputs = [] := (exec_inputs hu).trans hinputs
  refine ⟨{ u with rdata := some (statusWord u) }, u, ?_, hu, rfl, hubusy⟩
  calc core.run 4 (loadProgram s [.run i])
    _ = core.run 3 (withHostRecord s.rdata [.wait] (accept (encode i) s)) :=
      run_succ_of_step (step_run_of_idle i hidle hinputs) 3
    _ = core.run 2 (withHostRecord (some (statusWord (accept (encode i) s))) [.engine, .wait] (accept (encode i) s)) :=
      run_succ_of_step (step_wait_of_busy _ _ rfl) 2
    _ = core.run 1 (withHostRecord (some (statusWord (accept (encode i) s))) [.wait] u) :=
      run_succ_of_step (step_engine_withHostRecord _ _ rfl hu) 1
    _ = .next (withHostRecord (some (statusWord u)) [] u) := run_succ_of_step (step_wait_of_idle _ _ hubusy) 0
    _ = .next { u with rdata := some (statusWord u) } := by rw [withHostRecord, ← hrest]

end Sys2Proof.Machine
end

section
/-! The proofs of the statements of spec/40_sm3_functions.md: streaming. A context that has absorbed a message keeps the
whole blocks of it chained into V and the rest waiting in BUF, and SM3_UPDATE absorbs its operand behind them. -/

namespace Sys2Proof.Machine

/-! ### The commands of a context, where nothing makes their outcome a draw -/

/-- SM3_INIT opens a context on the IV (R102). -/
theorem exec_sm3Init (s : State) :
    exec .sm3Init s = .next
      { succeeded s with v := iv, bitcnt := 0, buf := Vector.replicate 64 0, bufFill := 0, ctxState := .active } := by
  rw [exec_undisturbed _ _ (undisturbed_of_no_memory .sm3Init s (by decide)), ← complete_open]
  rfl

/-- SM3_UPDATE is undisturbed while the host writes nothing: it stores nothing itself (R62, R104). -/
theorem undisturbed_sm3Update {s : State} (h : s.hostWrites = []) : undisturbed .sm3Update s :=
  have hwrite := congrArg (Range.mk _) (writeRange_of_not_storing .sm3Update s (by decide))
  ⟨hostBreach_of_writeRange s _ _ hwrite (.inr h), selfOverlap_of_not_storing .sm3Update s (by decide), rfl⟩

/-- SM3_UPDATE of a valid range into an active context with room for it (R104). -/
theorem exec_sm3Update_of_valid {s : State} (hu : undisturbed .sm3Update s) (hact : s.ctxState = .active)
    (hlen : s.bitcnt.toNat + 8 * s.srcLen.toNat ≤ maxBits) (hr : validRange s s.srcAddr s.srcLen.toNat) :
    exec .sm3Update s = .next (complete s (.ok (.ofRegs (absorb s (srcBytes s))))) := by
  rw [exec_undisturbed _ _ hu, checkOf, checkSm3Update, Check.raiseIf_neg (not_not.mpr hact),
    Check.raiseIf_neg (Nat.not_lt.mpr hlen), Check.memRead_res_ok _ _ _ _ ((rangeOk_iff _ _ _).mpr hr)]
  rfl

/-- SM3_FINAL of an active context (R106). -/
theorem exec_sm3Final_of_active {s : State} (hact : s.ctxState = .active) :
    exec .sm3Final s = .next
      { succeeded s with
        v := finalState s, digest := finalState s, buf := Vector.replicate 64 0, bufFill := 0,
        ctxState := .finalized } := by
  rw [exec_undisturbed _ _ (undisturbed_of_no_memory .sm3Final s (by decide)), checkOf, checkSm3Final,
    Check.raiseIf_neg (not_not.mpr hact), Check.done_res, complete_final]

/-! ### A context that has absorbed a message -/

/-- The active context of `s` has absorbed the bytes `m` since it was opened on chaining value `v₀` at `bits₀` bits: the
blocks `done` of them are chained into V, and the rest waits in BUF. -/
structure Absorbed (v₀ : Words8) (bits₀ : Nat) (m : Bytes) (s : State) : Prop where
  active : s.ctxState = .active
  bits : s.bitcnt.toNat = bits₀ + 8 * m.length
  blocks : ∃ done : Bytes, m = done ++ buffered s ∧ done.length % 64 = 0 ∧ s.v = chain v₀ done

/-- A context opened on a whole number of blocks has BITCNT mod 512 = 8 × BUF_FILL, whatever it absorbed (R35 (a)). -/
theorem Absorbed.aligned {v₀ : Words8} {bits₀ : Nat} {m : Bytes} {s : State} (h : Absorbed v₀ bits₀ m s)
    (h₀ : bits₀ % 512 = 0) : contextAligned s := by
  obtain ⟨done, rfl, hblocks, -⟩ := h.blocks
  have hbits := h.bits
  have hfill := s.bufFill.isLt
  rw [List.length_append, length_buffered] at hbits
  rw [contextAligned]
  omega

/-- The bytes that SM3_UPDATE stores in BUF are those that wait there afterwards (R104). -/
theorem buffered_bufStore (s : State) (x : Words8) (y : U64) (rest : Bytes) (h : rest.length < 64) :
    buffered { succeeded s with
      v := x, bitcnt := y, buf := bufStore s.buf rest, bufFill := BitVec.ofNat 6 rest.length } = rest := by
  rw [buffered, bufStore_toList _ _ (Nat.le_of_lt h), BitVec.toNat_ofNat, Nat.mod_eq_of_lt h, List.take_left]

/-- Absorbing `data` after `m` is having absorbed `m ++ data` (R104). -/
theorem Absorbed.append {v₀ : Words8} {bits₀ : Nat} {m data : Bytes} {s : State} (h : Absorbed v₀ bits₀ m s)
    (hlen : bits₀ + 8 * (m ++ data).length ≤ maxBits) :
    Absorbed v₀ bits₀ (m ++ data) (complete s (.ok (.ofRegs (absorb s data)))) := by
  obtain ⟨done, hm, hblocks, hv⟩ := h.blocks
  rw [absorb, complete_update]
  generalize hx : buffered s ++ data = x
  have hrest : (x.drop (64 * (x.length / 64))).length < 64 := by
    rw [List.length_drop]
    omega
  refine ⟨h.active, ?_, done ++ x.take (64 * (x.length / 64)), ?_, ?_, ?_⟩
  · have hbits := h.bits
    rw [List.length_append, maxBits] at hlen
    rw [BitVec.toNat_ofNat, List.length_append]
    omega
  · rw [buffered_bufStore _ _ _ _ hrest, List.append_assoc, List.take_append_drop, ← hx, ← List.append_assoc, ← hm]
  · rw [List.length_append, List.length_take]
    omega
  · rw [chain_append _ _ _ hblocks, ← hv]

/-- The final chaining state of a context: the message and its padding chained onto where it was opened (R106). -/
theorem Absorbed.finalState_eq {v₀ : Words8} {bits₀ : Nat} {m : Bytes} {s : State} (h : Absorbed v₀ bits₀ m s)
    (h₀ : bits₀ % 512 = 0) : finalState s = chain v₀ (m ++ pad (bits₀ + 8 * m.length)) := by
  rw [finalState, if_pos (h.aligned h₀), h.bits]
  obtain ⟨done, hm, hblocks, hv⟩ := h.blocks
  rw [hv, ← chain_append _ _ _ hblocks, ← List.append_assoc, ← hm]

/-! ### Streaming (R100) -/

/-- What the commands of a stream keep of the state `s₀` it began in; and no host write is left to disturb the next. -/
structure StreamKeeps (s₀ s : State) : Prop where
  mem : s.mem = s₀.mem
  params : s.params = s₀.params
  errFlag : s.errFlag = s₀.errFlag
  hostWrites : s.hostWrites = []

/-- SM3_UPDATE of one part absorbs its bytes. -/
theorem exec_sm3Update_absorbs {v₀ : Words8} {bits₀ : Nat} {m : Bytes} {s₀ s : State} {a n : U64}
    (hs : Absorbed v₀ bits₀ m s) (hk : StreamKeeps s₀ s) (hr : validRange s₀ a n.toNat)
    (hlen : bits₀ + 8 * (m ++ Memory.read s₀.mem a.toNat n.toNat).length ≤ maxBits) :
    ∃ t, exec .sm3Update { s with srcAddr := a, srcLen := n } = .next t ∧
      Absorbed v₀ bits₀ (m ++ Memory.read s₀.mem a.toNat n.toNat) t ∧ StreamKeeps s₀ t := by
  have habs : Absorbed v₀ bits₀ m { s with srcAddr := a, srcLen := n } := ⟨hs.active, hs.bits, hs.blocks⟩
  have hroom : s.bitcnt.toNat + 8 * n.toNat ≤ maxBits := by
    rw [List.length_append, Memory.length_read] at hlen
    rw [hs.bits]
    omega
  have hrange : validRange s a n.toNat := by rwa [validRange, hk.params]
  refine ⟨_, exec_sm3Update_of_valid (undisturbed_sm3Update hk.hostWrites) hs.active hroom hrange, ?_, ?_⟩
  · rw [← hk.mem] at hlen ⊢
    exact habs.append hlen
  · rw [absorb, complete_update]
    exact ⟨hk.mem, hk.params, hk.errFlag, rfl⟩

theorem partsBytes_cons (s : State) (a n : U64) (ps : List (U64 × U64)) :
    partsBytes s ((a, n) :: ps) = Memory.read s.mem a.toNat n.toNat ++ partsBytes s ps := rfl

/-- SM3_UPDATE of each part absorbs the parts in order. -/
theorem updateParts_absorbs {v₀ : Words8} {bits₀ : Nat} {s₀ : State} (ps : List (U64 × U64)) :
    ∀ (m : Bytes) (s : State), Absorbed v₀ bits₀ m s → StreamKeeps s₀ s →
      (∀ p ∈ ps, validRange s₀ p.1 p.2.toNat) → bits₀ + 8 * (m ++ partsBytes s₀ ps).length ≤ maxBits →
        ∃ t, updateParts ps s = .next t ∧ Absorbed v₀ bits₀ (m ++ partsBytes s₀ ps) t ∧ StreamKeeps s₀ t := by
  induction ps with
  | nil =>
    intro m s hs hk _ _
    exact ⟨s, rfl, by rwa [partsBytes, List.flatMap_nil, List.append_nil], hk⟩
  | cons p ps ih =>
    intro m s hs hk hr hlen
    obtain ⟨a, n⟩ := p
    rw [partsBytes_cons, ← List.append_assoc] at hlen ⊢
    have hpart : bits₀ + 8 * (m ++ Memory.read s₀.mem a.toNat n.toNat).length ≤ maxBits := by
      rw [List.length_append] at hlen
      omega
    obtain ⟨u, hu, hus, huk⟩ := exec_sm3Update_absorbs hs hk (hr (a, n) List.mem_cons_self) hpart
    rw [updateParts, hu]
    exact ih _ u hus huk (fun q hq => hr q (List.mem_cons_of_mem _ hq)) hlen

/-- A context just opened by SM3_INIT has absorbed nothing. -/
theorem exec_sm3Init_absorbed (s : State) :
    ∃ t, exec .sm3Init s = .next t ∧ Absorbed iv 0 [] t ∧ StreamKeeps s t :=
  ⟨_, exec_sm3Init s, ⟨rfl, rfl, [], rfl, rfl, rfl⟩, rfl, rfl, rfl, rfl⟩

/-- Settles O50: SM3_INIT opens the context on the IV, each SM3_UPDATE absorbs its part behind the parts before it, and
SM3_FINAL chains what waits, and the padding of the whole. -/
theorem streaming_EqualsOneShot : Obligations.Streaming_EqualsOneShot := by
  intro ps s hr hlen
  obtain ⟨a, ha, has, hak⟩ := exec_sm3Init_absorbed s
  obtain ⟨u, hu, hus, huk⟩ := updateParts_absorbs ps [] a has hak hr (by simpa [maxBits] using hlen)
  rw [List.nil_append] at hus
  have hfinal : finalState u = deser (sm3 (partsBytes s ps)) := by
    rw [hus.finalState_eq rfl, Nat.zero_add, sm3, deser_ser]
  have hbits : u.bitcnt.toNat = 8 * (partsBytes s ps).length := hus.bits.trans (Nat.zero_add _)
  have hrun : streamHash ps s = exec .sm3Final u := by
    rw [streamHash, ha, andThen, hu, andThen]
  rw [hrun, exec_sm3Final_of_active hus.active]
  exact ⟨_, rfl, hfinal, hfinal, rfl, huk.errFlag, hbits, huk.mem⟩

end Sys2Proof.Machine
end

section
/-! The proofs of the statements of spec/41_sm3_commands.md: each command follows its check phase to the check that
raises or to its write phase. -/

namespace Sys2Proof.Machine

/-! ### Ranges that are not valid (R47) -/

/-- MemRead of a range that is not valid raises BusError (R16, R47). -/
theorem Check.memRead_of_not_validRange {s : State} {a : U64} {n : Nat} (h : ¬ validRange s a n) (k : Bytes → Check) :
    Check.memRead s a.toNat n k = .raise .busError := if_neg ((rangeOk_iff s a.toNat n).not.mpr h)

/-- The check of a range that is not valid raises (R47). -/
theorem Check.raiseIf_of_not_validRange {s : State} {a : U64} {n : Nat} (h : ¬ validRange s a n) (e : Err)
    (k : Unit → Check) : Check.raiseIf (¬ rangeOk s a.toNat n = true) e k = .raise e :=
  Check.raiseIf_pos ((rangeOk_iff s a.toNat n).not.mpr h) e k

/-! ### The commands that touch no memory (R101 to R103, R105, R106) -/

/-- Settles O12: the write phase is empty. -/
theorem nop_Outcome : Obligations.Nop_Outcome := by
  intro s
  rw [exec_undisturbed _ _ (undisturbed_of_no_memory .nop s (by decide)), ← complete_nop]
  rfl

/-- Settles O13: `exec_sm3Init`, the IV written out. -/
theorem sm3Init_Outcome : Obligations.Sm3Init_Outcome := exec_sm3Init

/-- Settles O14: the one check, then the opening of the context. -/
theorem sm3Inject_Outcome : Obligations.Sm3Inject_Outcome := by
  intro s
  have hrun := exec_undisturbed _ _ (undisturbed_of_no_memory .sm3Inject s (by decide))
  rw [checkOf, checkSm3Inject] at hrun
  refine ⟨fun hbits => ?_, fun hbits => ?_⟩
  · rw [hrun, Check.raiseIf_pos hbits, Check.raise_res, complete_error]
  · rw [hrun, Check.raiseIf_neg (not_not.mpr hbits), Check.done_res, complete_open]

/-- Settles O16: the three checks, then the compression of BLK. -/
theorem sm3Compress_Outcome : Obligations.Sm3Compress_Outcome := by
  intro s
  have hrun := exec_undisturbed _ _ (undisturbed_of_no_memory .sm3Compress s (by decide))
  rw [checkOf, checkSm3Compress, maxBits] at hrun
  refine ⟨fun hctx => ?_, fun hctx hfill => ?_, fun hctx hfill hlen => ?_, fun hctx hfill hlen => ?_⟩
  · rw [hrun, Check.raiseIf_pos hctx, Check.raise_res, complete_error]
  · rw [hrun, Check.raiseIf_neg (not_not.mpr hctx), Check.raiseIf_pos hfill, Check.raise_res, complete_error]
  · rw [hrun, Check.raiseIf_neg (not_not.mpr hctx), Check.raiseIf_neg (not_not.mpr hfill), Check.raiseIf_pos hlen,
      Check.raise_res, complete_error]
  · rw [hrun, Check.raiseIf_neg (not_not.mpr hctx), Check.raiseIf_neg (not_not.mpr hfill),
      Check.raiseIf_neg (Nat.not_lt.mpr hlen), Check.done_res, complete_compress, BitVec.ofNat_add,
      BitVec.ofNat_toNat, BitVec.setWidth_eq, blkBlock]
    rfl

/-- Settles O17: without an active context the check raises; with one, `finalState` is the chaining of R106 where R35 (a)
holds, and the free value elsewhere. -/
theorem sm3Final_Outcome : Obligations.Sm3Final_Outcome := by
  intro s
  refine ⟨fun hctx => ?_, fun hctx halign => ?_, fun hctx halign => ?_⟩
  · rw [exec_undisturbed _ _ (undisturbed_of_no_memory .sm3Final s (by decide)), checkOf, checkSm3Final,
      Check.raiseIf_pos hctx, Check.raise_res, complete_error]
  · rw [exec_sm3Final_of_active hctx, finalState, if_pos halign]
  · rw [exec_sm3Final_of_active hctx, finalState, if_neg halign]

/-! ### SM3_UPDATE (R104) -/

/-- The bytes behind the whole blocks (R104). -/
theorem length_drop_blocks (x : Bytes) : (x.drop (64 * (x.length / 64))).length = x.length % 64 := by
  rw [List.length_drop, Nat.mod_def]

/-- What SM3_UPDATE leaves when it absorbs `data`, in the terms of R104. -/
theorem complete_absorb (s : State) (data : Bytes) (n : U64) (hn : data.length = n.toNat) :
    let x := buffered s ++ data
    let q := x.length / 64
    complete s (.ok (.ofRegs (absorb s data))) =
      { succeeded s with
        v := chain s.v (x.take (64 * q))
        bitcnt := s.bitcnt + 8 * n
        buf := bufStore s.buf (x.drop (64 * q))
        bufFill := BitVec.ofNat 6 (x.length % 64) } := by
  have hbits : BitVec.ofNat 64 (s.bitcnt.toNat + 8 * data.length) = s.bitcnt + 8 * n := by
    rw [hn, BitVec.ofNat_add, BitVec.ofNat_mul, BitVec.ofNat_toNat, BitVec.ofNat_toNat, BitVec.setWidth_eq,
      BitVec.setWidth_eq]
    rfl
  rw [absorb, complete_update, hbits, length_drop_blocks]

/-- Settles O15: the three checks in order, then the absorption of the source bytes. -/
theorem sm3Update_Outcome : Obligations.Sm3Update_Outcome := by
  intro s hu
  have hrun := exec_undisturbed _ _ hu
  rw [checkOf, checkSm3Update, maxBits] at hrun
  refine ⟨fun hctx => ?_, fun hctx hlen => ?_, fun hctx hlen hr => ?_, fun hctx hlen hr => ?_⟩
  · rw [hrun, Check.raiseIf_pos hctx, Check.raise_res, complete_error]
  · rw [hrun, Check.raiseIf_neg (not_not.mpr hctx), Check.raiseIf_pos hlen, Check.raise_res, complete_error]
  · rw [hrun, Check.raiseIf_neg (not_not.mpr hctx), Check.raiseIf_neg (Nat.not_lt.mpr hlen),
      Check.memRead_of_not_validRange hr, Check.raise_res, complete_error]
  · intro x q t
    have hrest : (x.drop (64 * q)).length = x.length % 64 := length_drop_blocks x
    have hwait := buffered_bufStore s t.v t.bitcnt (x.drop (64 * q)) (by omega)
    rw [hrest] at hwait
    refine ⟨?_, hwait⟩
    rw [exec_sm3Update_of_valid hu hctx hlen hr, complete_absorb s (srcBytes s) s.srcLen (Memory.length_read _ _ _)]

/-- A context with no byte waiting absorbs a block by compressing it, and BUF keeps its bytes (R104). -/
theorem complete_absorb_block {s : State} {b : Bytes} (hfill : s.bufFill = 0) (hb : b.length = 64) :
    complete s (.ok (.ofRegs (absorb s b))) = { succeeded s with v := cf s.v b, bitcnt := s.bitcnt + 512 } := by
  have hx : buffered s ++ b = b := by
    rw [buffered, hfill]
    rfl
  have habsorb := complete_absorb s b 64 hb
  simp only [hx, hb, Nat.reduceDiv, Nat.reduceMul, Nat.reduceMod, List.take_of_length_le (Nat.le_of_eq hb),
    List.drop_of_length_le (Nat.le_of_eq hb), bufStore_nil, chain_block _ _ hb] at habsorb
  rw [habsorb, show s.bitcnt + 8 * 64 = s.bitcnt + 512 from rfl, show 0#6 = s.bufFill from hfill.symm]
  rfl

/-- Settles O51: both commands make the same checks, and SM3_UPDATE absorbs its operand as one block. -/
theorem compress_EqualsUpdateOfBlock : Obligations.Compress_EqualsUpdateOfBlock := by
  intro s hu hfill hsrc hr hblock
  obtain ⟨hcIdle, -, hcLong, hcOk⟩ := sm3Compress_Outcome s
  obtain ⟨huIdle, huLong, -, -⟩ := sm3Update_Outcome s hu
  have hn : s.srcLen.toNat = 64 := congrArg BitVec.toNat hsrc
  by_cases hctx : s.ctxState = .active
  · rcases Nat.lt_or_ge (2 ^ 64 - 1) (s.bitcnt.toNat + 512) with hlong | hroom
    · rw [hcLong hctx hfill hlong, huLong hctx (by rw [hn]; exact hlong)]
    · have hlen : (srcBytes s).length = 64 := (Memory.length_read _ _ _).trans hn
      rw [hcOk hctx hfill hroom, exec_sm3Update_of_valid hu hctx (by rw [hn]; exact hroom) (by rwa [hn]),
        complete_absorb_block hfill hlen, hblock]
  · rw [hcIdle hctx, huIdle hctx]

/-! ### SM3_HASH and SM3_PAD (R107, R108) -/

/-- Settles O18: the two checks in order, then the hash of the source bytes. -/
theorem sm3Hash_Outcome : Obligations.Sm3Hash_Outcome := by
  intro s hu
  have hrun := exec_undisturbed _ _ hu
  rw [checkOf, checkSm3Hash, maxBits] at hrun
  refine ⟨fun hlen => ?_, fun hlen hr => ?_, fun hlen hr => ?_⟩
  · rw [hrun, Check.raiseIf_pos hlen, Check.raise_res, complete_error]
  · rw [hrun, Check.raiseIf_neg (Nat.not_lt.mpr hlen), Check.memRead_of_not_validRange hr, Check.raise_res,
      complete_error]
  · rw [hrun, Check.raiseIf_neg (Nat.not_lt.mpr hlen), Check.memRead_res_ok _ _ _ _ ((rangeOk_iff _ _ _).mpr hr),
      Check.done_res, complete_digest, srcBytes]

/-- Settles O19: the four checks in order, then the store of the padding. -/
theorem sm3Pad_Outcome : Obligations.Sm3Pad_Outcome := by
  intro s hu l p
  have hrun := exec_undisturbed _ _ hu
  rw [checkOf, checkSm3Pad, maxBits] at hrun
  refine ⟨fun hl => ?_, fun hl hlen => ?_, fun hl hlen hdst => ?_, fun hl hlen hdst hr => ?_,
    fun hl hlen hdst hr => ?_⟩
  · rw [hrun, Check.raiseIf_pos hl, Check.raise_res, complete_error]
  · rw [hrun, Check.raiseIf_neg (not_not.mpr hl), Check.raiseIf_pos hlen, Check.raise_res, complete_error]
  · rw [hrun, Check.raiseIf_neg (not_not.mpr hl), Check.raiseIf_neg (Nat.not_lt.mpr hlen), Check.raiseIf_pos hdst,
      Check.raise_res, complete_error]
  · rw [hrun, Check.raiseIf_neg (not_not.mpr hl), Check.raiseIf_neg (Nat.not_lt.mpr hlen),
      Check.raiseIf_neg (Nat.not_lt.mpr hdst), Check.raiseIf_of_not_validRange hr, Check.raise_res, complete_error]
  · rw [hrun, Check.raiseIf_neg (not_not.mpr hl), Check.raiseIf_neg (Nat.not_lt.mpr hlen),
      Check.raiseIf_neg (Nat.not_lt.mpr hdst), Check.raiseIf_of_validRange hr, Check.done_res, complete_results]

end Sys2Proof.Machine
end

section
/-! The proofs of the statements of spec/42_length_extension.md: LE_EXTEND follows its check phase, a message with its
padding is a whole number of blocks that the suffix is chained onto, and a context injected there absorbs the suffix. -/

namespace Sys2Proof.Machine

/-! ### LE_EXTEND (R111) -/

/-- LE_EXTEND when every check of R111 passes: the suffix and the padding of the forged length are chained onto
STATE_IN. -/
theorem exec_leExtend_of_valid {s : State} (hu : undisturbed .leExtend s) (hbytes : s.arg0.toNat % 8 = 0)
    (hbits : paddedBits s.arg0.toNat + 8 * s.srcLen.toNat ≤ maxBits) (hroom : padLen s.arg0.toNat ≤ s.dstLen.toNat)
    (hsrc : validRange s s.srcAddr s.srcLen.toNat) (hdst : validRange s s.dstAddr (padLen s.arg0.toNat)) :
    exec .leExtend s = .next
      { succeeded (memWrite s s.dstAddr.toNat (pad s.arg0.toNat)) with
        digest := forgedState s.stateIn s.arg0.toNat (srcBytes s)
        result0 := BitVec.ofNat 64 (padLen s.arg0.toNat)
        result1 := BitVec.ofNat 64 (paddedBits s.arg0.toNat + 8 * s.srcLen.toNat) } := by
  rw [exec_undisturbed _ _ hu, checkOf_leExtend_of_valid hbytes hbits hroom hsrc hdst, complete_extend]

theorem length_srcBytes (s : State) : (srcBytes s).length = s.srcLen.toNat := Memory.length_read _ _ _

/-- Settles O20: the checks in order, where a padded length that does not fit makes the forged length too long as well,
then the chaining of the suffix and the store of the glue. -/
theorem leExtend_Outcome : Obligations.LeExtend_Outcome := by
  intro s hu l p t
  have hrun := exec_undisturbed _ _ hu
  rw [checkOf, checkLeExtend] at hrun
  refine ⟨fun hl => ?unaligned, fun hl hlen => ?long, fun hl hlen hroom => ?small, fun hl hlen hroom hr => ?range,
    fun hl hlen hroom hsrc hdst => ?valid⟩
  case unaligned => rw [hrun, Check.raiseIf_pos hl, Check.raise_res, complete_error]
  all_goals rw [Check.raiseIf_neg (not_not.mpr hl)] at hrun
  case long =>
    have hforged : paddedBits l + 8 * s.srcLen.toNat > maxBits := hlen
    by_cases hpadded : paddedBits l > maxBits
    · rw [hrun, Check.raiseIf_pos hpadded, Check.raise_res, complete_error]
    · rw [hrun, Check.raiseIf_neg hpadded, Check.raiseIf_pos hforged, Check.raise_res, complete_error]
  all_goals
    have hforged : ¬ paddedBits l + 8 * s.srcLen.toNat > maxBits := Nat.not_lt.mpr hlen
    have hpadded : ¬ paddedBits l > maxBits := by omega
    rw [Check.raiseIf_neg hpadded, Check.raiseIf_neg hforged] at hrun
  case small => rw [hrun, Check.raiseIf_pos hroom, Check.raise_res, complete_error]
  case range =>
    rw [hrun, Check.raiseIf_neg (Nat.not_lt.mpr hroom)]
    by_cases hsrc : validRange s s.srcAddr s.srcLen.toNat
    · rw [Check.memRead_res_ok _ _ _ _ ((rangeOk_iff _ _ _).mpr hsrc),
        Check.raiseIf_of_not_validRange fun hdst => hr ⟨hsrc, hdst⟩, Check.raise_res, complete_error]
    · rw [Check.memRead_of_not_validRange hsrc, Check.raise_res, complete_error]
  case valid =>
    rw [exec_leExtend_of_valid hu hl hlen hroom hsrc hdst, forgedState, length_srcBytes]
    rfl

/-! ### The forged message (R113) -/

/-- The digest of a message, its padding and a suffix is the extension of the message's digest: the message with its
padding is a whole number of blocks. -/
theorem sm3_append_pad (m suffix : Bytes) :
    sm3 (m ++ pad (8 * m.length) ++ suffix) = ser (forgedState (deser (sm3 m)) (8 * m.length) suffix) := by
  have hblocks : (m ++ pad (8 * m.length)).length % 64 = 0 := by
    rw [List.length_append, length_pad, add_padLen_mod]
  have hbits : 8 * (m ++ pad (8 * m.length) ++ suffix).length = paddedBits (8 * m.length) + 8 * suffix.length := by
    rw [List.length_append, List.length_append, length_pad, paddedBits, Nat.mul_add, Nat.mul_add]
  rw [sm3, hbits, List.append_assoc, chain_append _ _ _ hblocks, forgedState, sm3, deser_ser]

/-- Settles O52: LE_EXTEND leaves the extension of the digest of `m`, and the glue it stores reads back. -/
theorem lengthExtension_IsCorrect : Obligations.LengthExtension_IsCorrect := by
  intro s m hu hknown harg hbits hroom hsrc hdst hwf
  have hrun := exec_leExtend_of_valid hu (harg ▸ Nat.mul_mod_right 8 _) (by rwa [harg]) (by rwa [harg]) hsrc
    (by rwa [harg])
  rw [harg, hknown] at hrun
  refine ⟨_, hrun, rfl, (sm3_append_pad m (srcBytes s)).symm, ?_, ?_⟩
  · rw [← length_pad]
    exact Memory.read_write_same _ _ _ hwf
  · have hlen : (m ++ pad (8 * m.length) ++ srcBytes s).length
        = m.length + padLen (8 * m.length) + s.srcLen.toNat := by
      rw [List.length_append, List.length_append, length_pad, length_srcBytes]
    rw [hlen, BitVec.toNat_ofNat, paddedBits, Nat.mod_eq_of_lt (by omega)]
    omega

/-! ### State injection (R112) -/

/-- The padded length is a whole number of blocks (R111). -/
theorem paddedBits_mod {l : Nat} (h : l % 8 = 0) : paddedBits l % 512 = 0 := by
  obtain ⟨n, rfl⟩ := Nat.dvd_of_mod_eq_zero h
  have hblocks := add_padLen_mod n
  rw [paddedBits]
  omega

/-- A context just opened by SM3_INJECT has absorbed nothing since the injected state. -/
theorem exec_sm3Inject_absorbed {s : State} (h : s.bitcntIn.toNat % 512 = 0) :
    ∃ t, exec .sm3Inject s = .next t ∧ Absorbed s.stateIn s.bitcntIn.toNat [] t ∧ StreamKeeps s t ∧
      t.srcAddr = s.srcAddr ∧ t.srcLen = s.srcLen :=
  ⟨_, (sm3Inject_Outcome s).2 h, ⟨rfl, rfl, [], rfl, rfl, rfl⟩, ⟨rfl, rfl, rfl, rfl⟩, rfl, rfl⟩

/-- SM3_INJECT, SM3_UPDATE of the source operand and SM3_FINAL chain the source bytes and the padding onto STATE_IN. -/
theorem exec_inject_update_final {s : State} (hblocks : s.bitcntIn.toNat % 512 = 0)
    (hlen : s.bitcntIn.toNat + 8 * s.srcLen.toNat ≤ maxBits) (hsrc : validRange s s.srcAddr s.srcLen.toNat) :
    ∃ u, andThen (exec .sm3Inject s) (fun a => andThen (exec .sm3Update a) (exec .sm3Final)) = .next u ∧
      u.digest = chain s.stateIn (srcBytes s ++ pad (s.bitcntIn.toNat + 8 * s.srcLen.toNat)) ∧
      u.errFlag = s.errFlag := by
  obtain ⟨a, ha, has, hak, haddr, hn⟩ := exec_sm3Inject_absorbed hblocks
  obtain ⟨b, hb, hbs, hbk⟩ := exec_sm3Update_absorbs has hak hsrc (by rwa [List.nil_append, Memory.length_read])
  rw [← haddr, ← hn] at hb
  rw [ha, andThen, hb, andThen, exec_sm3Final_of_active hbs.active]
  refine ⟨_, rfl, ?_, hbk.errFlag⟩
  have hfinal := hbs.finalState_eq hblocks
  rwa [List.nil_append, Memory.length_read] at hfinal

/-- Settles O53: the injected context chains the suffix and the padding of the forged length onto STATE_IN, as LE_EXTEND
does. -/
theorem lengthExtension_EqualsInjection : Obligations.LengthExtension_EqualsInjection := by
  intro s hu hbytes padded hlen hroom hsrc hdst
  have hpadded : (BitVec.ofNat 64 padded).toNat = padded := by
    rw [BitVec.toNat_ofNat]
    omega
  obtain ⟨u, hrun, hdigest, herr⟩ := exec_inject_update_final
    (s := { s with bitcntIn := BitVec.ofNat 64 padded }) (by rw [hpadded]; exact paddedBits_mod hbytes)
    (by rw [hpadded]; exact hlen) hsrc
  refine ⟨_, u, exec_leExtend_of_valid hu hbytes hlen hroom hsrc hdst, hrun, ?_, rfl, herr⟩
  rw [hdigest, hpadded, forgedState, length_srcBytes]
  rfl

end Sys2Proof.Machine
end

section
/-! The proofs of the statements of spec/43_merkle_functions.md about the inclusion path: its flags, its length, and
that it folds to the root. Each proof goes down the tree by `tree_induction`, as PATH and EXPFLAGS do. -/

namespace Sys2Proof.Machine

/-! ### The flags of a path (R125) -/

theorem map_snd_path_eq_expFlags (m n : Nat) (hs : List Digest) (h : hs.length = n) :
    (path m hs).map Prod.snd = expFlags m n := by
  induction m, n using tree_induction generalizing hs with
  | one m n hn => rw [path_of_le_one _ _ (by omega), expFlags_of_le_one _ _ hn, List.map_nil]
  | low m n hn hm ih =>
    have hk := splitPoint_lt n hn
    have htake : (hs.take (splitPoint n)).length = splitPoint n := by simp; omega
    rw [path_split _ _ (by omega), expFlags_split _ _ hn, h, if_pos hm, if_pos hm, List.map_append, ih _ htake]
    rfl
  | high m n hn hm ih =>
    have hdrop : (hs.drop (splitPoint n)).length = n - splitPoint n := by simp [h]
    rw [path_split _ _ (by omega), expFlags_split _ _ hn, h, if_neg (by omega), if_neg (by omega), List.map_append,
      ih _ hdrop]
    rfl

/-! ### The depth (R126) -/

/-- A split adds one to the depth of the half it goes into. -/
theorem depth_split (m n : Nat) (h : 2 ≤ n) :
    depth m n = (if m < splitPoint n then depth m (splitPoint n)
      else depth (m - splitPoint n) (n - splitPoint n)) + 1 := by
  rw [depth, expFlags_split m n h]
  split <;> simp [depth]

theorem depth_le_of_le_two_pow (m n d : Nat) (h : n ≤ 2 ^ d) : depth m n ≤ d := by
  rw [depth, ← expFlagsTo_eq_expFlags d m n h]
  exact length_expFlagsTo_le d m n

/-- A tree of 2^(d + 1) leaves splits in the middle (R120). -/
theorem splitPoint_two_pow_succ (d : Nat) : splitPoint (2 ^ (d + 1)) = 2 ^ d := by
  have hpow : 2 ^ (d + 1) = 2 * 2 ^ d := Nat.pow_succ'
  have hpos := Nat.two_pow_pos d
  have hlow := le_two_mul_splitPoint (2 ^ (d + 1))
  have hhigh := splitPoint_le_pow (2 ^ (d + 1)) d (by omega) (Nat.le_refl _)
  omega

/-- Both halves of a full tree are full, so every leaf has the same depth. -/
theorem depth_two_pow (d m : Nat) : depth m (2 ^ d) = d := by
  induction d generalizing m with
  | zero => rw [depth, expFlags_of_le_one _ _ (by simp), List.length_nil]
  | succ d ih =>
    have hpow : 2 ^ (d + 1) = 2 * 2 ^ d := Nat.pow_succ'
    have hpos := Nat.two_pow_pos d
    rw [depth_split _ _ (by omega), splitPoint_two_pow_succ, show 2 ^ (d + 1) - 2 ^ d = 2 ^ d by omega, ih, ih,
      ite_self]

/-- Settles O54: flags and depth follow the recursion of EXPFLAGS, which takes no digest. -/
theorem path_FlagsAndDepth : Obligations.Path_FlagsAndDepth := by
  refine ⟨fun m hs _ => map_snd_path_eq_expFlags m _ hs rfl, fun m n hn _ => ?_, depth_le_of_le_two_pow,
    fun m d _ => depth_two_pow d m⟩
  rw [depth_split m n hn]
  exact Nat.le_add_left 1 _

/-! ### Folding (R127) -/

/-- The last entry of a path is folded last. -/
theorem foldFrom_concat (h : Digest) (es : List (Digest × Side)) (e : Digest × Side) :
    foldFrom h (es ++ [e]) = foldStep (foldFrom h es) e := foldFrom_append h es [e]

/-- The path of leaf m takes its digest to the root: the half the leaf is in folds to that half's root, and the last
entry is the root of the other half. -/
theorem foldFrom_path (m n : Nat) (hs : List Digest) (x : Digest) (h : hs.length = n) (hx : hs[m]? = some x) :
    foldFrom x (path m hs) = mth hs := by
  induction m, n using tree_induction generalizing hs with
  | one m n hn =>
    obtain ⟨hm, -⟩ := List.getElem?_eq_some_iff.mp hx
    obtain ⟨d, rfl⟩ := List.length_eq_one_iff.mp (show hs.length = 1 by omega)
    obtain rfl : m = 0 := by simpa using hm
    obtain rfl : d = x := by simpa using hx
    rw [path_of_le_one 0 [d] (Nat.le_refl 1), mth_singleton]
    rfl
  | low m n hn hm ih =>
    have hk := splitPoint_lt n hn
    have htake : (hs.take (splitPoint n)).length = splitPoint n := by simp; omega
    rw [path_split _ _ (by omega), mth_split hs (by omega), h, if_pos hm, foldFrom_concat,
      ih _ htake (by rw [List.getElem?_take_of_lt hm, hx])]
    rfl
  | high m n hn hm ih =>
    have hdrop : (hs.drop (splitPoint n)).length = n - splitPoint n := by simp [h]
    rw [path_split _ _ (by omega), mth_split hs (by omega), h, if_neg (by omega), foldFrom_concat,
      ih _ hdrop (by rw [List.getElem?_drop, Nat.add_sub_cancel' hm, hx])]
    rfl

/-- Settles O55: folding a leaf is folding from its leaf hash. -/
theorem path_FoldsToRoot : Obligations.Path_FoldsToRoot :=
  fun x m hs h => foldFrom_path m _ hs (leafHash x) rfl h

end Sys2Proof.Machine
end

section
/-! The proofs of the statements of spec/44_merkle_commands.md: each command follows its check phase to the check that
raises or to its write phase; the proofs a tree gives verify; and what a verified proof says of the tree. -/

namespace Sys2Proof.Machine

/-! ### MT_LEAF and MT_NODE (R131, R132) -/

/-- Settles O21: the two checks in order, then the leaf hash of the source bytes. -/
theorem mtLeaf_Outcome : Obligations.MtLeaf_Outcome := by
  intro s hu
  have hrun := exec_undisturbed _ _ hu
  rw [checkOf, checkMtLeaf, maxBits] at hrun
  refine ⟨fun hlen => ?_, fun hlen hr => ?_, fun hlen hr => ?_⟩
  · rw [hrun, Check.raiseIf_pos hlen, Check.raise_res, complete_error]
  · rw [hrun, Check.raiseIf_neg (Nat.not_lt.mpr hlen), Check.memRead_of_not_validRange hr, Check.raise_res,
      complete_error]
  · rw [hrun, Check.raiseIf_neg (Nat.not_lt.mpr hlen), Check.memRead_res_ok _ _ _ _ ((rangeOk_iff _ _ _).mpr hr),
      Check.done_res, complete_digest, leafHash, srcBytes]

/-- Two MemReads raise BusError unless both ranges are valid (R16). -/
theorem Check.memRead_memRead_res_bad {s : State} {a b : U64} {n m : Nat} {k : Bytes → Bytes → Check}
    (h : ¬ (validRange s a n ∧ validRange s b m)) :
    (Check.memRead s a.toNat n fun x => Check.memRead s b.toNat m (k x)).res = .error .busError := by
  by_cases ha : validRange s a n
  · rw [Check.memRead_res_ok _ _ _ _ ((rangeOk_iff _ _ _).mpr ha),
      Check.memRead_of_not_validRange fun hb => h ⟨ha, hb⟩, Check.raise_res]
  · rw [Check.memRead_of_not_validRange ha, Check.raise_res]

/-- Two MemReads of valid ranges go on with the bytes of both (R16). -/
theorem Check.memRead_memRead_res_ok {s : State} {a b : U64} {n m : Nat} {k : Bytes → Bytes → Check}
    (ha : validRange s a n) (hb : validRange s b m) :
    (Check.memRead s a.toNat n fun x => Check.memRead s b.toNat m (k x)).res
      = (k (Memory.read s.mem a.toNat n) (Memory.read s.mem b.toNat m)).res := by
  rw [Check.memRead_res_ok _ _ _ _ ((rangeOk_iff _ _ _).mpr ha),
    Check.memRead_res_ok _ _ _ _ ((rangeOk_iff _ _ _).mpr hb)]

/-- Settles O22: the two reads, then the node hash of what they read. -/
theorem mtNode_Outcome : Obligations.MtNode_Outcome := by
  intro s hu
  have hrun := exec_undisturbed _ _ hu
  rw [checkOf, checkMtNode] at hrun
  refine ⟨fun hr => ?_, fun hl hr => ?_⟩
  · rw [hrun, Check.memRead_memRead_res_bad hr, complete_error]
  · rw [hrun, Check.memRead_memRead_res_ok hl hr, Check.done_res, complete_digest, nodeHash]

/-! ### MT_BUILD (R133) -/

/-- Two checks that the ranges are valid raise BusError unless both are (R47). -/
theorem Check.raiseIf_raiseIf_res_bad {s : State} {a b : U64} {n m : Nat} {k : Unit → Check}
    (h : ¬ (validRange s a n ∧ validRange s b m)) :
    (Check.raiseIf (¬ rangeOk s a.toNat n = true) .busError fun _ =>
      Check.raiseIf (¬ rangeOk s b.toNat m = true) .busError k).res = .error .busError := by
  by_cases ha : validRange s a n
  · rw [Check.raiseIf_of_validRange ha, Check.raiseIf_of_not_validRange fun hb => h ⟨ha, hb⟩, Check.raise_res]
  · rw [Check.raiseIf_of_not_validRange ha, Check.raise_res]

/-- The error of a leaf that fails its length or its range check (R133). -/
def leafError (s : State) (table i : Nat) : Err :=
  if 8 * (descLen (descriptor s table i) + 1) > maxBits then .lengthOverflow else .busError

/-- The first leaf that fails decides the error of the loop over the leaves of a valid table (R133). -/
theorem Check.leaves_res_of_first_bad {s : State} {table : U64} {n f : Nat} (htable : validRange s table (16 * n))
    (hf : f < n) (hpass : ∀ j < f, leafOk s table.toNat j) (hfail : ¬ leafOk s table.toNat f)
    (k : List Bytes → Check) :
    (Check.leaves s table.toNat n 0 k).res = .error (leafError s table.toNat f) := by
  have hdesc : ∀ j < n, rangeOk s (table.toNat + 16 * j) 16 = true := fun j hj =>
    rangeOk_sub s _ _ _ 16 ((rangeOk_iff s _ _).mpr htable) (by omega)
  refine Check.leaves_fail s _ _ n 0 f k (Nat.zero_le f) (by omega)
    (fun j _ hj => ⟨hdesc j (by omega), hpass j hj⟩) (hdesc f hf) ?_
  rw [leafError]
  split
  · next hlong => exact .inl ⟨rfl, Nat.not_le.mpr hlong⟩
  · next hlen =>
    have hshort := Nat.not_lt.mp hlen
    refine .inr ⟨rfl, hshort, Bool.eq_false_iff.mpr fun hr => hfail ⟨hshort, (rangeOk_iff _ _ _).mp hr⟩⟩

/-- Settles O23: the checks in order, the loop over the leaves, then the store of their digests. -/
theorem mtBuild_Outcome : Obligations.MtBuild_Outcome := by
  intro s hu n table leaves
  have hrun := exec_undisturbed _ _ hu
  refine ⟨fun hcap => ?capacity, fun hcap hroom => ?small, fun hcap hroom hr => ?range,
    fun hcap hroom hdst htable => ⟨fun f hf hpass hfail => ?leaf, fun hleaves => ?valid⟩⟩
  case valid => rw [hrun, checkOf_mtBuild_of_valid hcap hroom hdst htable hleaves, buildEffect, complete_build]
  all_goals rw [checkOf, checkMtBuild] at hrun
  case capacity => rw [hrun, Check.raiseIf_pos hcap, Check.raise_res, complete_error]
  all_goals rw [Check.raiseIf_neg (Nat.not_lt.mpr hcap)] at hrun
  case small => rw [hrun, Check.raiseIf_pos hroom, Check.raise_res, complete_error]
  all_goals rw [Check.raiseIf_neg (Nat.not_lt.mpr hroom)] at hrun
  case range => rw [hrun, Check.raiseIf_raiseIf_res_bad hr, complete_error]
  case leaf =>
    rw [hrun, Check.raiseIf_of_validRange hdst, Check.raiseIf_of_validRange htable,
      Check.leaves_res_of_first_bad htable hf hpass hfail, complete_error]
    rfl

/-! ### MT_INCL_PROOF (R134) -/

/-- MT_INCL_PROOF when every check of R134 passes. -/
theorem exec_mtInclProof_of_valid {s : State} (hu : undisturbed .mtInclProof s) (hseal : s.treeSealed = true)
    (hindex : s.arg0.toNat < s.treeN.toNat) (hroom : 33 * depth s.arg0.toNat s.treeN.toNat ≤ s.dstLen.toNat)
    (hdst : validRange s s.dstAddr (33 * depth s.arg0.toNat s.treeN.toNat))
    (harray : validRange s s.treeLda (32 * s.treeN.toNat)) :
    exec .mtInclProof s = .next
      { succeeded (memWrite s s.dstAddr.toNat (encPath (path s.arg0.toNat (treeDigests s)))) with
        result0 := BitVec.ofNat 64 (depth s.arg0.toNat s.treeN.toNat)
        result1 := BitVec.ofNat 64 (33 * depth s.arg0.toNat s.treeN.toNat) } := by
  rw [exec_undisturbed _ _ hu, checkOf_mtInclProof_of_valid hseal hindex hroom hdst harray, complete_results]

/-- Settles O24: the checks in order, then the store of the path. -/
theorem mtInclProof_Outcome : Obligations.MtInclProof_Outcome := by
  intro s hu n i m
  have hrun := exec_undisturbed _ _ hu
  rw [checkOf, checkMtInclProof] at hrun
  refine ⟨fun hseal => ?unsealed, fun hseal hn => ?empty, fun hseal hn hi => ?index, fun hseal hi hroom => ?small,
    fun hseal hi hroom hr => ?range, fun hseal hi hroom => exec_mtInclProof_of_valid hu hseal hi hroom⟩
  case unsealed => rw [hrun, Check.raiseIf_pos hseal, Check.raise_res, complete_error]
  all_goals rw [Check.raiseIf_neg (by simp [hseal])] at hrun
  case empty => rw [hrun, Check.raiseIf_pos hn, Check.raise_res, complete_error]
  case index =>
    rw [hrun, Check.raiseIf_neg hn, Check.raiseIf_pos hi, Check.raise_res, complete_error]
  all_goals rw [Check.raiseIf_neg (Nat.ne_zero_of_lt hi), Check.raiseIf_neg (Nat.not_le.mpr hi)] at hrun
  case small => rw [hrun, Check.raiseIf_pos hroom, Check.raise_res, complete_error]
  case range =>
    rw [hrun, Check.raiseIf_neg (Nat.not_lt.mpr hroom)]
    by_cases hdst : validRange s s.dstAddr (33 * m)
    · rw [Check.raiseIf_of_validRange hdst, Check.memRead_of_not_validRange fun ha => hr ⟨hdst, ha⟩,
        Check.raise_res, complete_error]
    · rw [Check.raiseIf_of_not_validRange hdst, Check.raise_res, complete_error]

/-! ### MT_VERIFY_INCL (R135) -/

theorem flagsOk_eq_false_iff {b : Bytes} {c m n : Nat} :
    flagsOk (proofEntries b c) (expFlags m n) = false ↔ proofFlags b c ≠ expFlagBytes m n :=
  decide_eq_false_iff_not

/-- The operands of a verify command, read when both ranges are valid (R74). -/
theorem Check.operands_res_ok {s : State} {k : Bytes → Bytes → Check} (hsrc : validRange s s.srcAddr s.srcLen.toNat)
    (haux : validRange s s.auxAddr s.auxLen.toNat) :
    (Check.memRead s s.srcAddr.toNat s.srcLen.toNat fun x =>
      Check.memRead s s.auxAddr.toNat s.auxLen.toNat (k x)).res = (k (srcBytes s) (auxBytes s)).res :=
  Check.memRead_memRead_res_ok hsrc haux

/-- A proof has as many whole entries as the path exactly when it has the path's length (R128, R135). -/
theorem proofLength_bad_iff {b d : Nat} : (b % 33 ≠ 0 ∨ b / 33 ≠ d) ↔ b ≠ 33 * d := by omega

/-- The verdict of MT_VERIFY_INCL: the source bytes fold through the proof to the root (R135). -/
def leafFolds (s : State) : Bool :=
  decide (fold (srcBytes s) (proofOf (auxBytes s) (s.auxLen.toNat / 33)) = ser s.stateIn)

/-- MT_VERIFY_INCL when every check of R135 passes. -/
theorem exec_mtVerifyIncl_of_valid {s : State} (hu : undisturbed .mtVerifyIncl s)
    (hindex : s.arg0.toNat < s.arg1.toNat) (hlen : s.auxLen.toNat = 33 * depth s.arg0.toNat s.arg1.toNat)
    (hleaf : 8 * (s.srcLen.toNat + 1) ≤ maxBits) (hsrc : validRange s s.srcAddr s.srcLen.toNat)
    (haux : validRange s s.auxAddr s.auxLen.toNat)
    (hflags : proofFlags (auxBytes s) (s.auxLen.toNat / 33) = expFlagBytes s.arg0.toNat s.arg1.toNat) :
    exec .mtVerifyIncl s = .next
      { succeeded s with verdict := leafFolds s, result0 := if leafFolds s then 1 else 0 } := by
  rw [exec_undisturbed _ _ hu, checkOf, checkMtVerifyIncl, Check.raiseIf_neg (Nat.ne_zero_of_lt hindex),
    Check.raiseIf_neg (Nat.not_le.mpr hindex), Check.raiseIf_neg (proofLength_bad_iff.not.mpr (not_not.mpr hlen)),
    Check.raiseIf_neg (Nat.not_lt.mpr hleaf), Check.operands_res_ok hsrc haux,
    Check.raiseIf_neg (flagsOk_eq_false_iff.not.mpr (not_not.mpr hflags)), Check.done_res, complete_verdict]
  rfl

/-- Settles O25: the checks in order, then the verdict of the fold. -/
theorem mtVerifyIncl_Outcome : Obligations.MtVerifyIncl_Outcome := by
  intro s hu n i b c ok
  have hrun := exec_undisturbed _ _ hu
  rw [checkOf, checkMtVerifyIncl, maxBits] at hrun
  refine ⟨fun hn => ?empty, fun hn hi => ?index, fun hi hb => ?length, fun hi hb hlong => ?long,
    fun hi hb hlen hr => ?range, fun hi hb hlen hsrc haux =>
      ⟨fun hflags => ?flags, exec_mtVerifyIncl_of_valid hu hi hb hlen hsrc haux⟩⟩
  case empty => rw [hrun, Check.raiseIf_pos hn, Check.raise_res, complete_error]
  case index => rw [hrun, Check.raiseIf_neg hn, Check.raiseIf_pos hi, Check.raise_res, complete_error]
  all_goals rw [Check.raiseIf_neg (Nat.ne_zero_of_lt hi), Check.raiseIf_neg (Nat.not_le.mpr hi)] at hrun
  case length => rw [hrun, Check.raiseIf_pos (proofLength_bad_iff.mpr hb), Check.raise_res, complete_error]
  all_goals rw [Check.raiseIf_neg (proofLength_bad_iff.not.mpr (not_not.mpr hb))] at hrun
  case long => rw [hrun, Check.raiseIf_pos hlong, Check.raise_res, complete_error]
  all_goals rw [Check.raiseIf_neg (Nat.not_lt.mpr hlen)] at hrun
  case range => rw [hrun, Check.memRead_memRead_res_bad hr, complete_error]
  case flags =>
    rw [hrun, Check.operands_res_ok hsrc haux, Check.raiseIf_pos (flagsOk_eq_false_iff.mpr hflags),
      Check.raise_res, complete_error]

/-! ### MT_NONINCL_PROOF (R136) -/

/-- RESULT1 of MT_NONINCL_PROOF is the kind (R136). -/
theorem neighboursOf_byte_setWidth (s : State) :
    (neighboursOf (keyPosition s) s.treeN.toNat).1.byte.setWidth 64 = BitVec.ofNat 64 (recordKind s) := by
  rw [neighboursOf, recordKind]
  split
  · rfl
  · split <;> rfl

/-- The write phase of MT_NONINCL_PROOF (R136). -/
def recordEffect (s : State) : Effect :=
  { regs :=
      [.result0 (BitVec.ofNat 64 (recordOf s).length),
       .result1 ((neighboursOf (keyPosition s) s.treeN.toNat).1.byte.setWidth 64)]
    addr := s.dstAddr.toNat
    bytes := recordOf s }

theorem complete_recordEffect (s : State) :
    complete s (.ok (recordEffect s))
      = { succeeded (memWrite s s.dstAddr.toNat (recordOf s)) with
          result0 := BitVec.ofNat 64 (recordOf s).length
          result1 := BitVec.ofNat 64 (recordKind s) } := by
  rw [recordEffect, complete_results, neighboursOf_byte_setWidth]

/-- The checks of MT_NONINCL_PROOF after its last read: the key, the capacity, the destination (R136). -/
def checkRecord (s : State) : Check :=
  .raiseIf (keyPosition s < s.treeN.toNat ∧
      (leavesOf s s.treeDesc.toNat s.treeN.toNat).getD (keyPosition s) [] = srcBytes s) .keyPresent fun _ =>
    .raiseIf ((recordOf s).length > s.dstLen.toNat) .dstTooSmall fun _ =>
      .raiseIf (¬ rangeOk s s.dstAddr.toNat (recordOf s).length) .busError fun _ =>
        .done (recordEffect s)

@[simp] theorem Check.afterReads_res (rs : List Range) (c : Check) : (c.afterReads rs).res = c.res := rfl

/-- MT_NONINCL_PROOF when every check up to its last read passes. -/
theorem checkMtNoninclProof_res_of_read {s : State} (hseal : s.treeSealed = true) (hn : s.treeN.toNat ≠ 0)
    (hsort : s.treeSorted = true) (hkey : validRange s s.srcAddr s.srcLen.toNat)
    (htable : validRange s s.treeDesc (16 * s.treeN.toNat))
    (hleaves : ∀ j < s.treeN.toNat, leafOk s s.treeDesc.toNat j)
    (harray : validRange s s.treeLda (32 * s.treeN.toNat)) :
    (checkMtNoninclProof s).res = (checkRecord s).res := by
  rw [checkMtNoninclProof, Check.raiseIf_neg (by simp [hseal]), Check.raiseIf_neg hn,
    Check.raiseIf_neg (by simp [hsort]), Check.memRead_of_validRange hkey, Check.raiseIf_of_validRange htable,
    Check.leaves_of_validRange htable hleaves, Check.memRead_of_validRange harray, checkRecord,
    recordEffect, ← nirRecord_eq_recordOf hn]
  rfl

theorem keyPresent_iff (s : State) :
    (keyPosition s < s.treeN.toNat ∧
      (leavesOf s s.treeDesc.toNat s.treeN.toNat).getD (keyPosition s) [] = srcBytes s) ↔
    (keyPosition s < s.treeN.toNat ∧ leafOf s s.treeDesc.toNat (keyPosition s) = srcBytes s) :=
  and_congr_right fun hp => by rw [getD_leavesOf hp]

/-- Settles O26: the checks in order, then the store of the record. -/
theorem mtNoninclProof_Outcome : Obligations.MtNoninclProof_Outcome := by
  intro s hu n table leaves y p block kind record
  have hrun := exec_undisturbed _ _ hu
  rw [checkOf] at hrun
  refine ⟨fun hseal => ?unsealed, fun hseal hn => ?empty, fun hseal hn hsort => ?unsorted, fun hseal hn hsort =>
    ⟨fun hr => ?range, fun hkey htable => ⟨fun f hf hpass hfail => ?leaf, fun hleaves =>
      ⟨fun harray => ?array, fun harray => ?read⟩⟩⟩⟩
  case read =>
    rw [checkMtNoninclProof_res_of_read hseal hn hsort hkey htable hleaves harray, checkRecord] at hrun
    refine ⟨fun hpresent => ?present, fun habsent => ⟨fun (hroom : (recordOf s).length > _) => ?small,
      fun (hroom : (recordOf s).length ≤ _) (hdst : ¬ validRange s s.dstAddr (recordOf s).length) => ?destination,
      fun (hroom : (recordOf s).length ≤ _) (hdst : validRange s s.dstAddr (recordOf s).length) => ?valid⟩⟩
    case present => rw [hrun, Check.raiseIf_pos ((keyPresent_iff s).mpr hpresent), Check.raise_res, complete_error]
    all_goals rw [Check.raiseIf_neg ((keyPresent_iff s).not.mpr habsent)] at hrun
    case small => rw [hrun, Check.raiseIf_pos hroom, Check.raise_res, complete_error]
    all_goals rw [Check.raiseIf_neg (Nat.not_lt.mpr hroom)] at hrun
    case destination => rw [hrun, Check.raiseIf_of_not_validRange hdst, Check.raise_res, complete_error]
    case valid =>
      rw [hrun, Check.raiseIf_of_validRange hdst, Check.done_res]
      exact congrArg Host.Outcome.next (complete_recordEffect s)
  all_goals rw [checkMtNoninclProof] at hrun
  case unsealed => rw [hrun, Check.raiseIf_pos hseal, Check.raise_res, complete_error]
  all_goals rw [Check.raiseIf_neg (by simp [hseal])] at hrun
  case empty => rw [hrun, Check.raiseIf_pos hn, Check.raise_res, complete_error]
  all_goals rw [Check.raiseIf_neg hn] at hrun
  case unsorted => rw [hrun, Check.raiseIf_pos hsort, Check.raise_res, complete_error]
  all_goals rw [Check.raiseIf_neg (by simp [hsort])] at hrun
  case range =>
    by_cases hkey : validRange s s.srcAddr s.srcLen.toNat
    · rw [hrun, Check.memRead_of_validRange hkey, Check.raiseIf_of_not_validRange fun ht => hr ⟨hkey, ht⟩,
        Check.afterReads_res, Check.raise_res, complete_error]
    · rw [hrun, Check.memRead_of_not_validRange hkey, Check.raise_res, complete_error]
  all_goals
    rw [Check.memRead_of_validRange hkey, Check.raiseIf_of_validRange htable, Check.afterReads_res] at hrun
  case leaf =>
    rw [hrun, Check.leaves_res_of_first_bad htable hf hpass hfail, complete_error]
    rfl
  case array =>
    rw [hrun, Check.leaves_of_validRange htable hleaves, Check.memRead_of_not_validRange harray, Check.afterReads_res,
      Check.raise_res, complete_error]

/-! ### MT_VERIFY_NONINCL (R137) -/

/-- The error of a neighbour block that does not pass (R137). -/
def blockError (n : Nat) (b : Neighbour) : Err :=
  if b.index ≥ n then .invalidIndex
  else if b.count ≠ depth b.index n then .malformedProof
  else if 8 * (b.leaf.length + 1) > maxBits then .lengthOverflow
  else .malformedProof

theorem checkNeighbour_of_ok {n : Nat} {b : Neighbour} (root : Digest) (h : Neighbour.ok n b) :
    checkNeighbour root n b = .ok (decide (Neighbour.folds root b)) := by
  obtain ⟨hindex, hcount, hlen, hflags⟩ := h
  rw [checkNeighbour, if_neg (Nat.not_le.mpr hindex), if_neg (not_not.mpr hcount), if_neg (Nat.not_lt.mpr hlen),
    if_neg (flagsOk_eq_false_iff.not.mpr (not_not.mpr hflags))]
  rfl

theorem checkNeighbour_of_not_ok {n : Nat} {b : Neighbour} (root : Digest) (h : ¬ Neighbour.ok n b) :
    checkNeighbour root n b = .error (blockError n b) := by
  rw [checkNeighbour, blockError]
  split
  · rfl
  · next hindex =>
    split
    · rfl
    · next hcount =>
      split
      · rfl
      · next hlen =>
        refine if_pos (flagsOk_eq_false_iff.mpr fun hflags => h ?_)
        exact ⟨Nat.not_le.mp hindex, not_not.mp hcount, Nat.not_lt.mp hlen, hflags⟩

/-- A record whose blocks all pass folds to the root when each of them does (R137). -/
theorem checkNeighbours_of_ok {n : Nat} (root : Digest) : ∀ {bs : List Neighbour}, (∀ b ∈ bs, Neighbour.ok n b) →
    checkNeighbours root n bs = .ok (decide (∀ b ∈ bs, Neighbour.folds root b))
  | [], _ => by simp [checkNeighbours]
  | b :: bs, h => by
    obtain ⟨hb, hbs⟩ := List.forall_mem_cons.mp h
    rw [checkNeighbours, checkNeighbour_of_ok root hb, checkNeighbours_of_ok root hbs]
    simp only [List.forall_mem_cons, Bool.decide_and]

/-- The first block that does not pass decides the error (R137). -/
theorem checkNeighbours_of_first_not_ok {n : Nat} (root : Digest) {b : Neighbour} {post : List Neighbour}
    (hb : ¬ Neighbour.ok n b) : ∀ {pre : List Neighbour}, (∀ a ∈ pre, Neighbour.ok n a) →
    checkNeighbours root n (pre ++ b :: post) = .error (blockError n b)
  | [], _ => by rw [List.nil_append, checkNeighbours, checkNeighbour_of_not_ok root hb]
  | a :: pre, h => by
    obtain ⟨ha, hpre⟩ := List.forall_mem_cons.mp h
    rw [List.cons_append, checkNeighbours, checkNeighbour_of_ok root ha, checkNeighbours_of_first_not_ok root hb hpre]

/-- Blocks that raise nothing all pass (R137). -/
theorem ok_of_checkNeighbours {root : Digest} {n : Nat} {ok : Bool} : ∀ {bs : List Neighbour},
    checkNeighbours root n bs = .ok ok → ∀ b ∈ bs, Neighbour.ok n b
  | [], _ => nofun
  | b :: bs, h => by
    by_cases hb : Neighbour.ok n b
    · rw [checkNeighbours, checkNeighbour_of_ok root hb] at h
      cases hbs : checkNeighbours root n bs with
      | error e => simp [hbs] at h
      | ok oks => exact List.forall_mem_cons.mpr ⟨hb, ok_of_checkNeighbours hbs⟩
    · rw [checkNeighbours, checkNeighbour_of_not_ok root hb] at h
      cases h

/-- The verdict on a record whose blocks all pass: the indices must fit the kind (R137). -/
theorem nirVerdict_of_ok {n : Nat} {y r : Bytes} {kind : NirKind} {bs : List Neighbour} (root : Digest)
    (hparse : parseNir r = .ok (kind, bs)) (h : ∀ b ∈ bs, Neighbour.ok n b) :
    nirVerdict root n y r
      = if kindFits kind n bs then .ok (decide (∀ b ∈ bs, Neighbour.folds root b) && keyFits kind y bs)
        else .error .malformedProof := by
  rw [nirVerdict, hparse]
  simp only [checkNeighbours_of_ok root h]

theorem nirVerdict_of_first_not_ok {n : Nat} {y r : Bytes} {kind : NirKind} {pre post : List Neighbour} {b : Neighbour}
    (root : Digest) (hparse : parseNir r = .ok (kind, pre ++ b :: post)) (hpre : ∀ a ∈ pre, Neighbour.ok n a)
    (hb : ¬ Neighbour.ok n b) : nirVerdict root n y r = .error (blockError n b) := by
  rw [nirVerdict, hparse]
  simp only [checkNeighbours_of_first_not_ok root hb hpre]

/-- MT_VERIFY_NONINCL of a tree that is not empty, when both operands are in range (R137). -/
theorem exec_mtVerifyNonincl_of_read {s : State} (hu : undisturbed .mtVerifyNonincl s) (hn : s.arg1.toNat ≠ 0)
    (hsrc : validRange s s.srcAddr s.srcLen.toNat) (haux : validRange s s.auxAddr s.auxLen.toNat) :
    exec .mtVerifyNonincl s = .next (complete s
      (Check.except (nirVerdict (ser s.stateIn) s.arg1.toNat (srcBytes s) (auxBytes s)) fun ok =>
        Check.done (.ofRegs (verdictRegs ok))).res) := by
  rw [exec_undisturbed _ _ hu, checkOf, checkMtVerifyNonincl, Check.raiseIf_neg hn, Check.operands_res_ok hsrc haux]
  rfl

theorem exec_mtVerifyNonincl_of_error {s : State} {e : Err} (hu : undisturbed .mtVerifyNonincl s)
    (hn : s.arg1.toNat ≠ 0) (hsrc : validRange s s.srcAddr s.srcLen.toNat)
    (haux : validRange s s.auxAddr s.auxLen.toNat)
    (h : nirVerdict (ser s.stateIn) s.arg1.toNat (srcBytes s) (auxBytes s) = .error e) :
    exec .mtVerifyNonincl s = .next (errored s e) := by
  rw [exec_mtVerifyNonincl_of_read hu hn hsrc haux, h, Check.except_error, Check.raise_res, complete_error]

theorem exec_mtVerifyNonincl_of_ok {s : State} {ok : Bool} (hu : undisturbed .mtVerifyNonincl s)
    (hn : s.arg1.toNat ≠ 0) (hsrc : validRange s s.srcAddr s.srcLen.toNat)
    (haux : validRange s s.auxAddr s.auxLen.toNat)
    (h : nirVerdict (ser s.stateIn) s.arg1.toNat (srcBytes s) (auxBytes s) = .ok ok) :
    exec .mtVerifyNonincl s = .next { succeeded s with verdict := ok, result0 := if ok then 1 else 0 } := by
  rw [exec_mtVerifyNonincl_of_read hu hn hsrc haux, h, Check.except_ok, Check.done_res, complete_verdict]

/-- MT_VERIFY_NONINCL of a record whose blocks all pass: malformed unless the indices fit the kind, else the verdict
(R137). -/
theorem exec_mtVerifyNonincl_of_blocks {s : State} {kind : NirKind} {bs : List Neighbour}
    (hu : undisturbed .mtVerifyNonincl s) (hn : s.arg1.toNat ≠ 0) (hsrc : validRange s s.srcAddr s.srcLen.toNat)
    (haux : validRange s s.auxAddr s.auxLen.toNat) (hparse : parseNir (auxBytes s) = .ok (kind, bs))
    (h : ∀ b ∈ bs, Neighbour.ok s.arg1.toNat b) :
    (¬ kindFits kind s.arg1.toNat bs = true → exec .mtVerifyNonincl s = .next (errored s .malformedProof)) ∧
    (kindFits kind s.arg1.toNat bs = true → ∀ ok : Bool,
      (ok = true ↔ (∀ b ∈ bs, Neighbour.folds (ser s.stateIn) b) ∧ keyFits kind (srcBytes s) bs = true) →
      exec .mtVerifyNonincl s = .next { succeeded s with verdict := ok, result0 := if ok then 1 else 0 }) := by
  have hverdict := nirVerdict_of_ok (y := srcBytes s) (ser s.stateIn) hparse h
  refine ⟨fun hkind => ?_, fun hkind ok hok => ?_⟩
  · exact exec_mtVerifyNonincl_of_error hu hn hsrc haux (hverdict.trans (if_neg hkind))
  · refine exec_mtVerifyNonincl_of_ok hu hn hsrc haux (hverdict.trans ?_)
    rw [if_pos hkind, Except.ok.injEq, Bool.eq_iff_iff, hok, Bool.and_eq_true, decide_eq_true_eq]

/-- Settles O27: the checks in order; then the parse, the blocks, the kind and the verdict. -/
theorem mtVerifyNonincl_Outcome : Obligations.MtVerifyNonincl_Outcome := by
  intro s hu n y root
  refine ⟨fun hn => ?empty, fun hn hr => ?range, fun hn hsrc haux => ?read⟩
  case empty =>
    rw [exec_undisturbed _ _ hu, checkOf, checkMtVerifyNonincl, Check.raiseIf_pos hn, Check.raise_res, complete_error]
  case range =>
    rw [exec_undisturbed _ _ hu, checkOf, checkMtVerifyNonincl, Check.raiseIf_neg hn, Check.memRead_memRead_res_bad hr,
      complete_error]
  case read =>
    have herror := fun e => exec_mtVerifyNonincl_of_error (e := e) hu hn hsrc haux
    have hblocks := fun kind bs => exec_mtVerifyNonincl_of_blocks (kind := kind) (bs := bs) hu hn hsrc haux
    refine ⟨fun hparse => herror _ (by rw [nirVerdict, hparse]),
      fun kind pre post b hparse hpre hb => herror _ (nirVerdict_of_first_not_ok root hparse hpre hb),
      fun b hparse hb => ?before, fun b hparse hb => ?after, fun a b hparse ha hb => ?bracket⟩
    case before =>
      obtain ⟨hunfit, hfit⟩ := hblocks _ _ hparse (List.forall_mem_singleton.mpr hb)
      exact ⟨fun hi => hunfit (by simpa [kindFits] using hi),
        fun hi ok hok => hfit (by simpa [kindFits] using hi) ok (by simpa [keyFits] using hok)⟩
    case after =>
      obtain ⟨hunfit, hfit⟩ := hblocks _ _ hparse (List.forall_mem_singleton.mpr hb)
      exact ⟨fun hi => hunfit (by simpa [kindFits] using hi),
        fun hi ok hok => hfit (by simpa [kindFits] using hi) ok (by simpa [keyFits] using hok)⟩
    case bracket =>
      obtain ⟨hunfit, hfit⟩ := hblocks _ _ hparse
        (List.forall_mem_cons.mpr ⟨ha, List.forall_mem_singleton.mpr hb⟩)
      exact ⟨fun hi => hunfit (by simpa [kindFits] using hi),
        fun hi ok hok => hfit (by simpa [kindFits] using hi) ok (by simpa [keyFits, and_assoc] using hok)⟩

/-! ### What a success has checked (R141) -/

/-- A completion that is no error completion is the write phase the check phase gave. -/
theorem exec_ok_of_ne_errored {i : Instr} {s t : State} (hu : undisturbed i s) (h : exec i s = .next t)
    (hne : ∀ e, t ≠ errored s e) : ∃ w, (checkOf i s).res = .ok w ∧ t = complete s (.ok w) := by
  rw [exec_undisturbed i s hu] at h
  cases hres : (checkOf i s).res with
  | error e =>
    rw [hres] at h
    exact absurd (Host.Outcome.next.inj h).symm (hne e)
  | ok w =>
    rw [hres] at h
    exact ⟨w, rfl, (Host.Outcome.next.inj h).symm⟩

theorem ne_errored_of_errFlag {s t : State} (h : t.errFlag = false) (e : Err) : t ≠ errored s e := by
  rintro rfl
  cases h

theorem ne_errored_of_verdict {s t : State} (hs : s.verdict = false) (ht : t.verdict = true) (e : Err) :
    t ≠ errored s e := by
  rintro rfl
  cases hs.symm.trans ht

/-- A check of a range that raises nothing found it valid (R47). -/
theorem Check.raiseIf_rangeOk_ok {s : State} {a : U64} {n : Nat} {e : Err} {k : Unit → Check} {w : Effect}
    (h : (Check.raiseIf (¬ rangeOk s a.toNat n = true) e k).res = .ok w) : validRange s a n ∧ (k ()).res = .ok w :=
  have ⟨hr, hk⟩ := Check.raiseIf_ok h
  ⟨(rangeOk_iff _ _ _).mp (not_not.mp hr), hk⟩

/-- What MT_INCL_PROOF has checked when it raises nothing (R134). -/
theorem checkMtInclProof_ok {s : State} {w : Effect} (h : (checkMtInclProof s).res = .ok w) :
    s.treeSealed = true ∧ s.arg0.toNat < s.treeN.toNat ∧ 33 * depth s.arg0.toNat s.treeN.toNat ≤ s.dstLen.toNat ∧
      validRange s s.dstAddr (33 * depth s.arg0.toNat s.treeN.toNat) ∧
      validRange s s.treeLda (32 * s.treeN.toNat) := by
  obtain ⟨hseal, h⟩ := Check.raiseIf_ok h
  obtain ⟨-, h⟩ := Check.raiseIf_ok h
  obtain ⟨hindex, h⟩ := Check.raiseIf_ok h
  obtain ⟨hroom, h⟩ := Check.raiseIf_ok h
  obtain ⟨hdst, h⟩ := Check.raiseIf_rangeOk_ok h
  obtain ⟨harray, -⟩ := Check.memRead_ok h
  exact ⟨Bool.eq_true_of_not_eq_false hseal, Nat.not_le.mp hindex, Nat.not_lt.mp hroom, hdst,
    (rangeOk_iff _ _ _).mp harray⟩

/-- What MT_VERIFY_INCL has checked when it raises nothing, and its write phase (R135). -/
theorem checkMtVerifyIncl_ok {s : State} {w : Effect} (h : (checkMtVerifyIncl s).res = .ok w) :
    s.arg0.toNat < s.arg1.toNat ∧ s.auxLen.toNat = 33 * depth s.arg0.toNat s.arg1.toNat ∧
      proofFlags (auxBytes s) (s.auxLen.toNat / 33) = expFlagBytes s.arg0.toNat s.arg1.toNat ∧
      w = .ofRegs (verdictRegs (leafFolds s)) := by
  obtain ⟨-, h⟩ := Check.raiseIf_ok h
  obtain ⟨hindex, h⟩ := Check.raiseIf_ok h
  obtain ⟨hlen, h⟩ := Check.raiseIf_ok h
  obtain ⟨-, h⟩ := Check.raiseIf_ok h
  obtain ⟨-, h⟩ := Check.memRead_ok h
  obtain ⟨-, h⟩ := Check.memRead_ok h
  obtain ⟨hflags, h⟩ := Check.raiseIf_ok h
  exact ⟨Nat.not_le.mp hindex, not_not.mp (proofLength_bad_iff.not.mp hlen),
    not_not.mp (flagsOk_eq_false_iff.not.mp hflags), (Except.ok.inj h).symm⟩

/-- What MT_NONINCL_PROOF has checked when it raises nothing, and its write phase (R136). -/
theorem checkMtNoninclProof_ok {s : State} {w : Effect} (h : (checkMtNoninclProof s).res = .ok w) :
    s.treeN.toNat ≠ 0 ∧ s.treeSorted = true ∧
      ¬ (keyPosition s < s.treeN.toNat ∧ leafOf s s.treeDesc.toNat (keyPosition s) = srcBytes s) ∧
      (recordOf s).length ≤ s.dstLen.toNat ∧ validRange s s.dstAddr (recordOf s).length ∧ w = recordEffect s := by
  have hres := h
  obtain ⟨hseal, h⟩ := Check.raiseIf_ok h
  obtain ⟨hn, h⟩ := Check.raiseIf_ok h
  obtain ⟨hsort, h⟩ := Check.raiseIf_ok h
  obtain ⟨hkey, h⟩ := Check.memRead_ok h
  obtain ⟨htable, h⟩ := Check.raiseIf_rangeOk_ok h
  have hleaves := Check.leaves_ok _ _ _ h
  rw [Check.leaves_res _ _ _ _ _ hleaves] at h
  obtain ⟨harray, -⟩ := Check.memRead_ok h
  rw [checkMtNoninclProof_res_of_read (Bool.eq_true_of_not_eq_false hseal) hn (Bool.eq_true_of_not_eq_false hsort)
    ((rangeOk_iff _ _ _).mp hkey) htable (fun j hj => (hleaves j (Nat.zero_le j) (by omega)).2)
    ((rangeOk_iff _ _ _).mp harray), checkRecord] at hres
  obtain ⟨habsent, hres⟩ := Check.raiseIf_ok hres
  obtain ⟨hroom, hres⟩ := Check.raiseIf_ok hres
  obtain ⟨hdst, hres⟩ := Check.raiseIf_rangeOk_ok hres
  exact ⟨hn, Bool.eq_true_of_not_eq_false hsort, (keyPresent_iff s).not.mp habsent, Nat.not_lt.mp hroom, hdst,
    (Except.ok.inj hres).symm⟩

/-- What MT_VERIFY_NONINCL has checked when it raises nothing, and its write phase (R137). -/
theorem checkMtVerifyNonincl_ok {s : State} {w : Effect} (h : (checkMtVerifyNonincl s).res = .ok w) :
    s.arg1.toNat ≠ 0 ∧ ∃ ok, nirVerdict (ser s.stateIn) s.arg1.toNat (srcBytes s) (auxBytes s) = .ok ok ∧
      w = .ofRegs (verdictRegs ok) := by
  obtain ⟨hn, h⟩ := Check.raiseIf_ok h
  obtain ⟨-, h⟩ := Check.memRead_ok h
  obtain ⟨-, h⟩ := Check.memRead_ok h
  refine ⟨hn, ?_⟩
  rw [← auxBytes, ← srcBytes, stateInDigest] at h
  cases hv : nirVerdict (ser s.stateIn) s.arg1.toNat (srcBytes s) (auxBytes s) with
  | error e =>
    rw [hv] at h
    cases h
  | ok ok =>
    rw [hv] at h
    exact ⟨ok, rfl, (Except.ok.inj h).symm⟩

/-! ### The paths of a sealed tree (R76, R77, R124) -/

theorem treeDigests_digest (s : State) : ∀ d ∈ treeDigests s, d.length = 32 :=
  digestArray_digest _ _ (Memory.length_read _ _ _)

theorem length_treeDigests (s : State) : (treeDigests s).length = s.treeN.toNat := length_digestArray _ _

theorem path_treeDigests_digest (s : State) (j : Nat) : ∀ e ∈ path j (treeDigests s), e.1.length = 32 :=
  path_digest _ j _ (treeDigests_digest s)

theorem length_path_treeDigests (s : State) (j : Nat) : (path j (treeDigests s)).length = depth j s.treeN.toNat := by
  rw [length_path, length_treeDigests]

/-- A path of the sealed tree, encoded, has the flags a verify command expects (R125, R128). -/
theorem proofFlags_treePath (s : State) (j : Nat) :
    proofFlags (encPath (path j (treeDigests s))) (depth j s.treeN.toNat) = expFlagBytes j s.treeN.toNat := by
  rw [← length_path_treeDigests, proofFlags_encPath _ (path_treeDigests_digest s j), expFlagBytes,
    ← map_snd_path_eq_expFlags j _ _ (length_treeDigests s), List.map_map]
  rfl

/-- A path of the sealed tree, encoded and read back (R77). -/
theorem proofOf_treePath (s : State) (j : Nat) :
    proofOf (encPath (path j (treeDigests s))) (depth j s.treeN.toNat) = path j (treeDigests s) := by
  rw [← length_path_treeDigests, proofOf_encPath _ (path_treeDigests_digest s j)]

theorem leafHash_digest (leaves : List Bytes) : ∀ d ∈ leaves.map leafHash, d.length = 32 := by
  intro d hd
  obtain ⟨x, -, rfl⟩ := List.mem_map.mp hd
  exact length_leafHash x

/-- A root held in a register is the root (R14). -/
theorem ser_deser_mth (leaves : List Bytes) :
    ser (deser (mth (leaves.map leafHash))) = mth (leaves.map leafHash) :=
  ser_deser _ (length_mth _ (leafHash_digest leaves))

theorem getElem?_leavesOf {s : State} {table n j : Nat} (hj : j < n) :
    (leavesOf s table n)[j]? = some (leafOf s table j) := by
  simp [leavesOf, hj]

/-- Each leaf of an intact tree folds through its path to ROOT (R127). -/
theorem treeIntact.fold_path {s : State} (h : treeIntact s) {j : Nat} (hj : j < s.treeN.toNat) :
    fold (leafOf s s.treeDesc.toNat j) (path j (treeDigests s)) = ser s.root := by
  rw [h.root, ser_deser_mth, h.digests]
  refine path_FoldsToRoot _ j _ ?_
  rw [List.getElem?_map, getElem?_leavesOf hj, Option.map_some]

/-! ### A written inclusion proof verifies (R134, R135) -/

theorem length_leafOf (s : State) (table j : Nat) : (leafOf s table j).length = descLen (descriptor s table j) :=
  Memory.length_read _ _ _

/-- MT_VERIFY_INCL of a leaf of an intact tree and its encoded path, against ROOT and TREE_N. -/
theorem exec_mtVerifyIncl_of_treePath {s t : State} (h : treeIntact s) (hindex : s.arg0.toNat < s.treeN.toNat)
    (hu : undisturbed .mtVerifyIncl t) (hroot : t.stateIn = s.root) (hi : t.arg0 = s.arg0) (hn : t.arg1 = s.treeN)
    (hsrc : validRange t t.srcAddr t.srcLen.toNat) (haux : validRange t t.auxAddr t.auxLen.toNat)
    (hleaf : srcBytes t = leafOf s s.treeDesc.toNat s.arg0.toNat)
    (hlen : t.auxLen.toNat = 33 * depth s.arg0.toNat s.treeN.toNat)
    (hproof : auxBytes t = encPath (path s.arg0.toNat (treeDigests s))) :
    exec .mtVerifyIncl t = .next { succeeded t with verdict := true, result0 := 1 } := by
  have hcount : t.auxLen.toNat / 33 = depth s.arg0.toNat s.treeN.toNat := by omega
  have hfolds : leafFolds t = true := by
    rw [leafFolds, hleaf, hproof, hcount, proofOf_treePath, h.fold_path hindex, hroot, decide_eq_true rfl]
  have hshort : 8 * (t.srcLen.toNat + 1) ≤ maxBits := by
    obtain ⟨hshort, -⟩ := h.leaves _ hindex
    rwa [← length_srcBytes, hleaf, length_leafOf]
  have hrun := exec_mtVerifyIncl_of_valid hu (by rwa [hi, hn]) (by rwa [hi, hn]) hshort hsrc haux
    (by rw [hproof, hcount, hi, hn, proofFlags_treePath])
  rwa [hfolds] at hrun

/-- Settles O57: the path stored reads back, and folds the leaf to ROOT. -/
theorem inclusionProof_Verifies : Obligations.InclusionProof_Verifies := by
  intro s u a l h hu hwf _ hexec hok hleafRange hleaf
  obtain ⟨w, hw, -⟩ := exec_ok_of_ne_errored hu hexec (ne_errored_of_errFlag hok)
  obtain ⟨hseal, hindex, hroom, hdst, harray⟩ := checkMtInclProof_ok hw
  rw [exec_mtInclProof_of_valid hu hseal hindex hroom hdst harray] at hexec
  cases hexec
  have hlen : (BitVec.ofNat 64 (33 * depth s.arg0.toNat s.treeN.toNat)).toNat
      = 33 * depth s.arg0.toNat s.treeN.toNat := by
    rw [BitVec.toNat_ofNat]
    omega
  refine exec_mtVerifyIncl_of_treePath h hindex (undisturbed_of_not_storing _ _ (by decide) rfl rfl) rfl rfl rfl
    hleafRange ?_ hleaf hlen ?_
  · rwa [hlen]
  · rw [auxBytes, hlen, ← length_treeProof]
    exact Memory.read_write_same _ _ _ hwf

/-! ### A verified inclusion proof binds the leaf (R119, R127, R135) -/

/-- One step of two folds: equal results come from equal digests, or the two nodes hashed collide. -/
theorem foldStep_binds {x y g h : Digest} {side : Side} (es fs : List (Digest × Side)) (hx : x.length = 32)
    (hy : y.length = 32) (hg : g.length = 32) (hh : h.length = 32)
    (heq : foldStep g (x, side) = foldStep h (y, side)) :
    g = h ∨ ∃ p ∈ foldInputsFrom g ((x, side) :: es), ∃ q ∈ foldInputsFrom h ((y, side) :: fs),
      p ≠ q ∧ sm3 p = sm3 q := by
  cases side with
  | left =>
    by_cases hpq : x ++ g = y ++ h
    · exact .inl (List.append_inj hpq (hx.trans hy.symm)).2
    · exact .inr ⟨_, List.mem_cons_self, _, List.mem_cons_self, fun hc => hpq (List.cons.inj hc).2, heq⟩
  | right =>
    by_cases hpq : g ++ x = h ++ y
    · exact .inl (List.append_inj hpq (hg.trans hh.symm)).1
    · exact .inr ⟨_, List.mem_cons_self, _, List.mem_cons_self, fun hc => hpq (List.cons.inj hc).2, heq⟩

theorem length_foldStep (h : Digest) (e : Digest × Side) : (foldStep h e).length = 32 := by
  obtain ⟨x, side⟩ := e
  cases side <;> rfl

/-- Two folds with the same sides that end in one digest began with one digest, or what they hash holds an SM3
collision: the node hashed last is the same in both, or collides, and so on down to the leaf. -/
theorem foldFrom_binds : ∀ (es fs : List (Digest × Side)) (g h : Digest), g.length = 32 → h.length = 32 →
    (∀ e ∈ es, e.1.length = 32) → (∀ f ∈ fs, f.1.length = 32) → es.map Prod.snd = fs.map Prod.snd →
    foldFrom g es = foldFrom h fs →
    g = h ∨ ∃ p ∈ foldInputsFrom g es, ∃ q ∈ foldInputsFrom h fs, p ≠ q ∧ sm3 p = sm3 q
  | [], [], _, _, _, _, _, _, _, heq => .inl heq
  | (x, a) :: es, (y, b) :: fs, g, h, hg, hh, hes, hfs, hsides, heq => by
    obtain ⟨hx, hxs⟩ := List.forall_mem_cons.mp hes
    obtain ⟨hy, hys⟩ := List.forall_mem_cons.mp hfs
    obtain ⟨(rfl : a = b), hsame⟩ := List.cons.inj hsides
    obtain hstep | ⟨p, hp, q, hq, hcoll⟩ :=
      foldFrom_binds es fs _ _ (length_foldStep g (x, a)) (length_foldStep h (y, a)) hxs hys hsame heq
    · exact foldStep_binds es fs hx hy hg hh hstep
    · exact .inr ⟨p, List.mem_cons_of_mem _ hp, q, List.mem_cons_of_mem _ hq, hcoll⟩


/-- The sides a proof is folded with are those its flags were checked against (R128). -/
theorem map_snd_proofOf {b : Bytes} {c m n : Nat} (h : proofFlags b c = expFlagBytes m n) :
    (proofOf b c).map Prod.snd = expFlags m n := by
  have hsides : (proofOf b c).map Prod.snd = (proofFlags b c).map Side.ofByte := by
    simp only [proofOf, sidedEntries, proofFlags, List.map_map, Function.comp_def]
  rw [hsides, h, expFlagBytes, List.map_map]
  simp [Function.comp_def]

theorem proofOf_digest {b : Bytes} {c : Nat} (h : b.length = 33 * c) : ∀ e ∈ proofOf b c, e.1.length = 32 := by
  intro e he
  simp only [proofOf, sidedEntries, proofEntries, List.map_map, List.mem_map, List.mem_range] at he
  obtain ⟨k, hk, rfl⟩ := he
  exact length_slice _ _ _ (by omega)

/-- A proof with the expected flags that folds a leaf to the root of a leaf sequence folds the leaf of that index, or
what it hashes collides with what the true path hashes. -/
theorem leaf_eq_or_collision {leaves : List Bytes} {x y b : Bytes} {m c : Nat} (hx : leaves[m]? = some x)
    (hlen : b.length = 33 * c) (hflags : proofFlags b c = expFlagBytes m leaves.length)
    (hfold : fold y (proofOf b c) = mth (leaves.map leafHash)) :
    y = x ∨ ∃ p ∈ foldInputs y (proofOf b c), ∃ q ∈ foldInputs x (path m (leaves.map leafHash)),
      p ≠ q ∧ sm3 p = sm3 q := by
  have hpath : fold x (path m (leaves.map leafHash)) = mth (leaves.map leafHash) :=
    path_FoldsToRoot x m _ (by rw [List.getElem?_map, hx, Option.map_some])
  have hsides : (proofOf b c).map Prod.snd = (path m (leaves.map leafHash)).map Prod.snd := by
    rw [map_snd_proofOf hflags, map_snd_path_eq_expFlags m leaves.length _ (by simp)]
  obtain hleaf | ⟨p, hp, q, hq, hcoll⟩ := foldFrom_binds _ _ (leafHash y) (leafHash x) (length_leafHash y)
    (length_leafHash x) (proofOf_digest hlen) (path_digest _ m _ (leafHash_digest leaves)) hsides
    (hfold.trans hpath.symm)
  · by_cases hyx : y = x
    · exact .inl hyx
    · exact .inr ⟨_, List.mem_cons_self, _, List.mem_cons_self, fun hc => hyx (List.cons.inj hc).2, hleaf⟩
  · exact .inr ⟨p, List.mem_cons_of_mem _ hp, q, List.mem_cons_of_mem _ hq, hcoll⟩

/-- Settles O58: the flags give both folds the same sides, and both end in the root. -/
theorem inclusionProof_BindsTheLeaf : Obligations.InclusionProof_BindsTheLeaf := by
  intro s t leaves hu _ hverdict hroot hn hexec ht
  obtain ⟨w, hw, rfl⟩ := exec_ok_of_ne_errored hu hexec (ne_errored_of_verdict hverdict ht)
  obtain ⟨hindex, hlen, hflags, rfl⟩ := checkMtVerifyIncl_ok hw
  rw [complete_verdict] at ht
  have hfold : fold (srcBytes s) (proofOf (auxBytes s) (s.auxLen.toNat / 33)) = mth (leaves.map leafHash) := by
    rw [← ser_deser_mth, ← hroot]
    exact of_decide_eq_true ht
  rw [hn] at hindex hflags
  have haux : (auxBytes s).length = 33 * (s.auxLen.toNat / 33) := by
    rw [auxBytes, Memory.length_read]
    omega
  exact ⟨_, List.getElem?_eq_getElem hindex, leaf_eq_or_collision (List.getElem?_eq_getElem hindex) haux hflags hfold⟩

/-! ### The key among sorted leaves (R129, R130) -/

/-- Sorted leaves are pairwise in order: `<lex` is transitive (R129). -/
theorem sortedLeaves_pairwise : ∀ {leaves : List Bytes}, sortedLeaves leaves = true →
    leaves.Pairwise fun a b => lexLt a b = true
  | [], _ => .nil
  | [a], _ => List.pairwise_singleton _ a
  | a :: b :: rest, h => by
    obtain ⟨hab, hrest⟩ := Bool.and_eq_true_iff.mp h
    have hpair := sortedLeaves_pairwise hrest
    refine List.pairwise_cons.mpr ⟨List.forall_mem_cons.mpr ⟨hab, fun c hc => ?_⟩, hpair⟩
    exact lexLt_trans a b c hab ((List.pairwise_cons.mp hpair).1 c hc)

/-- Of two leaves of a sorted sequence, the lower stands first (R129). -/
theorem index_lt_of_lexLt {leaves : List Bytes} (h : sortedLeaves leaves = true) {j k : Nat} {x y : Bytes}
    (hx : leaves[j]? = some x) (hy : leaves[k]? = some y) (hxy : lexLt x y = true) : j < k := by
  obtain ⟨hj, rfl⟩ := List.getElem?_eq_some_iff.mp hx
  obtain ⟨hk, rfl⟩ := List.getElem?_eq_some_iff.mp hy
  by_contra hkj
  obtain hlt | heq := Nat.lt_or_eq_of_le (Nat.not_lt.mp hkj)
  · have hyx := List.pairwise_iff_getElem.mp (sortedLeaves_pairwise h) k j hk hj hlt
    rw [lexLt_asymm _ _ hyx] at hxy
    cases hxy
  · simp [heq] at hxy

/-- The leaves of a sorted sequence below the key are those before pos(y) (R130). -/
theorem lexLt_key_iff {y : Bytes} : ∀ {leaves : List Bytes} {j : Nat} {x : Bytes},
    leaves.Pairwise (fun a b => lexLt a b = true) → leaves[j]? = some x → (lexLt x y = true ↔ j < keyPos leaves y)
  | [], _, _, _, hx => by simp at hx
  | a :: rest, j, x, h, hx => by
    obtain ⟨hfirst, hrest⟩ := List.pairwise_cons.mp h
    by_cases hay : lexLt a y = true
    · have hpos : keyPos (a :: rest) y = keyPos rest y + 1 := List.countP_cons_of_pos hay
      rw [hpos]
      cases j with
      | zero =>
        obtain rfl : a = x := Option.some.inj hx
        exact iff_of_true hay (Nat.zero_lt_succ _)
      | succ j =>
        rw [Nat.add_lt_add_iff_right]
        exact lexLt_key_iff hrest hx
    · have hnone : ∀ c ∈ a :: rest, ¬ lexLt c y = true :=
        List.forall_mem_cons.mpr ⟨hay, fun c hc hcy => hay (lexLt_trans a c y (hfirst c hc) hcy)⟩
      have hpos : keyPos (a :: rest) y = 0 := List.countP_eq_zero.mpr hnone
      rw [hpos]
      exact iff_of_false (hnone x (List.mem_of_getElem? hx)) (Nat.not_lt_zero j)

/-! ### A written non-inclusion record verifies (R136 to R138) -/

/-- The neighbour block of leaf `j` of the sealed tree, as ParseNIR gives it (R79, R80). -/
def treeNeighbour (s : State) (j : Nat) : Neighbour where
  index := j
  leaf := leafOf s s.treeDesc.toNat j
  count := (path j (treeDigests s)).length
  entries := encPath (path j (treeDigests s))

/-- The blocks of the record of the sealed tree (R136). -/
def recordBlocks (s : State) : List Neighbour :=
  (neighboursOf (keyPosition s) s.treeN.toNat).2.map (treeNeighbour s)

theorem treeNeighbour_fits (s : State) {j : Nat} (hj : j < s.treeN.toNat) : Neighbour.fits (treeNeighbour s j) := by
  have hcount := depth_le j s.treeN.toNat s.treeN.isLt
  refine ⟨hj.trans s.treeN.isLt, ?_, ?_, length_encPath _ (path_treeDigests_digest s j)⟩
  · rw [treeNeighbour, length_leafOf]
    exact BitVec.isLt _
  · exact (length_path_treeDigests s j).trans_lt (by omega)

/-- A block of an intact tree passes the checks of MT_VERIFY_NONINCL against TREE_N (R137). -/
theorem treeIntact.treeNeighbour_ok {s : State} (h : treeIntact s) {j : Nat} (hj : j < s.treeN.toNat) :
    Neighbour.ok s.treeN.toNat (treeNeighbour s j) := by
  refine ⟨hj, length_path_treeDigests s j, ?_, ?_⟩
  · rw [treeNeighbour, length_leafOf]
    exact (h.leaves j hj).1
  · rw [treeNeighbour, length_path_treeDigests, proofFlags_treePath]

/-- A block of an intact tree folds to ROOT (R127, R137). -/
theorem treeIntact.treeNeighbour_folds {s : State} (h : treeIntact s) {j : Nat} (hj : j < s.treeN.toNat) :
    Neighbour.folds (ser s.root) (treeNeighbour s j) := by
  rw [Neighbour.folds, treeNeighbour, length_path_treeDigests, proofOf_treePath, h.fold_path hj]

/-- The neighbours of an absent key are leaves of the tree (R130). -/
theorem neighboursOf_lt {p n j : Nat} (hn : n ≠ 0) (hp : p ≤ n) (hj : j ∈ (neighboursOf p n).2) : j < n := by
  rw [neighboursOf] at hj
  split at hj
  · rw [List.mem_singleton] at hj
    omega
  · split at hj
    · rw [List.mem_singleton] at hj
      omega
    · rw [List.mem_pair] at hj
      omega

theorem length_neighboursOf (p n : Nat) : (neighboursOf p n).2.length = (neighboursOf p n).1.blocks := by
  rw [neighboursOf]
  split
  · rfl
  · split <;> rfl

theorem recordOf_eq_blocks {s : State} (hn : s.treeN.toNat ≠ 0) :
    recordOf s = (neighboursOf (keyPosition s) s.treeN.toNat).1.byte :: (recordBlocks s).flatMap Neighbour.bytes := by
  rw [← nirRecord_eq_recordOf hn, nirRecord, length_leavesOf, recordBlocks, List.flatMap_map]
  refine congrArg (_ :: ·) (List.flatMap_congr fun j hj => ?_)
  rw [getD_leavesOf (neighboursOf_lt hn (keyPosition_le s) hj)]
  rfl

theorem forall_recordBlocks {s : State} {P : Neighbour → Prop} (hn : s.treeN.toNat ≠ 0)
    (h : ∀ j < s.treeN.toNat, P (treeNeighbour s j)) : ∀ b ∈ recordBlocks s, P b := by
  intro b hb
  obtain ⟨j, hj, rfl⟩ := List.mem_map.mp hb
  exact h j (neighboursOf_lt hn (keyPosition_le s) hj)

/-- The record of a tree that is not empty parses into its blocks (R79, R80). -/
theorem parseNir_recordOf {s : State} (hn : s.treeN.toNat ≠ 0) :
    parseNir (recordOf s) = .ok ((neighboursOf (keyPosition s) s.treeN.toNat).1, recordBlocks s) := by
  refine parseNir_eq_ok_iff.mpr ⟨recordOf_eq_blocks hn, forall_recordBlocks hn fun j hj => treeNeighbour_fits s hj, ?_⟩
  rw [recordBlocks, List.length_map, length_neighboursOf]

theorem kindFits_recordBlocks (s : State) :
    kindFits (neighboursOf (keyPosition s) s.treeN.toNat).1 s.treeN.toNat (recordBlocks s) = true := by
  rw [recordBlocks, neighboursOf]
  split
  · rfl
  · split
    · exact decide_eq_true rfl
    · exact decide_eq_true (show keyPosition s = keyPosition s - 1 + 1 by omega)

/-- The leaves of an intact sorted tree below the key are those before pos(y) (R130). -/
theorem treeIntact.lexLt_leafOf_iff {s : State} (h : treeIntact s) (hsort : s.treeSorted = true) {j : Nat}
    (hj : j < s.treeN.toNat) : lexLt (leafOf s s.treeDesc.toNat j) (srcBytes s) = true ↔ j < keyPosition s :=
  lexLt_key_iff (sortedLeaves_pairwise (h.sorted.symm.trans hsort)) (getElem?_leavesOf hj)

/-- An absent key is below the leaf at pos(y), if there is one (R130). -/
theorem treeIntact.lexLt_leafOf_keyPosition {s : State} (h : treeIntact s) (hsort : s.treeSorted = true)
    (habsent : ¬ (keyPosition s < s.treeN.toNat ∧ leafOf s s.treeDesc.toNat (keyPosition s) = srcBytes s))
    (hp : keyPosition s < s.treeN.toNat) : lexLt (srcBytes s) (leafOf s s.treeDesc.toNat (keyPosition s)) = true := by
  obtain hlt | heq | hgt := lexLt_total (srcBytes s) (leafOf s s.treeDesc.toNat (keyPosition s))
  · exact hlt
  · exact absurd ⟨hp, heq.symm⟩ habsent
  · exact absurd ((h.lexLt_leafOf_iff hsort hp).mp hgt) (Nat.lt_irrefl _)

/-- The key lies strictly where the record of an intact sorted tree says (R130, R137). -/
theorem treeIntact.keyFits_recordBlocks {s : State} (h : treeIntact s) (hn : s.treeN.toNat ≠ 0)
    (hsort : s.treeSorted = true)
    (habsent : ¬ (keyPosition s < s.treeN.toNat ∧ leafOf s s.treeDesc.toNat (keyPosition s) = srcBytes s)) :
    keyFits (neighboursOf (keyPosition s) s.treeN.toNat).1 (srcBytes s) (recordBlocks s) = true := by
  have hle := keyPosition_le s
  have habove := h.lexLt_leafOf_keyPosition hsort habsent
  have hbelow := fun j (hj : j < s.treeN.toNat) => (h.lexLt_leafOf_iff hsort hj).mpr
  rw [recordBlocks, neighboursOf]
  split
  · next hp =>
    rw [hp] at habove
    exact habove (by omega)
  · split
    · exact hbelow _ (by omega) (by omega)
    · exact Bool.and_eq_true_iff.mpr ⟨hbelow _ (by omega) (by omega), habove (by omega)⟩

/-- MT_VERIFY_NONINCL of an absent key and its record, against ROOT and TREE_N of an intact sorted tree. -/
theorem exec_mtVerifyNonincl_of_record {s t : State} (h : treeIntact s) (hn : s.treeN.toNat ≠ 0)
    (hsort : s.treeSorted = true)
    (habsent : ¬ (keyPosition s < s.treeN.toNat ∧ leafOf s s.treeDesc.toNat (keyPosition s) = srcBytes s))
    (hu : undisturbed .mtVerifyNonincl t) (hroot : t.stateIn = s.root) (harg : t.arg1 = s.treeN)
    (hsrc : validRange t t.srcAddr t.srcLen.toNat) (haux : validRange t t.auxAddr t.auxLen.toNat)
    (hkey : srcBytes t = srcBytes s) (hrecord : auxBytes t = recordOf s) :
    exec .mtVerifyNonincl t = .next { succeeded t with verdict := true, result0 := 1 } := by
  have hparse := parseNir_recordOf hn
  have hok := forall_recordBlocks hn fun j hj => h.treeNeighbour_ok hj
  rw [← hrecord] at hparse
  rw [← harg] at hn hok
  obtain ⟨-, hfit⟩ := exec_mtVerifyNonincl_of_blocks hu hn hsrc haux hparse hok
  refine hfit ?_ true (iff_of_true rfl ⟨?_, ?_⟩)
  · rw [harg, kindFits_recordBlocks]
  · rw [hroot]
    exact forall_recordBlocks (harg ▸ hn) fun j hj => h.treeNeighbour_folds hj
  · rw [hkey, h.keyFits_recordBlocks (harg ▸ hn) hsort habsent]

/-- Settles O59: the record stored reads back and parses into blocks of the tree, between which the key lies. -/
theorem nonInclusion_IsComplete : Obligations.NonInclusion_IsComplete := by
  intro s u a l h hu hwf _ hexec hok hkeyRange hkey
  obtain ⟨w, hw, rfl⟩ := exec_ok_of_ne_errored hu hexec (ne_errored_of_errFlag hok)
  obtain ⟨hn, hsort, habsent, hroom, hdst, rfl⟩ := checkMtNoninclProof_ok hw
  rw [complete_recordEffect] at hkeyRange hkey ⊢
  have hlen : (BitVec.ofNat 64 (recordOf s).length).toNat = (recordOf s).length := by
    rw [BitVec.toNat_ofNat]
    omega
  refine exec_mtVerifyNonincl_of_record h hn hsort habsent (undisturbed_of_not_storing _ _ (by decide) rfl rfl) rfl rfl
    hkeyRange ?_ hkey ?_
  · rwa [hlen]
  · rw [auxBytes, hlen]
    exact Memory.read_write_same _ _ _ hwf

/-! ### A verified non-inclusion record proves absence (R137, R138) -/

/-- What a verdict of 1 says of a record: it parses, its blocks pass and fold to the root, its indices fit the kind, and
the key lies where the kind says (R137). -/
theorem nirVerdict_true {root : Digest} {n : Nat} {y r : Bytes} (h : nirVerdict root n y r = .ok true) :
    ∃ kind bs, parseNir r = .ok (kind, bs) ∧ (∀ b ∈ bs, Neighbour.ok n b ∧ Neighbour.folds root b) ∧
      kindFits kind n bs = true ∧ keyFits kind y bs = true := by
  cases hparse : parseNir r with
  | error e =>
    rw [nirVerdict, hparse] at h
    cases h
  | ok kb =>
    obtain ⟨kind, bs⟩ := kb
    have hok : ∀ b ∈ bs, Neighbour.ok n b := by
      rw [nirVerdict, hparse] at h
      cases hbs : checkNeighbours root n bs with
      | error e => simp [hbs] at h
      | ok ok => exact ok_of_checkNeighbours hbs
    rw [nirVerdict_of_ok root hparse hok] at h
    split at h
    · next hkind =>
      obtain ⟨hfolds, hkey⟩ := Bool.and_eq_true_iff.mp (Except.ok.inj h)
      exact ⟨kind, bs, rfl, fun b hb => ⟨hok b hb, of_decide_eq_true hfolds b hb⟩, hkind, hkey⟩
    · cases h

/-- A key that lies strictly where the kind says, among blocks that are leaves of the sorted sequence, is no leaf: its
index would lie strictly between those of adjacent leaves, or outside the sequence (R130). -/
theorem notMem_of_keyFits {leaves : List Bytes} {y : Bytes} {kind : NirKind} {bs : List Neighbour}
    (hsort : sortedLeaves leaves = true) (hcount : bs.length = kind.blocks)
    (hbs : ∀ b ∈ bs, leaves[b.index]? = some b.leaf) (hkind : kindFits kind leaves.length bs = true)
    (hkey : keyFits kind y bs = true) : y ∉ leaves := by
  intro hy
  obtain ⟨k, hk⟩ := List.mem_iff_getElem?.mp hy
  cases kind with
  | beforeFirst =>
    obtain ⟨b, rfl⟩ := List.length_eq_one_iff.mp hcount
    have hlow := index_lt_of_lexLt hsort hk (hbs b (by simp)) hkey
    have hfirst : b.index = 0 := of_decide_eq_true hkind
    omega
  | afterLast =>
    obtain ⟨b, rfl⟩ := List.length_eq_one_iff.mp hcount
    have hhigh := index_lt_of_lexLt hsort (hbs b (by simp)) hk hkey
    have hlast : b.index = leaves.length - 1 := of_decide_eq_true hkind
    obtain ⟨hlt, -⟩ := List.getElem?_eq_some_iff.mp hk
    omega
  | bracket =>
    obtain ⟨a, b, rfl⟩ := List.length_eq_two.mp hcount
    obtain ⟨hay, hyb⟩ := Bool.and_eq_true_iff.mp hkey
    have hhigh := index_lt_of_lexLt hsort (hbs a (by simp)) hk hay
    have hlow := index_lt_of_lexLt hsort hk (hbs b (by simp)) hyb
    have hnext : b.index = a.index + 1 := of_decide_eq_true hkind
    omega

/-- Settles O60: either every block is the tree's leaf at its index, and then the key is absent, or one is not. -/
theorem nonInclusion_IsSound : Obligations.NonInclusion_IsSound := by
  intro s t leaves hu _ hverdict hsort hroot hn hexec ht
  obtain ⟨w, hw, rfl⟩ := exec_ok_of_ne_errored hu hexec (ne_errored_of_verdict hverdict ht)
  obtain ⟨-, ok, hv, rfl⟩ := checkMtVerifyNonincl_ok hw
  rw [complete_verdict] at ht
  obtain rfl : ok = true := ht
  rw [hroot, ser_deser_mth, hn] at hv
  obtain ⟨kind, bs, hparse, hblocks, hkind, hkey⟩ := nirVerdict_true hv
  by_cases hbs : ∀ b ∈ bs, leaves[b.index]? = some b.leaf
  · obtain ⟨-, -, hcount⟩ := parseNir_eq_ok_iff.mp hparse
    exact .inl (notMem_of_keyFits hsort hcount hbs hkind hkey)
  · push Not at hbs
    obtain ⟨b, hb, hne⟩ := hbs
    obtain ⟨hok, hfolds⟩ := hblocks b hb
    exact .inr ⟨kind, bs, b, hparse, hb, hne, hok, hfolds⟩

end Sys2Proof.Machine
end

section
/-! The proofs of the statements of spec/60_exceptions.md: what the accept and an overrun change, the completion of every
command, what an error completion leaves alone, and the error table. -/

namespace Sys2Proof.Machine

/-! ### The accept and the overrun (R140, R145) -/

/-- Settles O7: a CMD write to an idle engine is `accept`, whose definition lists what it sets. -/
theorem accept_SetsExactly : Obligations.Accept_SetsExactly :=
  fun _ w hidle => hostWrite_cmd_of_idle hidle w

/-- Settles O8: the overrun is the CMD clause of what a busy engine does with host writes. -/
theorem overrun_SetsOvrOnly : Obligations.Overrun_SetsOvrOnly := by
  intro s w hbusy
  obtain ⟨-, hoverrun, -⟩ := busyWrites_Ignored s .cmd w hbusy
  exact hoverrun

/-! ### The completion (R141, R142, R147) -/

/-- A write phase raises no interrupt bit: a completion does so after it (R141). -/
theorem applyEffect_irqStatus (s : State) (w : Effect) : (applyEffect s w).irqStatus = s.irqStatus :=
  applyRegs_frame State.irqStatus w.regs (fun r _ u => by cases r <;> rfl) (memWrite s w.addr w.bytes)

/-- A completion adds DONE to the pending interrupt bits, an error completion ERR too (R141, R142). -/
theorem exec_irqStatus {i : Instr} {s t : State} (h : exec i s = .next t) :
    t.irqStatus = s.irqStatus ||| 0b011 ∨ t.irqStatus = s.irqStatus ||| 0b001 := by
  obtain ⟨n, ⟨e, -, rfl⟩ | ⟨w, -, rfl⟩⟩ := exec_cases i s t h
  · exact .inl rfl
  · right
    rw [succeeded_irqStatus, applyEffect_irqStatus]

theorem exec_irqEnable {i : Instr} {s t : State} (h : exec i s = .next t) : t.irqEnable = s.irqEnable := by
  have hside := exec_hostSide h
  simp only [hostSide, Prod.mk.injEq] at hside
  obtain ⟨-, henable, -⟩ := hside
  exact henable

/-- Settles O9: both kinds of completion only add interrupt bits, DONE among them. -/
theorem completion_Always : Obligations.Completion_Always := by
  intro i s
  obtain ⟨t, h, hidle⟩ := exec_eq_next i s
  refine ⟨t, h, hidle, ?done, fun k hk => ?kept, exec_irqEnable h⟩
  case done => obtain hirq | hirq := exec_irqStatus h <;> simp [hirq]
  case kept => obtain hirq | hirq := exec_irqStatus h <;> simp [hirq, hk]

/-- Settles O10: a write phase leaves ERR at 0, so a completion with ERR = 1 is an error completion, and that changes
what `errored` lists and the count of draws. -/
theorem errorCompletion_IsPrecise : Obligations.ErrorCompletion_IsPrecise := by
  intro i s t hclear h herr
  obtain ⟨n, ⟨e, he, rfl⟩ | ⟨w, -, rfl⟩⟩ := exec_cases i s t h
  · exact ⟨e, he, rfl⟩
  · obtain ⟨hflag, -⟩ := applyEffect_error { s with draws := s.draws + n } w
    cases herr.symm.trans (hflag.trans hclear)

/-! ### The error table (R139) -/

/-- Settles O11: the table of codes is evaluated row by row, the table of errors command by command. -/
theorem errorTable_AsGiven : Obligations.ErrorTable_AsGiven := by
  refine ⟨by decide, fun i => ?_⟩
  cases i <;> decide

end Sys2Proof.Machine
end

section
/-! The proof of the statement of spec/70_reset_and_hazards.md about the soft reset of a busy engine: what an aborted
write leaves in each byte of memory, and which write a soft reset aborts. -/

namespace Sys2Proof.Machine

/-! ### An aborted write (R160 (c)) -/

/-- Each byte of an aborted write is the old one or the one the write has for its address. -/
theorem get_partialWrite (d : Nat) {x : Nat} (bs : Bytes) : ∀ (k : Nat) (m : List Host.Cell) (a : Nat),
    Memory.wf m = true →
      Memory.get (partialWrite d k m a bs) x = Memory.get m x ∨
        ∃ j < bs.length, x = a + j ∧ Memory.get (partialWrite d k m a bs) x = bs.getD j 0 := by
  induction bs with
  | nil => exact fun _ _ _ _ => .inl rfl
  | cons b bs ih =>
    intro k m a hwf
    have hlater : ∀ {v : Byte}, (∃ j < bs.length, x = a + 1 + j ∧ v = bs.getD j 0) →
        ∃ j < (b :: bs).length, x = a + j ∧ v = (b :: bs).getD j 0 := by
      rintro v ⟨j, hj, hx, hv⟩
      exact ⟨j + 1, Nat.succ_lt_succ hj, by omega, hv⟩
    rw [partialWrite]
    split
    case isTrue =>
      obtain hset | hnew := ih (k + 1) _ (a + 1) (Memory.wf_set m a b hwf)
      · rw [Memory.get_set m a b x hwf] at hset
        split at hset
        case isTrue hx => exact .inr ⟨0, Nat.succ_pos _, hx, hset⟩
        case isFalse => exact .inl hset
      · exact .inr (hlater hnew)
    case isFalse => exact (ih (k + 1) m (a + 1) hwf).imp_right hlater

/-- Each byte of memory after an aborted write is the old one or the one after the whole write. -/
theorem get_partialWrite_old_or_new (d k : Nat) {m : List Host.Cell} (a : Nat) (bs : Bytes) (x : Nat)
    (hwf : Memory.wf m = true) :
    Memory.get (partialWrite d k m a bs) x = Memory.get m x ∨
      Memory.get (partialWrite d k m a bs) x = Memory.get (Memory.write m a bs) x := by
  refine (get_partialWrite d bs k m a hwf).imp_right ?_
  rintro ⟨j, hj, rfl, hnew⟩
  rw [hnew, Memory.get_write_of_mem bs m a j hwf hj]

/-! ### The write a soft reset aborts (R160 (b)) -/

theorem pending_of_decode {s : State} {c : Word} {i : Instr} (hd : decode c = .ok i) :
    pending s c = resolve i s (checkOf i s) := by
  rw [pending, hd]

theorem pending_of_reserved (s : State) {c : Word} (hd : ∀ i, decode c ≠ .ok i) :
    pending s c = (.error .badOpcode, 0) := by
  rw [pending]
  split
  case h_1 i hi => exact absurd hi (hd i)
  case h_2 => rfl

/-- A command that would have failed had no byte to write. -/
theorem softReset_mem_of_error {s : State} {c : Word} {e : Err} (hc : s.inflight = some c)
    (he : (pending s c).1 = .error e) : (softReset s).mem = s.mem := by
  simp only [softReset, hc, he, resetRegisters_mem]

theorem softReset_mem_of_ok {s : State} {c : Word} {e : Effect} (hc : s.inflight = some c)
    (he : (pending s c).1 = .ok e) :
    (softReset s).mem = partialWrite (s.draws + (pending s c).2) 0 s.mem e.addr e.bytes := by
  simp only [softReset, hc, he, resetRegisters_mem]

/-- A soft reset leaves each byte of memory as it was, or as the completion of the command in flight would have. -/
theorem get_softReset_old_or_new {s u : State} {c : Word} {i : Instr} (hwf : Memory.wf s.mem = true)
    (hc : s.inflight = some c) (hd : decode c = .ok i) (hu : exec i s = .next u) (x : Nat) :
    Memory.get (softReset s).mem x = Memory.get s.mem x ∨ Memory.get (softReset s).mem x = Memory.get u.mem x := by
  cases hp : (pending s c).1 with
  | error e => rw [softReset_mem_of_error hc hp]; exact .inl rfl
  | ok e =>
    obtain ⟨n, hnext⟩ := exec_of_resolve (pending_of_decode hd ▸ hp)
    obtain rfl := Host.Outcome.next.inj (hu.symm.trans hnext)
    rw [softReset_mem_of_ok hc hp, succeeded_mem, applyEffect_mem]
    exact get_partialWrite_old_or_new _ 0 e.addr e.bytes x hwf

/-- Settles O47: a soft reset of an idle engine, or of one with a reserved word in flight, has no write to abort; the
write of a command in flight is aborted byte by byte. -/
theorem softReset_AbortsTheCommand : Obligations.SoftReset_AbortsTheCommand := by
  intro s w hw hwf
  obtain ⟨r, hr⟩ := exists_eq_resetRegisters (s := s) (.inr (.inr ⟨w, hw, rfl⟩))
  have hsoft : hostWrite s 0x008 4 w = softReset s := by rw [hostWrite_ctrl, if_pos hw]
  refine ⟨fun hidle => ?idle, fun c hc hd => ?reserved, fun c i u hc hd hu => ⟨?notBusy, ?noInterrupt, fun x => ?byte⟩⟩
  case idle => rw [hsoft, softReset, hidle, resetRegisters_mem]
  case reserved => rw [hsoft, softReset_mem_of_error hc (congrArg Prod.fst (pending_of_reserved s hd))]
  case notBusy => rw [hr]; rfl
  case noInterrupt => rw [hr]; rfl
  case byte =>
    rw [hsoft]
    exact get_softReset_old_or_new hwf hc hd hu x

end Sys2Proof.Machine
end
